-- ==== Sys2Proof/Word.lean ====
section
/-! DEFINITION. The word types of HUFFBLK, one name per width of spec/00_scope.md R9. All quantities are unsigned (R11). -/

namespace Sys2Proof

/-- A Symbol, `SYMBOL_W` = 8 bits (R9). -/
abbrev Symbol := BitVec 8

/-- A frequency, `FREQ_W` = 32 bits, unsigned (R9). -/
abbrev Freq := BitVec 32

/-- A node index, `IDX_W` = 9 bits; 511 is never allocated (R9). -/
abbrev NodeIdx := BitVec 9

/-- One element of the decoder's input stream, `STREAM_W` = 8 bits (R9). -/
abbrev StreamElem := BitVec 8

/-- A response or error code, 4 bits (R77, R181). -/
abbrev Code := BitVec 4

/-- A command word, `CMD_W` = 48 bits (R9, R70). -/
abbrev CmdWord := BitVec 48

/-- The data field of a response, 64 bits (R77). -/
abbrev Data := BitVec 64

/-- A response word, `RSP_W` = 68 bits: 4 of code, 64 of data (R9, R77). -/
abbrev RspWord := BitVec 68

end Sys2Proof
end

