-- ==== Sys2Proof/Syntax.lean ====
section
/-! DEFINITION. The ten commands (spec/30_encoding.md R73) and the names of the ways a word can be illegal (R75). -/

namespace Sys2Proof

/-- One constructor per row of spec/opcode_table.json. The operands are the unsigned fields of R71 and R72. -/
inductive Instr where
  | clr
  | leaf (sym : Symbol) (freq : Freq)
  | xmin
  | size
  | merge
  | build
  | dbit (v : StreamElem)
  | dend
  | stat
  | node (idx : NodeIdx)
deriving DecidableEq, Repr

/-- Why a word is no command (R75): its opcode is 0x0 or 0xB to 0xF, or a must-be-zero bit of its command is 1 (R74). -/
inductive IllegalWord where
  | unassignedOpcode (op : BitVec 4)
  | reservedBitSet (mnemonic : String)
deriving DecidableEq, Repr

end Sys2Proof
end

