-- ==== Sys2Proof/WellFormed.lean ====
section
/-! DEFINITION. What is well-formed: of words, the checks of spec/30_encoding.md R74 and R75, written on the bits by range and
apart from the decoder; of instructions, nothing beyond their operand types. -/

namespace Sys2Proof

/-- The opcode of a word, bits 47:44 (R71). -/
def CmdWord.opBits (w : CmdWord) : Nat := w.toNat / 2 ^ 44

/-- Bits `hi:lo` of a word as a number (R11). -/
def CmdWord.bits (w : CmdWord) (hi lo : Nat) : Nat := w.toNat / 2 ^ lo % 2 ^ (hi + 1 - lo)

/-- The opcode is one of 0x1 to 0xA (R73). -/
def CmdWord.opcodeAssigned (w : CmdWord) : Bool := 1 ≤ CmdWord.opBits w && CmdWord.opBits w ≤ 10

/-- Every must-be-zero bit of the word's command is 0 (R74): 43:40 for LEAF; 43:40 and 31:0 for DBIT; 43:41 and 31:0 for
NODE; 43:0 for the others. -/
def CmdWord.reservedZero (w : CmdWord) : Bool :=
  match CmdWord.opBits w with
  | 2 => CmdWord.bits w 43 40 == 0
  | 7 => CmdWord.bits w 43 40 == 0 && CmdWord.bits w 31 0 == 0
  | 10 => CmdWord.bits w 43 41 == 0 && CmdWord.bits w 31 0 == 0
  | _ => CmdWord.bits w 43 0 == 0

/-- A word that is a command, by R74 and R75. -/
def CmdWord.wellFormed (w : CmdWord) : Bool := CmdWord.opcodeAssigned w && CmdWord.reservedZero w

/-- R75 counts every value of every operand field as a legal word (7 + 2^40 + 2^8 + 2^9 words), so an instruction is
well-formed by its operand types alone: no operand value is reserved. -/
def Instr.wellFormed : Instr → Bool
  | .clr => true
  | .leaf _ _ => true
  | .xmin => true
  | .size => true
  | .merge => true
  | .build => true
  | .dbit _ => true
  | .dend => true
  | .stat => true
  | .node _ => true

end Sys2Proof
end

