-- ==== Sys2Proof/Decode.lean ====
section
/-! DEFINITION. The decoder, total on every 48-bit word, and the encoder (spec/30_encoding.md R70 to R76). -/

namespace Sys2Proof

/-- `op = cmd[47:44]` (R71). -/
def opField (w : CmdWord) : BitVec 4 := w.extractLsb' 44 4

/-- `sym = cmd[39:32]` (R72). -/
def symField (w : CmdWord) : Symbol := w.extractLsb' 32 8

/-- `freq = cmd[31:0]` (R72). -/
def freqField (w : CmdWord) : Freq := w.extractLsb' 0 32

/-- `v = cmd[39:32]` (R72). -/
def streamField (w : CmdWord) : StreamElem := w.extractLsb' 32 8

/-- `idx = cmd[40:32]` (R72). -/
def idxField (w : CmdWord) : NodeIdx := w.extractLsb' 32 9

/-- The must-be-zero rule (R74): a legal opcode with a 1 in a reserved bit is an illegal word. -/
def ifReservedZero {n : Nat} (mnemonic : String) (reserved : BitVec n) (i : Instr) : Except IllegalWord Instr :=
  if reserved = 0#n then .ok i else .error (.reservedBitSet mnemonic)

/-- The command a word stands for, or why it stands for none (R73 to R76). -/
def decode (w : CmdWord) : Except IllegalWord Instr :=
  match opField w with
  | 0x1#4 => ifReservedZero "CLR" (w.extractLsb' 0 44) .clr
  | 0x2#4 => ifReservedZero "LEAF" (w.extractLsb' 40 4) (.leaf (symField w) (freqField w))
  | 0x3#4 => ifReservedZero "XMIN" (w.extractLsb' 0 44) .xmin
  | 0x4#4 => ifReservedZero "SIZE" (w.extractLsb' 0 44) .size
  | 0x5#4 => ifReservedZero "MERGE" (w.extractLsb' 0 44) .merge
  | 0x6#4 => ifReservedZero "BUILD" (w.extractLsb' 0 44) .build
  | 0x7#4 => ifReservedZero "DBIT" (w.extractLsb' 40 4 ++ w.extractLsb' 0 32) (.dbit (streamField w))
  | 0x8#4 => ifReservedZero "DEND" (w.extractLsb' 0 44) .dend
  | 0x9#4 => ifReservedZero "STAT" (w.extractLsb' 0 44) .stat
  | 0xA#4 => ifReservedZero "NODE" (w.extractLsb' 41 3 ++ w.extractLsb' 0 32) (.node (idxField w))
  | op => .error (.unassignedOpcode op)

/-- Format `C` (R71): `op` in 47:44, `a` in 43:32, `f` in 31:0. -/
def formatC (op : BitVec 4) (a : BitVec 12) (f : BitVec 32) : CmdWord := op ++ a ++ f

/-- The word of a command (R71, R73): unused bits are 0 (R74). -/
def encode : Instr → CmdWord
  | .clr => formatC 0x1#4 0#12 0#32
  | .leaf sym freq => formatC 0x2#4 (0#4 ++ sym) freq
  | .xmin => formatC 0x3#4 0#12 0#32
  | .size => formatC 0x4#4 0#12 0#32
  | .merge => formatC 0x5#4 0#12 0#32
  | .build => formatC 0x6#4 0#12 0#32
  | .dbit v => formatC 0x7#4 (0#4 ++ v) 0#32
  | .dend => formatC 0x8#4 0#12 0#32
  | .stat => formatC 0x9#4 0#12 0#32
  | .node idx => formatC 0xA#4 (0#3 ++ idx) 0#32

/-- The mnemonic of a command (R73). -/
def mnemonicOf : Instr → String
  | .clr => "CLR"
  | .leaf _ _ => "LEAF"
  | .xmin => "XMIN"
  | .size => "SIZE"
  | .merge => "MERGE"
  | .build => "BUILD"
  | .dbit _ => "DBIT"
  | .dend => "DEND"
  | .stat => "STAT"
  | .node _ => "NODE"

/-- One row of the match and mask table (R76). -/
structure OpcodeRow where
  mnemonic : String
  matchBits : CmdWord
  maskBits : CmdWord
deriving DecidableEq, Repr

/-- The match and mask table of R76. The decoder does not use it: it is the spec's second description of the encodings. -/
def opcodeRows : List OpcodeRow :=
  [ ⟨"CLR", 0x100000000000#48, 0xFFFFFFFFFFFF#48⟩,
    ⟨"LEAF", 0x200000000000#48, 0xFF0000000000#48⟩,
    ⟨"XMIN", 0x300000000000#48, 0xFFFFFFFFFFFF#48⟩,
    ⟨"SIZE", 0x400000000000#48, 0xFFFFFFFFFFFF#48⟩,
    ⟨"MERGE", 0x500000000000#48, 0xFFFFFFFFFFFF#48⟩,
    ⟨"BUILD", 0x600000000000#48, 0xFFFFFFFFFFFF#48⟩,
    ⟨"DBIT", 0x700000000000#48, 0xFF00FFFFFFFF#48⟩,
    ⟨"DEND", 0x800000000000#48, 0xFFFFFFFFFFFF#48⟩,
    ⟨"STAT", 0x900000000000#48, 0xFFFFFFFFFFFF#48⟩,
    ⟨"NODE", 0xA00000000000#48, 0xFE00FFFFFFFF#48⟩ ]

/-- The word selects the row: `(w AND mask) = match` (R76). -/
def OpcodeRow.selects (r : OpcodeRow) (w : CmdWord) : Bool := w &&& r.maskBits == r.matchBits

/-- The host's reading of a table word: a command is ONE 48-bit word and a parallel value (R51, R70), so the word's bits are
the command's bits. Bits above `nbits` are 0; a word of more than 48 bits is no command. Log entry 11. -/
def decodeTableWord (nbits w : Nat) : Option Instr :=
  if nbits ≤ 48 then
    match decode (BitVec.ofNat 48 (w % 2 ^ nbits)) with
    | .ok i => some i
    | .error _ => none
  else none

/-- The pseudo-instruction `DBITS "b1b2...bn"` (R81): one DBIT per character `0` or `1`; any other character is refused by
the assembler (R167 lets the host reject it). Log entry 14. -/
def dbits : List Char → Option (List Instr)
  | [] => some []
  | c :: cs =>
    match (if c = '0' then some 0#8 else if c = '1' then some 1#8 else none), dbits cs with
    | some v, some is => some (.dbit v :: is)
    | _, _ => none

/-- The listing of a command (R80): the mnemonic, then the operands separated by commas, here written as decimal numbers. -/
def listing : Instr → String
  | .leaf sym freq => "LEAF " ++ toString sym.toNat ++ ", " ++ toString freq.toNat
  | .dbit v => "DBIT " ++ toString v.toNat
  | .node idx => "NODE " ++ toString idx.toNat
  | .clr => "CLR"
  | .xmin => "XMIN"
  | .size => "SIZE"
  | .merge => "MERGE"
  | .build => "BUILD"
  | .dend => "DEND"
  | .stat => "STAT"

end Sys2Proof
end

