-- ==== Sys2Proof/Config.lean ====
section
/-! DEFINITION. The implementation parameters of spec/00_scope.md R9 that are numbers and not widths. The spec gives each a
value and leaves none open (R16). The one free value is the host's, not the machine's. -/

namespace Sys2Proof.Config

/-- `N_SYM`: the number of symbol values (R9). -/
def nSym : Nat := 256

/-- `FREQ_MAX` = 2^32 - 1: the largest frequency (R9). -/
def freqMax : Nat := 4294967295

/-- `PQ_CAP`: the most entries the priority structure holds (R9). -/
def pqCap : Nat := 256

/-- `NODE_CAP` = 2 * `N_SYM` - 1: the most nodes the node store holds (R9, R10). -/
def nodeCap : Nat := 511

/-- A free value: the `freq` operand a host sends for a count above `FREQ_MAX`, which it must not have (R161, R218) and for which
the spec names no word (log entry 16). -/
opaque oversizedCount : Nat → BitVec 32

end Sys2Proof.Config
end

