-- ==== Sys2Proof/Machine/State.lean ====
section
/-! DEFINITION. The state of HUFFBLK (spec/10_state.md R20 to R32), the events of its ports (spec/30_encoding.md R83) and the
reasons a step of the model can stop. -/

namespace Sys2Proof.Machine

/-- One tree node (R26): a leaf holds a Symbol and its frequency, an internal node an aggregate frequency and two children.
R26 allows this sum type; the 59-bit record, with 0 in the fields that do not apply, is its view in Ops.lean. Log entry 5. -/
inductive Node where
  | leaf (sym : Symbol) (freq : Freq)
  | internal (freq : Freq) (left right : NodeIdx)
deriving DecidableEq, Repr

/-- The allocated part of the node store (R26, R50, R61): entry `i` is `NODE[i]`, the length is `NODE_COUNT`. Log entry 4. -/
abbrev NodeStore := List Node

/-- What the host can present to the block (R83): a reset event, or a command word, legal or not. -/
inductive HostEvent where
  | rst
  | cmd (w : CmdWord)
deriving DecidableEq, Repr

/-- The state (R20), and the two port fields of the model. -/
structure State where
  /-- `NODE[0 .. NODE_COUNT-1]`, and by its length `NODE_COUNT` (R21, R26). -/
  nodes : NodeStore
  /-- `PQ`, oldest entry first (R27). -/
  pq : List NodeIdx
  /-- `ROOT` (R22). -/
  root : NodeIdx
  /-- `CUR` (R23). -/
  cur : NodeIdx
  /-- `TV` (R24). -/
  tv : Bool
  /-- `ERR` (R25). -/
  err : Code
  /-- The `rst` and `cmd` ports: the events the host will present, the next one first. The model's own field, log entry 1. -/
  input : List HostEvent
  /-- The `rsp` port: the response of the last transaction, if any since reset. The model's own field, log entry 2. -/
  rsp : Option RspWord
deriving DecidableEq, Repr

/-- Why the model stops. -/
inductive Fault where
  /-- Raised by XMIN, MERGE, BUILD and DBIT, in a state where an entry of `PQ`, `ROOT` or a child link names an entry of the
  node store that is not allocated (R14 and R61 give such a read no meaning). No run reaches one (R33). Safe: log entry 7. -/
  | unallocatedNode
deriving DecidableEq, Repr

/-- Why the model gives an instruction no meaning. -/
inductive Refusal where
  /-- For an arm of exec that has no meaning yet. No arm uses it. Safe. -/
  | notModelled (mnemonic : String)
deriving DecidableEq, Repr

/-- What a step answers. -/
abbrev Result := Host.Outcome State Fault Refusal

/-- The state `S0` (R32, R211), with nothing presented at the ports and no response produced (R210). -/
def State.reset : State where
  nodes := []
  pq := []
  root := 0#9
  cur := 0#9
  tv := false
  err := 0#4
  input := []
  rsp := none

end Sys2Proof.Machine
end

