-- ==== Sys2Proof/Machine/Ops.lean ====
section
/-! DEFINITION. The named operations: node records and the node store, the priority sequence, the field updates, responses,
the error kinds, raising an error, and the two ways back (CLR and reset). -/

namespace Sys2Proof.Machine

/-! ### Node records (spec/10_state.md R26) -/

/-- `.k`: 0 for a leaf, 1 for an internal node. -/
def Node.k : Node → BitVec 1
  | .leaf _ _ => 0#1
  | .internal _ _ _ => 1#1

/-- `.sym`: the Symbol of a leaf, 0 for an internal node. -/
def Node.sym : Node → Symbol
  | .leaf sym _ => sym
  | .internal _ _ _ => 0#8

/-- `.freq`. -/
def Node.freq : Node → Freq
  | .leaf _ freq => freq
  | .internal freq _ _ => freq

/-- `.left`: the left child, 0 for a leaf. -/
def Node.left : Node → NodeIdx
  | .leaf _ _ => 0#9
  | .internal _ left _ => left

/-- `.right`: the right child, 0 for a leaf. -/
def Node.right : Node → NodeIdx
  | .leaf _ _ => 0#9
  | .internal _ _ right => right

/-! ### The node store (spec/00_scope.md R14, spec/20_memory.md R50 to R62) -/

/-- `NODE_COUNT`, 9 bits (R21). -/
def State.nodeCount (s : State) : NodeIdx := BitVec.ofNat 9 s.nodes.length

/-- `NodeRead(i)` on a store: nothing when `i` is not allocated (R14). -/
def nodeAt (ns : NodeStore) (i : NodeIdx) : Option Node := ns[i.toNat]?

/-- `NodeRead(i)` (R14). -/
def State.nodeRead (s : State) (i : NodeIdx) : Option Node := nodeAt s.nodes i

/-- The store is full: `NODE_COUNT = NODE_CAP` (R103, R104). The length never exceeds `NODE_CAP` in a state the machine reaches
(Memory.wf). -/
def State.storeFull (s : State) : Bool := Config.nodeCap ≤ s.nodes.length

/-- The priority structure is full: `len(PQ) = PQ_CAP` (R104). -/
def State.queueFull (s : State) : Bool := Config.pqCap ≤ s.pq.length

/-- The canonical form of the memory: entry `i` of the list is `NODE[i]`, so equal stores are equal lists; the form asks only
that nothing stands beyond `NODE_CAP` (R21, R50). -/
def Memory.wf (ns : NodeStore) : Bool := ns.length ≤ Config.nodeCap

/-! ### Field updates -/

/-- The store after `NodeAlloc(rec)` (R14); the new node's index is `NODE_COUNT` before. -/
def State.allocNode (s : State) (n : Node) : State := { s with nodes := s.nodes ++ [n] }

/-- `PQ <- q`. -/
def State.withPq (s : State) (q : List NodeIdx) : State := { s with pq := q }

/-- `pq_insert(n)` (R101). -/
def State.pqInsert (s : State) (n : NodeIdx) : State := s.withPq (s.pq ++ [n])

/-- `CUR <- n`. -/
def State.withCur (s : State) (n : NodeIdx) : State := { s with cur := n }

/-- `ROOT <- n; CUR <- n; TV <- 1` (R108). -/
def State.formTree (s : State) (n : NodeIdx) : State := { s with root := n, cur := n, tv := true }

/-- `ERR <- c`. -/
def State.withErr (s : State) (c : Code) : State := { s with err := c }

/-- The response port takes a response word. -/
def State.withRsp (s : State) (r : Option RspWord) : State := { s with rsp := r }

/-- The events still to come. -/
def State.withInput (s : State) (es : List HostEvent) : State := { s with input := es }

/-- `NODE_COUNT <- 0; PQ <- []; TV <- 0; ROOT <- 0; CUR <- 0; ERR <- 0` (R150): the state elements of `S0` (R32). The ports are
left to the caller. It is also the only exit from a fault (R193). -/
def State.clearBlock (s : State) : State :=
  { s with nodes := [], pq := [], tv := false, root := 0#9, cur := 0#9, err := 0#4 }

/-! ### The priority sequence (spec/00_scope.md R13, spec/40_priority_queue_engine.md R101, R102, R113) -/

/-- The keys of the entries, `key(n) = NODE[n].freq` (R13); nothing when an entry is not allocated. -/
def pqKeys (ns : NodeStore) : List NodeIdx → Option (List Freq)
  | [] => some []
  | n :: q =>
    match nodeAt ns n, pqKeys ns q with
    | some rec, some ks => some (rec.freq :: ks)
    | _, _ => none

/-- `minpos` with the key found there (R13): the smallest position of a minimum key, so that among equal minima the entry
inserted earliest is taken (R113). -/
def minPos : List Freq → Option (Nat × Freq)
  | [] => none
  | k :: ks =>
    match minPos ks with
    | none => some (0, k)
    | some (j, m) => if k ≤ m then some (0, k) else some (j + 1, m)

/-- What an extraction gives: the node, its key, and the entries that remain. -/
structure Extracted where
  node : NodeIdx
  freq : Freq
  rest : List NodeIdx
deriving DecidableEq, Repr

/-- `pq_extract_min()` (R102) on a queue. Nothing when the queue is empty (the callers check first) or an entry is not
allocated. -/
def extractMin (ns : NodeStore) (q : List NodeIdx) : Option Extracted :=
  match pqKeys ns q with
  | none => none
  | some ks =>
    match minPos ks with
    | none => none
    | some (j, m) =>
      match q[j]? with
      | none => none
      | some n => some { node := n, freq := m, rest := q.eraseIdx j }

/-! ### Responses (spec/30_encoding.md R77, spec/00_scope.md R15) -/

/-- `{code, data}` (R77). -/
def rspWord (code : Code) (data : Data) : RspWord := code ++ data

/-- `respond(code, data)` (R15). -/
def respond (s : State) (code : Code) (data : Data) : Result := .next (s.withRsp (some (rspWord code data)))

/-- `respond(OK, data)`. -/
def respondOk (s : State) (data : Data) : Result := respond s 0#4 data

/-! ### Errors (spec/60_exceptions.md R180 to R195) -/

/-- The error kinds of R181. -/
inductive ErrKind where
  | emptyStructure
  /-- Belongs to the host's encoder; no command raises it (R197). -/
  | unknownSymbol
  | truncatedStream
  | invalidBit
  | nullTree
  | illegalCommand
  | capacity
  | freqOverflow
  | sequence
deriving DecidableEq, Repr

/-- The code of a kind (R181). -/
def ErrKind.code : ErrKind → Code
  | .emptyStructure => 1#4
  | .unknownSymbol => 2#4
  | .truncatedStream => 3#4
  | .invalidBit => 4#4
  | .nullTree => 5#4
  | .illegalCommand => 8#4
  | .capacity => 9#4
  | .freqOverflow => 10#4
  | .sequence => 11#4

/-- Fault entry, `raise <Kind>` (R15, R190): `ERR` takes the code when it holds none, the code is answered with data 0, and
nothing else changes. -/
def raiseError (s : State) (e : ErrKind) : Result :=
  respond (if s.err = 0#4 then s.withErr e.code else s) e.code 0#64

/-- The fault gate (R78 step 2, R192): a faulted block answers the recorded code and changes nothing; otherwise go on. -/
def faultGate (s : State) (goOn : Result) : Result :=
  if s.err = 0#4 then goOn else respond s s.err 0#64

/-- Fault exit by command, and CLR's whole effect (R150, R193). -/
def clearAndRespond (s : State) : Result := respondOk s.clearBlock 0#64

/-- The reset event (R210): the state becomes `S0`, and there is no response. What the host presents next is the host's. -/
def resetBlock (s : State) : State := s.clearBlock.withRsp none

end Sys2Proof.Machine
end

