-- ==== Sys2Proof/Machine/Operands.lean ====
section
/-! DEFINITION. The operand of DBIT read as a bit, and the `data` layouts of the responses (spec/30_encoding.md R79). -/

namespace Sys2Proof.Machine

/-- A stream element as a bit (R131): the number 0 is the bit "0", 1 the bit "1", the 254 others are invalid. -/
def streamBit (v : StreamElem) : Option Bool :=
  if v = 0#8 then some false else if v = 1#8 then some true else none

/-- The child of a node on the side a bit selects (R131): left on 0, right on 1. -/
def Node.child (n : Node) (b : Bool) : NodeIdx := if b then n.right else n.left

/-- LEAF: `idx` in 8:0. -/
def leafData (n : NodeIdx) : Data := n.setWidth 64

/-- XMIN and MERGE: `freq` in 63:32, `idx` in 8:0. -/
def freqIdxData (freq : Freq) (n : NodeIdx) : Data := freq ++ n.setWidth 32

/-- SIZE: `len(PQ)` in 8:0, 0 to 256 (R106). -/
def sizeData (s : State) : Data := BitVec.ofNat 64 s.pq.length

/-- BUILD with a tree: `freq` in 63:32, `tv` in 16, `root` in 8:0 (R108). -/
def buildData (freq : Freq) (root : NodeIdx) : Data := freq ++ 0#15 ++ 1#1 ++ 0#7 ++ root

/-- DBIT when a symbol is emitted: `sym` in 15:8, `E` in 0 (R131). -/
def emitData (sym : Symbol) : Data := 0#48 ++ sym ++ 0#7 ++ 1#1

/-- NODE of an allocated node: `freq` 63:32, `right` 29:21, `left` 20:12, `sym` 11:4, `K` 1, `A` 0 (R152). -/
def nodeData (n : Node) : Data := n.freq ++ 0#2 ++ n.right ++ n.left ++ n.sym ++ 0#2 ++ n.k ++ 1#1

end Sys2Proof.Machine
end

