-- ==== Sys2Proof/Machine/PriorityQueue.lean ====
section
/-! DEFINITION. The priority-queue min-extract-insert engine (spec/40_priority_queue_engine.md): LEAF, XMIN, SIZE, MERGE, BUILD. -/

namespace Sys2Proof.Machine

/-- What one merge step answers. -/
inductive MergeResult where
  /-- The new node, its frequency, and the state after the step. -/
  | merged (n : NodeIdx) (freq : Freq) (s : State)
  /-- The step fails with an error kind and has changed nothing. -/
  | failed (e : ErrKind)
  /-- An entry of `PQ` names an unallocated node (log entry 7). -/
  | stuck
deriving DecidableEq, Repr

/-- The end of a merge step, once A and B are known and `rest` is what remains in `PQ` (R103 steps 3 to 5): the sum is exact,
and nothing is removed or allocated when the step fails. -/
def mergeNodes (s : State) (a b : Extracted) : MergeResult :=
  if Config.freqMax < a.freq.toNat + b.freq.toNat then .failed .freqOverflow
  else if s.storeFull then .failed .capacity
  else
    .merged s.nodeCount (a.freq + b.freq)
      ((s.withPq (b.rest ++ [s.nodeCount])).allocNode (.internal (a.freq + b.freq) a.node b.node))

/-- `merge_step()` (R103): extract A, then B from what is left, and insert their parent. -/
def mergeStep (s : State) : MergeResult :=
  if s.pq.length < 2 then .failed .emptyStructure
  else
    match extractMin s.nodes s.pq with
    | none => .stuck
    | some a =>
      match extractMin s.nodes a.rest with
      | none => .stuck
      | some b => mergeNodes s a b

/-- What the loop of BUILD answers. -/
inductive BuildResult where
  /-- At most one entry remains. -/
  | finished (s : State)
  /-- A pass failed; the state is that after the passes already completed (R115). -/
  | failed (e : ErrKind) (s : State)
  /-- As in MergeResult. -/
  | stuck
deriving DecidableEq, Repr

/-- `while len(PQ) > 1: merge_step()` (R108). Each pass takes one entry off `PQ`, so as many passes as there are entries are
always enough (R115). -/
def buildLoop : Nat → State → BuildResult
  | 0, s => .finished s
  | fuel + 1, s =>
    if s.pq.length ≤ 1 then .finished s
    else
      match mergeStep s with
      | .merged _ _ t => buildLoop fuel t
      | .failed e => .failed e s
      | .stuck => .stuck

/-- The end of BUILD (R108 to R110): one entry left forms the tree, none leaves the block as it is. -/
def finishBuild (s : State) : Result :=
  match s.pq with
  | [] => respondOk s 0#64
  | n :: _ =>
    match s.nodeRead n with
    | none => .fault .unallocatedNode
    | some rec => respondOk (s.formTree n) (buildData rec.freq n)

/-- LEAF `sym, freq` (R104). -/
def execLeaf (sym : Symbol) (freq : Freq) (s : State) : Result :=
  faultGate s <|
    if s.tv then raiseError s .sequence
    else if s.storeFull || s.queueFull then raiseError s .capacity
    else respondOk ((s.allocNode (.leaf sym freq)).pqInsert s.nodeCount) (leafData s.nodeCount)

/-- XMIN (R105). -/
def execXmin (s : State) : Result :=
  faultGate s <|
    if s.tv then raiseError s .sequence
    else if s.pq.isEmpty then raiseError s .emptyStructure
    else
      match extractMin s.nodes s.pq with
      | none => .fault .unallocatedNode
      | some x => respondOk (s.withPq x.rest) (freqIdxData x.freq x.node)

/-- SIZE (R106). -/
def execSize (s : State) : Result :=
  faultGate s <| respondOk s (sizeData s)

/-- MERGE (R107). -/
def execMerge (s : State) : Result :=
  faultGate s <|
    if s.tv then raiseError s .sequence
    else
      match mergeStep s with
      | .merged n freq t => respondOk t (freqIdxData freq n)
      | .failed e => raiseError s e
      | .stuck => .fault .unallocatedNode

/-- BUILD (R108, R115). -/
def execBuild (s : State) : Result :=
  faultGate s <|
    if s.tv then raiseError s .sequence
    else
      match buildLoop s.pq.length s with
      | .finished t => finishBuild t
      | .failed e t => raiseError t e
      | .stuck => .fault .unallocatedNode

end Sys2Proof.Machine
end

