-- ==== Sys2Proof/Machine/Flags.lean ====
section
/-! DEFINITION. The derived flag `AR` and the status word (spec/10_state.md R29, R30). No command sets a condition code. -/

namespace Sys2Proof.Machine

/-- `AR`: a tree exists and the decoder is at its root (R29). -/
def State.atRoot (s : State) : Bool := s.tv && s.cur == s.root

/-- The status word `STATW` (R30, R151): `CUR` 55:44, `ROOT` 43:32, `NODE_COUNT` 31:20, `PQ_SIZE` 19:8, `AR` 5, `TV` 4, `ERR` 3:0. -/
def statusWord (s : State) : Data :=
  0#8 ++ s.cur.setWidth 12 ++ s.root.setWidth 12 ++ s.nodeCount.setWidth 12 ++ BitVec.ofNat 12 s.pq.length ++ 0#2
    ++ BitVec.ofBool s.atRoot ++ BitVec.ofBool s.tv ++ s.err

end Sys2Proof.Machine
end

