-- ==== Sys2Proof/Machine/System.lean ====
section
/-! DEFINITION. The system commands (spec/42_system_commands.md): CLR, STAT, NODE. -/

namespace Sys2Proof.Machine

/-- CLR (R150): served also when the block is faulted (R78 step 1). -/
def execClr (s : State) : Result := clearAndRespond s

/-- STAT (R151): served also when the block is faulted (R78 step 1). -/
def execStat (s : State) : Result := respondOk s (statusWord s)

/-- NODE `idx` (R152): an unallocated index is answered with 0, not faulted. -/
def execNode (idx : NodeIdx) (s : State) : Result :=
  faultGate s <|
    match s.nodeRead idx with
    | some n => respondOk s (nodeData n)
    | none => respondOk s 0#64

end Sys2Proof.Machine
end

