-- ==== Sys2Proof/Machine/TreeWalk.lean ====
section
/-! DEFINITION. The Huffman decoder tree-walk FSM (spec/41_decoder_fsm.md): DBIT, DEND. -/

namespace Sys2Proof.Machine

/-- Arrival at the node `c` (R131): at a leaf, emit its symbol and go back to the root; at an internal node, stay there. -/
def arriveAt (s : State) (c : NodeIdx) : Result :=
  match s.nodeRead c with
  | none => .fault .unallocatedNode
  | some (.leaf sym _) => respondOk (s.withCur s.root) (emitData sym)
  | some (.internal _ _ _) => respondOk (s.withCur c) 0#64

/-- One transition of the walk on a valid bit (R131), the root's node being known: on a degenerate tree every bit emits the
root's symbol and `CUR` is left (R132, log entry 12). -/
def walkBit (s : State) (root : Node) (b : Bool) : Result :=
  match root with
  | .leaf sym _ => respondOk s (emitData sym)
  | .internal _ _ _ =>
    match s.nodeRead s.cur with
    | none => .fault .unallocatedNode
    | some n => arriveAt s (n.child b)

/-- DBIT `v` (R131, R135): the tree is examined before the element. -/
def execDbit (v : StreamElem) (s : State) : Result :=
  faultGate s <|
    if !s.tv then raiseError s .nullTree
    else
      match streamBit v with
      | none => raiseError s .invalidBit
      | some b =>
        match s.nodeRead s.root with
        | none => .fault .unallocatedNode
        | some root => walkBit s root b

/-- DEND (R133). -/
def execDend (s : State) : Result :=
  faultGate s <|
    if s.tv && !s.atRoot then raiseError s .truncatedStream
    else respondOk s 0#64

end Sys2Proof.Machine
end

