-- ==== Sys2Proof/Machine/Dispatch.lean ====
section
/-! DEFINITION. One arm per command, each one call of its meaning. -/

namespace Sys2Proof.Machine

def exec (i : Instr) (s : State) : Host.Outcome State Fault Refusal :=
  match i with
  | .clr => Sys2Proof.Machine.execClr s
  | .leaf sym freq => Sys2Proof.Machine.execLeaf sym freq s
  | .xmin => Sys2Proof.Machine.execXmin s
  | .size => Sys2Proof.Machine.execSize s
  | .merge => Sys2Proof.Machine.execMerge s
  | .build => Sys2Proof.Machine.execBuild s
  | .dbit v => Sys2Proof.Machine.execDbit v s
  | .dend => Sys2Proof.Machine.execDend s
  | .stat => Sys2Proof.Machine.execStat s
  | .node idx => Sys2Proof.Machine.execNode idx s

end Sys2Proof.Machine
end

