-- ==== Sys2Proof/Machine/FrontEnd.lean ====
section
/-! DEFINITION. The common front end (spec/30_encoding.md R78) and the taking of one host event (R83). -/

namespace Sys2Proof.Machine

/-- A word that is no command (R78 steps 2 and 3): a faulted block answers its recorded code, another raises
IllegalCommandError. -/
def illegalWord (s : State) : Result := faultGate s (raiseError s .illegalCommand)

/-- The front end (R78). Each command but CLR and STAT begins with the fault gate, so step 2 stands in its meaning, and in
illegalWord for a word that is none (log entry 8). -/
def frontEnd (w : CmdWord) (s : State) : Result :=
  match decode w with
  | .ok i => exec i s
  | .error _ => illegalWord s

/-- The next event of the host: a transaction (R83) or a reset (R210). When the host presents nothing the block holds its
state (R199; log entry 3). -/
def nextEvent (s : State) : Result :=
  match s.input with
  | [] => .next s
  | .rst :: es => .next (resetBlock (s.withInput es))
  | .cmd w :: es => frontEnd w (s.withInput es)

/-- The word a table row stands for, as the host would present it: its bits above `nbits` are 0 (log entry 11). -/
def tableWord (nbits w : Nat) : CmdWord := BitVec.ofNat 48 (w % 2 ^ nbits)

/-- The host presents the word next. -/
def presentWord (s : State) (w : CmdWord) : State := s.withInput (.cmd w :: s.input)

end Sys2Proof.Machine
end

