-- ==== Sys2Proof/Machine/Step.lean ====
section
/-! DEFINITION. One step: the block takes the host's next event. -/

namespace Sys2Proof.Machine

/-- One step is one transaction or one reset (R57, R83, R210). -/
def step (s : State) : Host.Outcome State Fault Refusal := nextEvent s

/-- The block fetches no program (R28, R59): its next command is the word the host presents next, so the word is put in front of
the host's events (log entry 10). -/
def State.withFetchWord (s : State) (nbits w : Nat) : State := presentWord s (tableWord nbits w)

end Sys2Proof.Machine
end

