-- ==== Sys2Proof/Machine/Collaborators.lean ====
section
/-! DEFINITION. Beside the machine: a run (spec/70_reset_and_hazards.md R221), and the host's functions as pure functions
(spec/43_host_collaborators.md R160 to R168, R177). Nothing in the machine's step depends on them (log entry 14). -/

namespace Sys2Proof.Machine

/-! ### Runs and responses -/

/-- `rsp[67:64]` (R77). -/
def rspCode (r : RspWord) : Code := r.extractLsb' 64 4

/-- `rsp[63:0]` (R77). -/
def rspData (r : RspWord) : Data := r.extractLsb' 0 64

/-- The symbol a DBIT response with `E = 1` carries (R79, R167). -/
def emittedSymbol (r : RspWord) : Option Symbol :=
  if (rspData r).getLsbD 0 then some ((rspData r).extractLsb' 8 8) else none

/-- A run (R221), which starts from `S0`, here from any state: the words applied in order, the responses in order and the
final state. Nothing if the model stops or a transaction gives no response (neither happens in a state that meets the
invariant). -/
def run : List CmdWord → State → Option (List RspWord × State)
  | [], s => some ([], s)
  | w :: ws, s =>
    match frontEnd w s with
    | .next t =>
      match t.rsp, run ws t with
      | some r, some (rs, u) => some (r :: rs, u)
      | _, _ => none
    | _ => none

/-- A run of commands, each sent as its word. -/
def runCommands (is : List Instr) (s : State) : Option (List RspWord × State) := run (is.map encode) s

/-- A run ends well (R221). -/
def State.endsWell (s : State) : Bool := s.err == 0#4

/-! ### Frequency counter and leaf loading (R161, R162, R177) -/

/-- A table with `n` more counted for `s`. -/
def addCount : List (Symbol × Nat) → Symbol → Nat → List (Symbol × Nat)
  | [], s, n => [(s, n)]
  | (t, m) :: r, s, n => if t = s then (t, m + n) :: r else (t, m) :: addCount r s n

/-- The frequency counter (R161): one pass, one counter per symbol. The order of the pairs is that of first appearance. -/
def freqTable (msg : List Symbol) : List (Symbol × Nat) := msg.foldl (fun t s => addCount t s 1) []

/-- The count of a symbol in a table, 0 when it has none. -/
def tableCount (t : List (Symbol × Nat)) (s : Symbol) : Nat := (t.lookup s).getD 0

/-- Two partial tables merged by summing counts per symbol (R177). -/
def mergeTables (a b : List (Symbol × Nat)) : List (Symbol × Nat) := b.foldl (fun t p => addCount t p.1 p.2) a

/-- The `freq` operand the host sends for a count (R162). A count above `FREQ_MAX`, which the host must not have (R161, R218),
has no operand, and the spec does not say what word is sent: a free value (log entry 16). -/
def leafFreq (count : Nat) : Freq :=
  if count ≤ Config.freqMax then BitVec.ofNat 32 count else Config.oversizedCount count

/-- One LEAF per symbol of the table, in the order the host chose for it (R162). What is sent for a count that does not fit is
left open (log entry 16). -/
def leafCommands (table : List (Symbol × Nat)) : List Instr := table.map fun p => .leaf p.1 (leafFreq p.2)

/-- What the host sends to have a tree (R214 steps 1 to 3): CLR, the LEAFs, BUILD. -/
def bootCommands (table : List (Symbol × Nat)) : List Instr := .clr :: leafCommands table ++ [.build]

/-! ### Code generator and encoder (R163 to R166) -/

/-- `codes(n, p)` (R163): the symbols under a node with the path to each, left before right. The fuel bounds the depth; a
node's children have smaller indices (R34), so the node's index plus one is always enough. -/
def codesFrom (ns : NodeStore) : Nat → NodeIdx → List Bool → List (Symbol × List Bool)
  | 0, _, _ => []
  | fuel + 1, n, p =>
    match nodeAt ns n with
    | none => []
    | some (.leaf sym _) => [(sym, p)]
    | some (.internal _ l r) => codesFrom ns fuel l (p ++ [false]) ++ codesFrom ns fuel r (p ++ [true])

/-- The code table (R163): empty without a tree, and the single-bit code "0" for a one-symbol tree (R164). -/
def codeTable (s : State) : List (Symbol × List Bool) :=
  if s.tv then
    match s.nodeRead s.root with
    | none => []
    | some (.leaf sym _) => [(sym, [false])]
    | some (.internal _ _ _) => codesFrom s.nodes (s.root.toNat + 1) s.root []
  else []

/-- The encoder (R165): the codes of the symbols, in order; a symbol without a code is UnknownSymbolError (R166). When the host
broke its duty and a symbol has two codes, the first is used (log entry 14). -/
def encodeMsg (table : List (Symbol × List Bool)) : List Symbol → Except ErrKind (List Bool)
  | [] => .ok []
  | s :: msg =>
    match table.lookup s, encodeMsg table msg with
    | some code, .ok bits => .ok (code ++ bits)
    | none, _ => .error .unknownSymbol
    | _, .error e => .error e

/-! ### Driving the decoder (R138, R167) -/

/-- A bit as a stream element (R167). -/
def bitElem (b : Bool) : StreamElem := if b then 1#8 else 0#8

/-- The result of a decode (R138). -/
inductive DecodeResult where
  | ok (out : List Symbol)
  | fail (code : Code)
deriving DecidableEq, Repr

/-- The first code among some responses that is not OK. -/
def firstError (rs : List RspWord) : Option Code := (rs.map rspCode).find? (· != 0#4)

/-- A decode within a run (R221): the responses to its DBITs, in order, and to the DEND that ends it. -/
structure DecodeSegment where
  dbits : List RspWord
  dend : RspWord
deriving DecidableEq, Repr

/-- The result of a decode: the first code that is not OK among its DBITs and its DEND, or the symbols its DBITs emitted (R138,
R167, R221). -/
def DecodeSegment.result (d : DecodeSegment) : DecodeResult :=
  match firstError (d.dbits ++ [d.dend]) with
  | some c => .fail c
  | none => .ok (d.dbits.filterMap emittedSymbol)

/-- `decode(bs)` (R138): one DBIT per element, then DEND. -/
def decodeStream (s : State) (bs : List StreamElem) : Option DecodeResult :=
  match runCommands (bs.map .dbit ++ [.dend]) s with
  | none => none
  | some (rs, _) => rs.getLast?.map fun dend => DecodeSegment.result { dbits := rs.dropLast, dend := dend }

/-- The decodes among the words of a run and their responses (R221): each is the segment from a BUILD answering OK, or from the
previous DEND, to the next DEND. `seg` holds the responses of the DBITs of the segment that is open, if one is. Only DBIT and
DEND count; a CLR abandons the decode it falls into (R150; log entry 17). -/
def segmentsFrom : Option (List RspWord) → List (CmdWord × RspWord) → List DecodeSegment
  | _, [] => []
  | seg, (w, r) :: xs =>
    match decode w with
    | .ok .build => segmentsFrom (if rspCode r = 0#4 then some [] else seg) xs
    | .ok (.dbit _) => segmentsFrom (seg.map (· ++ [r])) xs
    | .ok .dend => (seg.map fun rs => { dbits := rs, dend := r }).toList ++ segmentsFrom (some []) xs
    | .ok .clr => segmentsFrom none xs
    | .ok (.leaf _ _) | .ok .xmin | .ok .size | .ok .merge | .ok .stat | .ok (.node _) | .error _ => segmentsFrom seg xs

/-- The decodes of the run of some words from `S0` (R221). -/
def decodesOfRun (ws : List CmdWord) : Option (List DecodeSegment) :=
  (run ws State.reset).map fun x => segmentsFrom none (ws.zip x.1)

/-! ### Reading the tree back (R160, R163, R164) -/

/-- The node a NODE response shows, nothing when `A = 0` (R79, R152). -/
def parseNode (d : Data) : Option Node :=
  if d.getLsbD 0 then
    if d.getLsbD 1 then some (.internal (d.extractLsb' 32 32) (d.extractLsb' 12 9) (d.extractLsb' 21 9))
    else some (.leaf (d.extractLsb' 4 8) (d.extractLsb' 32 32))
  else none

/-- The `root` field of BUILD's response, nothing when its `tv` is 0 (R79, R108, R110). -/
def builtRoot (r : RspWord) : Option NodeIdx := if (rspData r).getLsbD 16 then some ((rspData r).extractLsb' 0 9) else none

/-- One NODE command: the node shown, and the state after it (R152). Nothing when the response is not OK or shows no node. -/
def readNode (idx : NodeIdx) (s : State) : Option (Node × State) :=
  match runCommands [.node idx] s with
  | some ([r], t) => if rspCode r = 0#4 then (parseNode (rspData r)).map fun n => (n, t) else none
  | _ => none

/-- `codes(n, p)` obtained with NODE commands (R163): the nodes are read depth first, left before right. The fuel is as in
codesFrom. -/
def readCodes : Nat → NodeIdx → List Bool → State → Option (List (Symbol × List Bool) × State)
  | 0, _, _, _ => none
  | fuel + 1, n, p, s =>
    match readNode n s with
    | none => none
    | some (.leaf sym _, t) => some ([(sym, p)], t)
    | some (.internal _ l r, t) =>
      match readCodes fuel l (p ++ [false]) t with
      | none => none
      | some (left, u) => (readCodes fuel r (p ++ [true]) u).map fun x => (left ++ x.1, x.2)

/-- The single-symbol convention (R164): the only symbol, whose path is empty, has the code "0". -/
def singleSymbolCode : List (Symbol × List Bool) → List (Symbol × List Bool)
  | [(sym, [])] => [(sym, [false])]
  | table => table

/-- The code generator as the host runs it (R160, R163): from BUILD's response, reading the tree back with NODE commands. An OK
response without a tree gives the empty table; one that is not OK gives none. -/
def readCodeTable (build : RspWord) (s : State) : Option (List (Symbol × List Bool) × State) :=
  if rspCode build = 0#4 then
    match builtRoot build with
    | none => some ([], s)
    | some root => (readCodes (root.toNat + 1) root [] s).map fun x => (singleSymbolCode x.1, x.2)
  else none

/-! ### The report and the whole pipeline (R160, R168) -/

/-- The bits of a stream as the characters of the report (R168). -/
def bitString (bits : List Bool) : List Char := bits.map fun b => if b then '1' else '0'

/-- The report's triples of symbol, frequency and code (R168). -/
def reportRows (table : List (Symbol × Nat)) (codes : List (Symbol × List Bool)) : List (Symbol × Nat × List Char) :=
  table.map fun p => (p.1, p.2, bitString ((codes.lookup p.1).getD []))

/-- How the pipeline ends: with the three artifacts of the report, or at a stage that failed (R168). -/
inductive PipelineEnd where
  | report (rows : List (Symbol × Nat × List Char)) (stream : List Char) (decoded : List Symbol)
  | buildFailed (code : Code)
  | encodeFailed (e : ErrKind)
  | decodeFailed (code : Code)
deriving DecidableEq, Repr

/-- The pipeline after BUILD (R160): code generator, encoder, decoder. -/
def pipelineAfterBuild (table : List (Symbol × Nat)) (msg : List Symbol) (build : RspWord) (s : State) : Option PipelineEnd :=
  match readCodeTable build s with
  | none => none
  | some (codes, t) =>
    match encodeMsg codes msg with
    | .error e => some (.encodeFailed e)
    | .ok bits =>
      (decodeStream t (bits.map bitElem)).map fun
        | .ok out => .report (reportRows table codes) (bitString bits) out
        | .fail c => .decodeFailed c

/-- The pipeline (R160, R214) for a message and its frequency table, in the order the host chose, from any state of the block:
CLR, the LEAFs and BUILD, each checked, then what follows BUILD. -/
def pipeline (table : List (Symbol × Nat)) (msg : List Symbol) (s : State) : Option PipelineEnd :=
  match runCommands (bootCommands table) s with
  | none => none
  | some (rs, t) =>
    match firstError rs with
    | some c => some (.buildFailed c)
    | none => rs.getLast?.bind fun build => pipelineAfterBuild table msg build t

end Sys2Proof.Machine
end

