-- ==== Sys2Proof/Safety.lean ====
section
/-! DEFINITION. The invariant of the machine (spec/10_state.md R33 to R37) and the words the claims are stated in. -/

namespace Sys2Proof.Safety

open Sys2Proof.Machine

/-- The key of an entry, `NODE[n].freq` (R13, R27). -/
def key (ns : NodeStore) (n : NodeIdx) : Option Freq := (nodeAt ns n).map Node.freq

/-- `n`, of key `k`, is the entry of the queue that an extraction takes (R13, R102, R113): every entry before it has a greater
key, and no entry after it has a smaller one. -/
def EarliestMin (ns : NodeStore) (q before : List NodeIdx) (n : NodeIdx) (k : Freq) (after : List NodeIdx) : Prop :=
  q = before ++ n :: after ∧ key ns n = some k ∧ (∀ x ∈ before, ∃ kx, key ns x = some kx ∧ k.toNat < kx.toNat) ∧
    ∀ y ∈ after, ∃ ky, key ns y = some ky ∧ k.toNat ≤ ky.toNat

/-- The children of a node. -/
def children : Node → List NodeIdx
  | .leaf _ _ => []
  | .internal _ left right => [left, right]

/-- Every child link of the store. -/
def childLinks (ns : NodeStore) : List NodeIdx := ns.flatMap children

/-- Where a path of bits leads from a node, 0 to the left and 1 to the right, through internal nodes only. -/
def walkPath (ns : NodeStore) : NodeIdx → List Bool → Option NodeIdx
  | n, [] => some n
  | n, b :: p =>
    match nodeAt ns n with
    | some (.internal _ left right) => walkPath ns (if b then right else left) p
    | _ => none

/-- The path leads from `n` to a leaf with this symbol. -/
def LeadsToLeaf (ns : NodeStore) (n : NodeIdx) (p : List Bool) (sym : Symbol) : Prop :=
  ∃ c freq, walkPath ns n p = some c ∧ nodeAt ns c = some (.leaf sym freq)

/-- The leaves under a node, left to right; the fuel bounds the depth. -/
def leavesUnder (ns : NodeStore) : Nat → NodeIdx → List (Symbol × Freq)
  | 0, _ => []
  | fuel + 1, n =>
    match nodeAt ns n with
    | none => []
    | some (.leaf sym freq) => [(sym, freq)]
    | some (.internal _ l r) => leavesUnder ns fuel l ++ leavesUnder ns fuel r

/-- The leaves under a node; a node's children have smaller indices (R34), so this fuel is enough. -/
def leavesOf (ns : NodeStore) (n : NodeIdx) : List (Symbol × Freq) := leavesUnder ns (n.toNat + 1) n

/-- The sum of the frequencies of some leaves, as a natural number. -/
def freqSum (ls : List (Symbol × Freq)) : Nat := (ls.map fun l => l.2.toNat).sum

/-- The sum of the keys of the queue, as a natural number. -/
def queueSum (s : State) : Nat := (s.pq.map fun n => ((key s.nodes n).map BitVec.toNat).getD 0).sum

/-- Every entry of the queue is allocated. -/
def QueueAllocated (s : State) : Prop := ∀ n ∈ s.pq, n.toNat < s.nodes.length

/-- The invariant of the node store: bounds (R33), children allocated before their parent (R34), exact sums (R37). -/
structure StoreInv (ns : NodeStore) : Prop where
  bound : Memory.wf ns = true
  childBefore : ∀ (p : Nat) (n : Node), ns[p]? = some n → ∀ c ∈ children n, c.toNat < p
  exactSum : ∀ (p : Nat) (f : Freq) (l r : NodeIdx), ns[p]? = some (.internal f l r) →
    ∃ a b, key ns l = some a ∧ key ns r = some b ∧ f.toNat = a.toNat + b.toNat

/-- The invariant of the machine (R22 to R25, R27, R33 to R37). -/
structure Inv (s : State) : Prop where
  store : StoreInv s.nodes
  /-- R27, R33. -/
  queueBound : s.pq.length ≤ Config.pqCap
  /-- R33. -/
  queueAllocated : QueueAllocated s
  /-- Insertion order is index order (R113). -/
  queueAscending : s.pq.Pairwise fun a b => a.toNat < b.toNat
  /-- Single ownership (R35): no node is twice an entry of the queue or a child. -/
  ownedOnce : (s.pq ++ childLinks s.nodes).Nodup
  /-- The legal values of ERR (R25). -/
  errLegal : s.err ∈ [0#4, 1#4, 3#4, 4#4, 5#4, 8#4, 9#4, 10#4, 11#4]
  /-- Without a tree, ROOT and CUR hold 0 (R22, R23). -/
  noTree : s.tv = false → s.root = 0#9 ∧ s.cur = 0#9
  /-- The frozen form (R36): the root alone is queued, and CUR is the root or an internal node below it. -/
  frozen : s.tv = true → s.pq = [s.root] ∧ (s.cur = s.root ∨ ∃ path f l r,
    walkPath s.nodes s.root path = some s.cur ∧ nodeAt s.nodes s.cur = some (.internal f l r))

/-- `k` merge steps, each of which completes, lead from one state to the other (R108, R115). -/
inductive Passes : Nat → State → State → Prop where
  | none (s : State) : Passes 0 s s
  | more {k : Nat} {s t u : State} {n : NodeIdx} {freq : Freq} (first : mergeStep s = .merged n freq t)
      (others : Passes k t u) : Passes (k + 1) s u

/-- The keys of the two nodes a merge step would extract (R103): the earliest minimum, then that of what is left. -/
def NextMergeKeys (s : State) (ka kb : Freq) : Prop :=
  ∃ before a after before' b after', EarliestMin s.nodes s.pq before a ka after ∧
    EarliestMin s.nodes (before ++ after) before' b kb after'

/-- The sum of a merge step is too large (R188). -/
def SumTooLarge (s : State) : Prop := ∃ ka kb, NextMergeKeys s ka kb ∧ 4294967295 < ka.toNat + kb.toNat

/-- The sum of a merge step fits, and the store is full (R187). -/
def NoRoomToMerge (s : State) : Prop :=
  ∃ ka kb, NextMergeKeys s ka kb ∧ ka.toNat + kb.toNat ≤ 4294967295 ∧ 511 ≤ s.nodes.length

/-- `P` holds before one of the passes of BUILD, those before it being completed (R108, R115). -/
def AtSomePass (P : State → Prop) (s : State) : Prop := ∃ k u, Passes k s u ∧ P u

/-- The element a DBIT brings (R131). -/
def streamElem : Instr → Option StreamElem
  | .dbit v => some v
  | .clr | .leaf _ _ | .xmin | .size | .merge | .build | .dend | .stat | .node _ => none

/-- The state elements of `S0` (R32). -/
def IsS0 (s : State) : Prop :=
  s.nodeCount = 0#9 ∧ s.root = 0#9 ∧ s.cur = 0#9 ∧ s.tv = false ∧ s.err = 0#4 ∧ s.pq = [] ∧ ∀ i, s.nodeRead i = none

/-- The response `{OK, data}` with the data given as a number: bit `i` of the number is `data[i]`. -/
def okRsp (data : Nat) : Option RspWord := some (BitVec.ofNat 68 data)

/-- The response `{code, 0}` of an error. -/
def errRsp (code : Code) : Option RspWord := some (BitVec.ofNat 68 (code.toNat * 2 ^ 64))

/-- What raising an error on a block that is not faulted leaves: the code in ERR and in the response (R190). -/
def raised (s : State) (code : Code) : State := { s with err := code, rsp := errRsp code }

end Sys2Proof.Safety
end

