-- ==== Sys2Proof/Certificates/Slice0/Obligations.lean ====
section
/-! DEFINITION. The statements for the provers. Each docstring names the rules of spec/ the statement rests on.

Responses are written as numbers (`Safety.okRsp`): bit `i` of the number is `data[i]`, so every bit of a response that is not
named is 0. A record update names all that changes: every field it does not name is as before. -/

open Sys2Proof Sys2Proof.Machine Sys2Proof.Safety

/-! ### Encoding -/

/-- R70 to R74: the decoder reads from the word of a command that command, with every operand at every value. -/
def Obligations.DecodeInvertsEncode : Prop := ∀ i : Instr, i.wellFormed = true → decode (encode i) = .ok i

/-- R74, R76: a command has one word only; no bit of a legal word is without meaning. -/
def Obligations.EncodeInvertsDecode : Prop := ∀ (w : CmdWord) (i : Instr), decode w = .ok i → encode i = w

/-- R76: a word is read as a command of a row exactly when `(w AND mask) = match`; two different rows never select one word
and differ in `op`; a word no row selects is illegal. -/
def Obligations.DecodeAgreesWithMatchAndMask : Prop :=
  (∀ (w : CmdWord) (r : OpcodeRow), r ∈ opcodeRows →
    (r.selects w = true ↔ ∃ i, decode w = .ok i ∧ mnemonicOf i = r.mnemonic)) ∧
  (opcodeRows.Pairwise fun r r' =>
    r.mnemonic ≠ r'.mnemonic ∧ opField r.matchBits ≠ opField r'.matchBits ∧
      ∀ w, ¬ (r.selects w = true ∧ r'.selects w = true)) ∧
  ∀ w : CmdWord, (∀ r ∈ opcodeRows, r.selects w = false) ↔ ∃ e, decode w = .error e

/-- R74, R75: the words that are commands are those of an assigned opcode whose must-be-zero bits are 0, and there are
7 + 2^40 + 2^8 + 2^9 of them. -/
def Obligations.LegalWordsAreThoseOfR75 : Prop :=
  (∀ w : CmdWord, CmdWord.wellFormed w = true ↔ ∃ i, decode w = .ok i) ∧
  (Set.ncard { w : CmdWord | ∃ i, decode w = .ok i } = 7 + 2 ^ 40 + 2 ^ 8 + 2 ^ 9)

/-- R82: the worked encodings, written out from the spec, decode to the commands they stand for, the illegal ones to none, and
`DBIT 2` raises one of its two errors. -/
def Obligations.WorkedEncodingsDecode : Prop :=
  [0x100000000000#48, 0x206100000005#48, 0x20FFFFFFFFFF#48, 0x300000000000#48, 0x400000000000#48, 0x500000000000#48,
    0x600000000000#48, 0x700000000000#48, 0x700100000000#48, 0x700200000000#48, 0x800000000000#48, 0x900000000000#48,
    0xA00800000000#48, 0xA1FF00000000#48].map decode =
    [.clr, .leaf 0x61#8 5#32, .leaf 0xFF#8 4294967295#32, .xmin, .size, .merge, .build, .dbit 0#8, .dbit 1#8, .dbit 2#8,
      .dend, .stat, .node 8#9, .node 511#9].map .ok ∧
  ([0x000000000000#48, 0xB00000000000#48, 0xF00000000000#48, 0x100000000001#48, 0x216100000001#48, 0x710000000000#48,
    0x700000000001#48, 0xA20000000000#48].all fun w => (decode w).isOk == false) = true ∧
  ∀ s : State, s.err = 0#4 → ∃ c, (c = 4#4 ∨ c = 5#4) ∧ exec (.dbit 2#8) s = .next (raised s c)

/-! ### The step and the front end -/

/-- R57, R78, R83: when the host's next word decodes to a command, a step is that command at that state, the word taken. -/
def Obligations.StepRunsTheDecodedCommand : Prop :=
  ∀ (s : State) (w : CmdWord) (es : List HostEvent) (i : Instr), s.input = .cmd w :: es → decode w = .ok i →
    i.wellFormed = true → step s = exec i { s with input := es }

/-- R78: the four steps of the front end in their order: CLR and STAT are served whatever ERR holds; a faulted block answers
its code; a word no row selects raises IllegalCommandError; any other is executed. -/
def Obligations.FrontEndOrder : Prop :=
  ∀ (s : State) (w : CmdWord) (es : List HostEvent), s.input = .cmd w :: es →
    (w = 0x100000000000#48 → step s = exec .clr { s with input := es }) ∧
    (w = 0x900000000000#48 → step s = exec .stat { s with input := es }) ∧
    (w ≠ 0x100000000000#48 → w ≠ 0x900000000000#48 →
      (s.err ≠ 0#4 → step s = .next { s with input := es, rsp := errRsp s.err }) ∧
      (s.err = 0#4 → (∀ r ∈ opcodeRows, r.selects w = false) →
        step s = .next (raised { s with input := es } 8#4)) ∧
      (s.err = 0#4 → ∀ r ∈ opcodeRows, r.selects w = true →
        ∃ i, mnemonicOf i = r.mnemonic ∧ encode i = w ∧ step s = exec i { s with input := es }))

/-- The model's choice, log entry 3, from R199 "between commands the block simply holds its state": with nothing presented the
state stays. -/
def Obligations.IdleBlockHoldsItsState : Prop := ∀ s : State, s.input = [] → step s = .next s

/-- R32: what a reset event and a CLR leave, and what the machine starts with. -/
def Obligations.ResetAndClrLeaveS0 : Prop :=
  IsS0 State.reset ∧
  (∀ (s : State) (es : List HostEvent), s.input = .rst :: es →
    ∃ t, step s = .next t ∧ IsS0 t ∧ t.rsp = none ∧ t.input = es) ∧
  ∀ s : State, ∃ t, exec .clr s = .next t ∧ IsS0 t

/-- R212: CLR and reset both yield `S0` and leave the same state, but for CLR's response. -/
def Obligations.ClrAndResetAgree : Prop :=
  ∀ (s : State) (es : List HostEvent), s.input = .rst :: es →
    ∃ t, step s = .next t ∧ IsS0 t ∧ t.rsp = none ∧
      exec .clr { s with input := es } = .next { t with rsp := okRsp 0 }

/-- R77: every command word is answered with one response word; its code is OK or the code that ERR then holds; a code other
than OK comes with data 0. -/
def Obligations.ResponseCodeIsOkOrErr : Prop :=
  (∀ (s : State) (w : CmdWord) (es : List HostEvent), Inv s → s.input = .cmd w :: es → ∃ t, step s = .next t) ∧
  ∀ (s t : State) (w : CmdWord) (es : List HostEvent), s.input = .cmd w :: es → step s = .next t →
    ∃ r, t.rsp = some r ∧ (rspCode r ≠ 0#4 → rspCode r = t.err ∧ rspData r = 0#64) ∧
      r = rspCode r ++ rspData r

/-! ### The priority-queue engine -/

/-- R104: LEAF on a block that is not faulted, holds no tree and has room, allocates the leaf, appends it to PQ and answers its
index. -/
def Obligations.LeafAllocatesAndInserts : Prop :=
  ∀ (s : State) (sym : Symbol) (freq : Freq), s.err = 0#4 → s.tv = false → s.nodes.length < 511 → s.pq.length < 256 →
    exec (.leaf sym freq) s = .next { s with
      nodes := s.nodes ++ [.leaf sym freq]
      pq := s.pq ++ [BitVec.ofNat 9 s.nodes.length]
      rsp := okRsp s.nodes.length }

/-- R104, R187, R189, R195: LEAF with a tree raises SequenceError; else with the store or the queue full, CapacityError. -/
def Obligations.LeafErrorsInOrder : Prop :=
  ∀ (s : State) (sym : Symbol) (freq : Freq), s.err = 0#4 →
    (s.tv = true → exec (.leaf sym freq) s = .next (raised s 11#4)) ∧
    (s.tv = false → 511 ≤ s.nodes.length ∨ 256 ≤ s.pq.length → exec (.leaf sym freq) s = .next (raised s 9#4))

/-- R102, R105, R113: XMIN takes out the earliest-inserted entry of minimum frequency, keeps the order of the others, leaves the
store, and answers the frequency in 63:32 and the index in 8:0. -/
def Obligations.XminTakesEarliestMinimum : Prop :=
  ∀ (s : State) (before after : List NodeIdx) (n : NodeIdx) (k : Freq), s.err = 0#4 → s.tv = false →
    EarliestMin s.nodes s.pq before n k after →
    exec .xmin s = .next { s with pq := before ++ after, rsp := okRsp (k.toNat * 2 ^ 32 + n.toNat) }

/-- R102: a queue that is not empty and names allocated nodes has exactly one earliest minimum. -/
def Obligations.EarliestMinimumIsUnique : Prop :=
  ∀ s : State, QueueAllocated s → s.pq ≠ [] →
    ∃! x : List NodeIdx × NodeIdx × Freq × List NodeIdx, EarliestMin s.nodes s.pq x.1 x.2.1 x.2.2.1 x.2.2.2

/-- R105, R182, R189, R195: XMIN with a tree raises SequenceError; else on an empty queue, EmptyStructureError. -/
def Obligations.XminErrorsInOrder : Prop :=
  ∀ s : State, s.err = 0#4 →
    (s.tv = true → exec .xmin s = .next (raised s 11#4)) ∧
    (s.tv = false → s.pq = [] → exec .xmin s = .next (raised s 1#4))

/-- R106: SIZE answers `len(PQ)`, with or without a tree, and changes nothing. The bound is R33's, and the data field holds it. -/
def Obligations.SizeAnswersQueueLength : Prop :=
  ∀ s : State, s.err = 0#4 → s.pq.length ≤ 256 → exec .size s = .next { s with rsp := okRsp s.pq.length }

/-- R103, R107: MERGE makes the parent of the two minima, the first extracted on the left, the second on the right, its frequency
their exact sum; it goes to the end of PQ and its index and frequency are answered. TV is not set. -/
def Obligations.MergeMakesParentOfTwoMinima : Prop :=
  ∀ (s : State) (before after before' after' : List NodeIdx) (a b : NodeIdx) (ka kb : Freq), s.err = 0#4 → s.tv = false →
    EarliestMin s.nodes s.pq before a ka after → EarliestMin s.nodes (before ++ after) before' b kb after' →
    ka.toNat + kb.toNat ≤ 4294967295 → s.nodes.length < 511 →
    exec .merge s = .next { s with
      nodes := s.nodes ++ [.internal (BitVec.ofNat 32 (ka.toNat + kb.toNat)) a b]
      pq := before' ++ after' ++ [BitVec.ofNat 9 s.nodes.length]
      rsp := okRsp ((ka.toNat + kb.toNat) * 2 ^ 32 + s.nodes.length) }

/-- R103, R107, R182, R187 to R189, R195: the errors of MERGE in their order; each changes nothing but ERR and the response. -/
def Obligations.MergeErrorsInOrder : Prop :=
  ∀ s : State, s.err = 0#4 →
    (s.tv = true → exec .merge s = .next (raised s 11#4)) ∧
    (s.tv = false → s.pq.length < 2 → exec .merge s = .next (raised s 1#4)) ∧
    ∀ (before after before' after' : List NodeIdx) (a b : NodeIdx) (ka kb : Freq), s.tv = false →
      EarliestMin s.nodes s.pq before a ka after → EarliestMin s.nodes (before ++ after) before' b kb after' →
      (4294967295 < ka.toNat + kb.toNat → exec .merge s = .next (raised s 10#4)) ∧
      (ka.toNat + kb.toNat ≤ 4294967295 → 511 ≤ s.nodes.length → exec .merge s = .next (raised s 9#4))

/-- R103: of a completed MERGE, `A != B`, `NODE[A].freq <= NODE[B].freq`, one entry fewer and one node more; R114: no entry that
remains has a smaller frequency than either. The premise that PQ holds no index twice is R27's. -/
def Obligations.MergeIsGreedy : Prop :=
  ∀ s t : State, s.err = 0#4 → s.pq.Nodup → exec .merge s = .next t → t.err = 0#4 →
    t.pq.length + 1 = s.pq.length ∧
    ∃ (a b : NodeIdx) (ka kb f : Freq) (rest : List NodeIdx),
      t.nodes = s.nodes ++ [.internal f a b] ∧ t.pq = rest ++ [BitVec.ofNat 9 s.nodes.length] ∧
      a ∈ s.pq ∧ b ∈ s.pq ∧ a ≠ b ∧ rest.Sublist s.pq ∧ (∀ x ∈ s.pq, x = a ∨ x = b ∨ x ∈ rest) ∧
      key s.nodes a = some ka ∧ key s.nodes b = some kb ∧ ka.toNat ≤ kb.toNat ∧
      ∀ x ∈ rest, ∃ kx, key s.nodes x = some kx ∧ kb.toNat ≤ kx.toNat

/-- R109: BUILD on exactly one entry makes it the root, whatever its kind, and allocates nothing; and the rule's example. -/
def Obligations.BuildOnOneEntry : Prop :=
  (∀ (s : State) (n : NodeIdx) (k : Freq), s.err = 0#4 → s.tv = false → s.pq = [n] → key s.nodes n = some k →
    exec .build s = .next { s with
      root := n
      cur := n
      tv := true
      rsp := okRsp (k.toNat * 2 ^ 32 + 2 ^ 16 + n.toNat) }) ∧
  ∃ s, runCommands [.leaf 0x61#8 4#32, .build] State.reset =
      some ([rspWord 0#4 0#64, rspWord 0#4 0x0000000400010000#64], s) ∧
    s.root = 0#9 ∧ s.cur = 0#9 ∧ s.tv = true ∧ s.nodeCount = 1#9 ∧ s.pq = [0#9]

/-- R110: BUILD on an empty queue answers OK with data 0, changes nothing and does not freeze the block, so that a LEAF and a
later BUILD are still accepted; and the rule's example. -/
def Obligations.BuildOnEmptyQueue : Prop :=
  (∀ s : State, s.err = 0#4 → s.tv = false → s.pq = [] → exec .build s = .next { s with rsp := okRsp 0 }) ∧
  (runCommands [.build, .stat] State.reset).map Prod.fst = some [rspWord 0#4 0#64, rspWord 0#4 0#64] ∧
  ∀ (s : State) (sym : Symbol) (freq : Freq), s.err = 0#4 → s.tv = false → s.pq = [] → s.nodes.length < 511 →
    ∃ rs t, runCommands [.build, .leaf sym freq, .build] s = some (rs, t) ∧ (∀ r ∈ rs, rspCode r = 0#4) ∧ t.tv = true

/-- R108, R112: BUILD only goes on with the loop a MERGE has begun. -/
def Obligations.BuildContinuesMerge : Prop :=
  ∀ s t : State, s.err = 0#4 → exec .merge s = .next t → t.err = 0#4 → exec .build t = exec .build s

/-- R108, R115: when the pass a MERGE would make fails, a BUILD on two entries or more fails with the same error and leaves the
same state. -/
def Obligations.BuildFailsWithItsFirstPass : Prop :=
  ∀ s t : State, s.err = 0#4 → 2 ≤ s.pq.length → exec .merge s = .next t → t.err ≠ 0#4 → exec .build s = .next t

/-- R115: a BUILD on `m >= 1` entries that forms a tree has made `m - 1` passes; one that fails has completed some passes,
and leaves what they left, the failing pass having changed nothing but ERR and the response; and the rule's example. -/
def Obligations.BuildKeepsCompletedPasses : Prop :=
  (∃ rs s, runCommands [.leaf 0x61#8 4294967295#32, .leaf 0x62#8 1#32, .build] State.reset = some (rs, s) ∧
    rs.map rspCode = [0#4, 0#4, 10#4] ∧ s.nodeCount = 2#9 ∧ s.pq = [0#9, 1#9] ∧ s.tv = false ∧ s.err = 10#4) ∧
  ∀ s t : State, s.err = 0#4 → s.tv = false → exec .build s = .next t →
    (t.err = 0#4 → s.pq ≠ [] → ∃ u, Passes (s.pq.length - 1) s u ∧ t.nodes = u.nodes ∧ t.pq = u.pq ∧ u.pq.length = 1 ∧
      t.tv = true) ∧
    (t.err ≠ 0#4 → t.tv = false ∧ ∃ k u e, k < s.pq.length - 1 ∧ Passes k s u ∧ mergeStep u = .failed e ∧
      t = raised u e.code)

/-- R108, R112: where the frequencies queued have a sum that fits and the store has room for the merges, BUILD forms the tree:
its root is the only entry and, if there were merges, the node allocated last, its frequency is the sum, the nodes that were
there stay, one internal node is added per merge, and the response shows the root, `tv` and the sum. -/
def Obligations.BuildFormsTheTree : Prop :=
  ∀ s : State, Inv s → s.err = 0#4 → s.tv = false → s.pq ≠ [] → queueSum s ≤ 4294967295 →
    s.nodes.length + s.pq.length ≤ 512 →
    ∃ (added : NodeStore) (root : NodeIdx),
      added.length + 1 = s.pq.length ∧ (∀ n ∈ added, n.k = 1#1) ∧
      (s.pq = [root] ∨ root.toNat + 1 = s.nodes.length + added.length) ∧
      (key (s.nodes ++ added) root).map BitVec.toNat = some (queueSum s) ∧
      exec .build s = .next { s with
        nodes := s.nodes ++ added
        pq := [root]
        root := root
        cur := root
        tv := true
        rsp := okRsp (queueSum s * 2 ^ 32 + 2 ^ 16 + root.toNat) }

/-- R112 (a) to (f): a correct build of `k` leaves. When the sum of the frequencies fits, every response is OK and the tree has
the leaves `0 .. k-1` in LEAF order and the internal nodes `k .. 2k-2`, the last of them the root; when it does not, the BUILD
and only the BUILD answers FreqOverflowError; with no leaves there is no tree and no node. -/
def Obligations.CorrectBuild : Prop :=
  ∀ leaves : List (Symbol × Freq), leaves.length ≤ 256 →
    ∃ rs r s, runCommands (leaves.map (fun l => .leaf l.1 l.2) ++ [.build]) State.reset = some (rs ++ [r], s) ∧
      (∀ x ∈ rs, rspCode x = 0#4) ∧
      (4294967295 < freqSum leaves → rspCode r = 10#4 ∧ s.err = 10#4 ∧ s.tv = false) ∧
      (freqSum leaves ≤ 4294967295 → rspCode r = 0#4 ∧ s.err = 0#4) ∧
      (leaves = [] → s.tv = false ∧ s.nodes = [] ∧ s.pq = []) ∧
      (leaves ≠ [] → freqSum leaves ≤ 4294967295 →
        s.tv = true ∧ s.root.toNat = 2 * leaves.length - 2 ∧ s.nodes.length = 2 * leaves.length - 1 ∧ s.pq = [s.root] ∧
        s.nodes.take leaves.length = leaves.map (fun l => .leaf l.1 l.2) ∧
        (∀ n ∈ s.nodes.drop leaves.length, n.k = 1#1) ∧
        (key s.nodes s.root).map BitVec.toNat = some (freqSum leaves) ∧
        (leavesOf s.nodes s.root).Perm leaves)

/-- R112, last sentence: the end state is the same when the BUILD is preceded by any number `j <= k - 1` of MERGEs. -/
def Obligations.MergesBeforeBuildChangeNothing : Prop :=
  ∀ (leaves : List (Symbol × Freq)) (j : Nat), leaves.length ≤ 256 → j ≤ leaves.length - 1 →
    ∃ rs rs' s, runCommands (leaves.map (fun l => .leaf l.1 l.2) ++ [.build]) State.reset = some (rs, s) ∧
      runCommands (leaves.map (fun l => .leaf l.1 l.2) ++ List.replicate j .merge ++ [.build]) State.reset = some (rs', s)

/-! ### The decoder -/

/-- R130, R131: DBIT 0 and DBIT 1 on a tree whose root is internal. To an internal child the decoder moves, with data 0; on
arrival at a leaf it answers `E = 1` and the symbol in 15:8 and is back at the root. -/
def Obligations.DbitWalksTheTree : Prop :=
  ∀ (s : State) (b : Bool) (f g : Freq) (l r l' r' : NodeIdx), s.err = 0#4 → s.tv = true →
    nodeAt s.nodes s.root = some (.internal f l r) → nodeAt s.nodes s.cur = some (.internal g l' r') →
    (∀ (h : Freq) (l'' r'' : NodeIdx), nodeAt s.nodes (if b then r' else l') = some (.internal h l'' r'') →
      exec (.dbit (if b then 1#8 else 0#8)) s = .next { s with cur := if b then r' else l', rsp := okRsp 0 }) ∧
    (∀ (sym : Symbol) (h : Freq), nodeAt s.nodes (if b then r' else l') = some (.leaf sym h) →
      exec (.dbit (if b then 1#8 else 0#8)) s = .next { s with cur := s.root, rsp := okRsp (sym.toNat * 2 ^ 8 + 1) })

/-- R132: on a degenerate tree every valid element, 0 or 1, emits the root's symbol and leaves `CUR = ROOT`; an invalid one raises
InvalidBitError; DEND answers OK; and the rule's example. -/
def Obligations.DegenerateTreeEmitsOnEveryBit : Prop :=
  (runCommands [.leaf 0x61#8 4#32, .build, .dbit 0#8, .dbit 0#8, .dbit 0#8, .dbit 0#8, .dbit 1#8, .dend] State.reset).map
    (fun x => x.1.drop 2) = some (List.replicate 5 (rspWord 0#4 0x0000000000006101#64) ++ [rspWord 0#4 0#64]) ∧
  ∀ (s : State) (sym : Symbol) (f : Freq), s.err = 0#4 → s.tv = true → s.cur = s.root →
    nodeAt s.nodes s.root = some (.leaf sym f) →
    (∀ v : StreamElem, v.toNat < 2 → exec (.dbit v) s = .next { s with rsp := okRsp (sym.toNat * 2 ^ 8 + 1) }) ∧
    (∀ v : StreamElem, 2 ≤ v.toNat → exec (.dbit v) s = .next (raised s 4#4)) ∧
    exec .dend s = .next { s with rsp := okRsp 0 }

/-- R135: NullTreeError whenever there is no tree, whatever the element; InvalidBitError when there is a tree and the element is
2 or more; neither moves CUR; and the rule's two examples. -/
def Obligations.DbitErrorConditions : Prop :=
  (∀ (s : State) (v : StreamElem), s.err = 0#4 →
    (s.tv = false → exec (.dbit v) s = .next (raised s 5#4)) ∧
    (s.tv = true → 2 ≤ v.toNat → exec (.dbit v) s = .next (raised s 4#4))) ∧
  (∀ (s t : State) (v : StreamElem), exec (.dbit v) s = .next t → t.err ≠ s.err → t.cur = s.cur) ∧
  (runCommands [.dbit 2#8] State.reset).map (fun x => x.1.map rspCode) = some [5#4] ∧
  (runCommands [.leaf 0x61#8 1#32, .leaf 0x62#8 1#32, .build, .dbit 2#8] State.reset).map
    (fun x => x.1.map rspCode) = some [0#4, 0#4, 0#4, 4#4]

/-- R133, R183: DEND answers OK and changes nothing when there is no tree or the decoder is at the root, and raises
TruncatedStreamError, leaving CUR, when it is not. -/
def Obligations.DendChecksTheRoot : Prop :=
  ∀ s : State, s.err = 0#4 →
    (s.tv = false ∨ s.cur = s.root → exec .dend s = .next { s with rsp := okRsp 0 }) ∧
    (s.tv = true → s.cur ≠ s.root → exec .dend s = .next (raised s 3#4))

/-- R138 (a) to (c), and its last sentence: the decode of a stream on a frozen block that is at its root. Of (c): a stream of
root-to-leaf paths followed by a path that ends below the root at an internal node is truncated. -/
def Obligations.DecodeFailsAsR138Says : Prop :=
  (∀ s : State, Inv s → s.err = 0#4 → s.tv = true → s.cur = s.root →
    decodeStream s [] = some (.ok []) ∧
    (∀ (good : List Bool) (v : StreamElem) (others : List StreamElem), 2 ≤ v.toNat →
      decodeStream s (good.map bitElem ++ v :: others) = some (.fail 4#4)) ∧
    (∀ (paths : List (List Bool)) (p : List Bool) (n : NodeIdx) (f : Freq) (l r : NodeIdx),
      (∀ q ∈ paths, ∃ sym, LeadsToLeaf s.nodes s.root q sym) → p ≠ [] → walkPath s.nodes s.root p = some n →
      nodeAt s.nodes n = some (.internal f l r) →
      decodeStream s ((paths.flatten ++ p).map bitElem) = some (.fail 3#4)) ∧
    ∀ bits : List Bool, (∃ out, decodeStream s (bits.map bitElem) = some (.ok out)) ∨
      decodeStream s (bits.map bitElem) = some (.fail 3#4)) ∧
  ∀ s : State, s.err = 0#4 → s.tv = false →
    decodeStream s [] = some (.ok []) ∧
    ∀ (v : StreamElem) (others : List StreamElem), decodeStream s (v :: others) = some (.fail 5#4)

/-- R138 (d): a stream decodes to some symbols exactly when it is the concatenation of root-to-leaf paths to leaves with those
symbols; on a degenerate tree, exactly when they are as many copies of the root's symbol as it has bits. -/
def Obligations.DecodeReadsRootToLeafPaths : Prop :=
  ∀ s : State, Inv s → s.err = 0#4 → s.tv = true → s.cur = s.root →
    (∀ f l r, nodeAt s.nodes s.root = some (.internal f l r) → ∀ (bits : List Bool) (out : List Symbol),
      decodeStream s (bits.map bitElem) = some (.ok out) ↔
        ∃ paths : List (List Bool), paths.flatten = bits ∧ List.Forall₂ (LeadsToLeaf s.nodes s.root) paths out) ∧
    ∀ sym f, nodeAt s.nodes s.root = some (.leaf sym f) → ∀ (bits : List Bool) (out : List Symbol),
      decodeStream s (bits.map bitElem) = some (.ok out) ↔ out = List.replicate bits.length sym

/-- R139: a root-to-leaf path is no longer than the number of leaves less one, and so than 255; a code of a tree that is not
degenerate has at least one bit. -/
def Obligations.WalkIsBounded : Prop :=
  ∀ s : State, Inv s → s.tv = true → ∀ (p : List Bool) (sym : Symbol), LeadsToLeaf s.nodes s.root p sym →
    p.length + 1 ≤ (leavesOf s.nodes s.root).length ∧ p.length ≤ 255 ∧
      (∀ f l r, nodeAt s.nodes s.root = some (.internal f l r) → 1 ≤ p.length)

/-! ### The system commands -/

/-- R150: CLR answers OK with data 0 and leaves the state `S0`; what the host presents next stays the host's. It is served
whatever ERR holds. -/
def Obligations.ClrDiscardsEverything : Prop :=
  ∀ s : State, exec .clr s = .next { State.reset with input := s.input, rsp := okRsp 0 }

/-- R30, R151: STAT, faulted or not, answers OK and the status word, each field in its bits and every other bit 0, and changes
nothing. The bounds are R33's. The view of the reset state is 0. -/
def Obligations.StatAnswersTheStatusWord : Prop :=
  (∀ s : State, s.nodes.length ≤ 511 → s.pq.length ≤ 256 →
    exec .stat s = .next { s with rsp := okRsp (s.cur.toNat * 2 ^ 44 + s.root.toNat * 2 ^ 32 + s.nodes.length * 2 ^ 20 +
      s.pq.length * 2 ^ 8 + (if s.tv = true ∧ s.cur = s.root then 2 ^ 5 else 0) + (if s.tv then 2 ^ 4 else 0) +
      s.err.toNat) }) ∧
  statusWord State.reset = 0#64

/-- R26, R152: NODE of a leaf answers `A = 1` in 0, `K = 0` in 1, `sym` 11:4, `freq` 63:32 and `left = right = 0`; of an internal
node `A = 1`, `K = 1`, `left` 20:12, `right` 29:21, `freq` 63:32 and `sym = 0`; of an unallocated index OK with 0. It changes
nothing. -/
def Obligations.NodeShowsTheRecord : Prop :=
  ∀ (s : State) (idx : NodeIdx), s.err = 0#4 →
    (∀ (sym : Symbol) (f : Freq), nodeAt s.nodes idx = some (.leaf sym f) →
      exec (.node idx) s = .next { s with rsp := okRsp (f.toNat * 2 ^ 32 + sym.toNat * 2 ^ 4 + 1) }) ∧
    (∀ (f : Freq) (l r : NodeIdx), nodeAt s.nodes idx = some (.internal f l r) →
      exec (.node idx) s = .next { s with
        rsp := okRsp (f.toNat * 2 ^ 32 + r.toNat * 2 ^ 21 + l.toNat * 2 ^ 12 + 3) }) ∧
    (s.nodes.length ≤ idx.toNat → exec (.node idx) s = .next { s with rsp := okRsp 0 })

/-- R152, R163: from the NODE responses the host has the whole tree back: a response shows the node, and only it; and after a
BUILD that answers OK, with a tree or without one, the code generator that starts from the `root` field of its response and
issues NODE commands has the code table of the block, of which it has changed nothing but the response. -/
def Obligations.NodeResponseShowsTheNode : Prop :=
  (∀ (s t : State) (idx : NodeIdx) (r : RspWord), s.err = 0#4 → exec (.node idx) s = .next t → t.rsp = some r →
    parseNode (rspData r) = nodeAt s.nodes idx) ∧
  ∀ s t : State, Inv s → exec .build s = .next t → t.err = 0#4 →
    ∃ r u, t.rsp = some r ∧ readCodeTable r t = some (codeTable t, u) ∧ u = { t with rsp := u.rsp }

/-! ### Errors -/

/-- R192: a faulted block executes only CLR and STAT; every other word, legal or illegal, is answered with the recorded code and
changes nothing, so that the tree and the queue are still held; STAT still shows what it shows; and a run that ends faulted does
not end well. -/
def Obligations.FaultedBlockServesOnlyClrAndStat : Prop :=
  (∀ (s : State) (i : Instr), s.err ≠ 0#4 → i ≠ .clr → i ≠ .stat → exec i s = .next { s with rsp := errRsp s.err }) ∧
  ∀ (s : State) (w : CmdWord) (es : List HostEvent), s.input = .cmd w :: es → s.err ≠ 0#4 →
    s.endsWell = false ∧
    (w ≠ 0x100000000000#48 → w ≠ 0x900000000000#48 → step s = .next { s with input := es, rsp := errRsp s.err }) ∧
    (w = 0x900000000000#48 →
      step s = .next { s with input := es, rsp := some (rspWord 0#4 (statusWord s)) }) ∧
    (w = 0x100000000000#48 → ∃ t, step s = .next t ∧ IsS0 t)

/-- R193, R194: ERR keeps the first code until a reset event or CLR, and both discard the tree, the queue and the position. -/
def Obligations.FirstErrorIsKept : Prop :=
  ∀ s t : State, s.err ≠ 0#4 → step s = .next t →
    (t.err = s.err ∧ t.nodes = s.nodes ∧ t.pq = s.pq ∧ t.root = s.root ∧ t.cur = s.cur ∧ t.tv = s.tv) ∨
    (IsS0 t ∧ ∃ es, s.input = .rst :: es ∨ s.input = .cmd 0x100000000000#48 :: es)

/-- R190, R191: a command that raises an error changes ERR, which held none, and the response, and nothing else; BUILD, whose
completed passes stand, changes in addition at most the queue and the store. -/
def Obligations.ErrorsArePrecise : Prop :=
  ∀ (s t : State) (i : Instr), exec i s = .next t → i ≠ .clr → t.err ≠ s.err →
    s.err = 0#4 ∧ t.rsp = errRsp t.err ∧ (i ≠ .build → t = raised s t.err) ∧
      t = { raised s t.err with nodes := t.nodes, pq := t.pq }

/-- R182 to R185, R187 to R189, R197: which commands raise which errors, and exactly when, on a block that is not faulted.
IllegalCommandError is raised by no command, only by words that are none (FrontEndOrder). -/
def Obligations.ErrorsAreRaisedExactlyWhen : Prop :=
  ∀ (s t : State) (i : Instr), s.err = 0#4 → exec i s = .next t →
    (t.err = 1#4 ↔ (i = .xmin ∧ s.tv = false ∧ s.pq = []) ∨ (i = .merge ∧ s.tv = false ∧ s.pq.length < 2)) ∧
    t.err ≠ 2#4 ∧
    (t.err = 3#4 ↔ i = .dend ∧ s.tv = true ∧ s.cur ≠ s.root) ∧
    (t.err = 4#4 ↔ ∃ v, i = .dbit v ∧ s.tv = true ∧ 2 ≤ v.toNat) ∧
    (t.err = 5#4 ↔ ∃ v, i = .dbit v ∧ s.tv = false) ∧
    t.err ≠ 8#4 ∧
    (t.err = 9#4 ↔
      (∃ sym freq, i = .leaf sym freq ∧ s.tv = false ∧ (511 ≤ s.nodes.length ∨ 256 ≤ s.pq.length)) ∨
      (i = .merge ∧ s.tv = false ∧ NoRoomToMerge s) ∨ (i = .build ∧ s.tv = false ∧ AtSomePass NoRoomToMerge s)) ∧
    (t.err = 10#4 ↔
      (i = .merge ∧ s.tv = false ∧ SumTooLarge s) ∨ (i = .build ∧ s.tv = false ∧ AtSomePass SumTooLarge s)) ∧
    (t.err = 11#4 ↔ s.tv = true ∧ ((∃ sym freq, i = .leaf sym freq) ∨ i = .xmin ∨ i = .merge ∨ i = .build))

/-- R24: TV is 0 after reset, is set only by a BUILD that answers OK with exactly one entry left, is cleared only by CLR and
reset; and with TV = 1 the queue commands are refused with SequenceError. -/
def Obligations.TreeValidOnlyByBuild : Prop :=
  State.reset.tv = false ∧
  (∀ s t : State, step s = .next t →
    (s.tv = false → t.tv = true → t.err = 0#4 ∧ t.pq = [t.root] ∧ ∃ es, s.input = .cmd 0x600000000000#48 :: es) ∧
    (s.tv = true → t.tv = false → ∃ es, s.input = .rst :: es ∨ s.input = .cmd 0x100000000000#48 :: es)) ∧
  ∀ (s : State) (i : Instr), s.err = 0#4 → s.tv = true →
    ((∃ sym freq, i = .leaf sym freq) ∨ i = .xmin ∨ i = .merge ∨ i = .build) → exec i s = .next (raised s 11#4)

/-! ### Frames -/

/-- R54, R106, R151, R152: SIZE, STAT and NODE leave everything but the response: every register, PQ, and every index of the store
reads as before. -/
def Obligations.ReadCommandsFrame : Prop :=
  ∀ (s t : State) (i : Instr), (i = .size ∨ i = .stat ∨ ∃ idx, i = .node idx) → exec i s = .next t →
    t = { s with rsp := t.rsp } ∧ ∀ j : NodeIdx, nodeAt t.nodes j = nodeAt s.nodes j

/-- R54, R131, R133: DBIT changes at most CUR, ERR and the response, DEND at most ERR and the response; every index of the store
reads as before. -/
def Obligations.DecoderCommandsFrame : Prop :=
  (∀ (s t : State) (v : StreamElem), exec (.dbit v) s = .next t →
    t = { s with cur := t.cur, err := t.err, rsp := t.rsp } ∧ ∀ j : NodeIdx, nodeAt t.nodes j = nodeAt s.nodes j) ∧
  ∀ s t : State, exec .dend s = .next t →
    t = { s with err := t.err, rsp := t.rsp } ∧ ∀ j : NodeIdx, nodeAt t.nodes j = nodeAt s.nodes j

/-- R54, R105: XMIN changes at most PQ, from which it only removes, ERR and the response; the node taken out stays in the
store. -/
def Obligations.XminFrame : Prop :=
  ∀ s t : State, exec .xmin s = .next t →
    t = { s with pq := t.pq, err := t.err, rsp := t.rsp } ∧ t.pq.Sublist s.pq ∧
      ∀ j : NodeIdx, nodeAt t.nodes j = nodeAt s.nodes j

/-- R14, R54, R104, R107: LEAF and MERGE change at most PQ, the store, ERR and the response, and in the store only the record
at NODE_COUNT, the index they allocate. The bound is R21's. -/
def Obligations.AllocatingCommandsFrame : Prop :=
  ∀ (s t : State) (i : Instr), ((∃ sym freq, i = .leaf sym freq) ∨ i = .merge) → s.nodes.length ≤ 511 →
    exec i s = .next t →
    t = { s with nodes := t.nodes, pq := t.pq, err := t.err, rsp := t.rsp } ∧
      ∀ j : NodeIdx, j ≠ s.nodeCount → nodeAt t.nodes j = nodeAt s.nodes j

/-- R54, R108, R115: BUILD changes ROOT, CUR and TV only together, by forming a tree; in the store, only the records from
NODE_COUNT before to NODE_COUNT after; nothing of the ports but the response. -/
def Obligations.BuildFrame : Prop :=
  ∀ s t : State, exec .build s = .next t →
    t.input = s.input ∧
    ((t.root = s.root ∧ t.cur = s.cur ∧ t.tv = s.tv) ∨ (s.tv = false ∧ t.tv = true ∧ t.pq = [t.root] ∧ t.cur = t.root)) ∧
    s.nodes.length ≤ t.nodes.length ∧
    ∀ j : NodeIdx, ¬ (s.nodes.length ≤ j.toNat ∧ j.toNat < t.nodes.length) → nodeAt t.nodes j = nodeAt s.nodes j

/-- R14, R53: no command but CLR, and no illegal word, changes or removes a node that is allocated. -/
def Obligations.NodesAreNeverMutated : Prop :=
  ∀ (s t : State) (w : CmdWord) (es : List HostEvent), s.input = .cmd w :: es → w ≠ 0x100000000000#48 →
    step s = .next t → s.nodes <+: t.nodes

/-! ### The whole machine -/

/-- R32 to R37: the invariant holds in the reset state. -/
def Obligations.InvariantAtReset : Prop := Inv State.reset

/-- R33 to R37, R22 to R25, R27: every step keeps the invariant: bounds, acyclic links, single ownership, the frozen form, exact
sums, insertion order, legal error codes, and the canonical form of the memory. -/
def Obligations.StepKeepsInvariant : Prop := ∀ s t : State, Inv s → step s = .next t → Inv t

/-- R33, R222: from every state that meets the invariant every command word, legal or not, gets exactly one response; the
machine neither hangs nor reads an unallocated node, and BUILD adds at most 255 nodes. The last clause takes in the step on
which the host presents nothing, whose next state is the model's reading of R199 (log entry 3). -/
def Obligations.EveryWordIsAnswered : Prop :=
  ∀ s : State, Inv s →
    (∀ (w : CmdWord) (es : List HostEvent), s.input = .cmd w :: es →
      ∃ t r, step s = .next t ∧ t.rsp = some r ∧ t.input = es ∧ t.nodes.length ≤ s.nodes.length + 255) ∧
    ∃ t, step s = .next t

/-- R34: children have smaller indices than their parent, and every downward walk from an allocated node reaches a leaf in at
most as many steps as its index. -/
def Obligations.WalksReachALeaf : Prop :=
  ∀ s : State, Inv s → ∀ p : NodeIdx, p.toNat < s.nodes.length →
    (∀ f l r, nodeAt s.nodes p = some (.internal f l r) → l.toNat < p.toNat ∧ r.toNat < p.toNat) ∧
    ∀ bits : List Bool, p.toNat ≤ bits.length → ∃ k ≤ p.toNat, ∃ sym, LeadsToLeaf s.nodes p (bits.take k) sym

/-- R37: an internal node's frequency is the exact sum of its children's, and so of the leaves under it. -/
def Obligations.FrequencyIsConserved : Prop :=
  ∀ s : State, Inv s → ∀ p n, nodeAt s.nodes p = some n →
    n.freq.toNat = freqSum (leavesOf s.nodes p) ∧
    ∀ f l r, n = .internal f l r → ∃ a b, key s.nodes l = some a ∧ key s.nodes r = some b ∧ f.toNat = a.toNat + b.toNat

/-- R163, R164, R170: the code table holds exactly the leaves with their root-to-leaf paths, and no code is a prefix of another;
of a one-leaf tree it is the single-bit code "0" for its symbol; without a tree it is empty. -/
def Obligations.CodeTableIsPrefixFree : Prop :=
  (∀ s : State, Inv s → s.tv = true →
    ((codeTable s).Pairwise fun x y => ¬ x.2 <+: y.2 ∧ ¬ y.2 <+: x.2) ∧
    (∀ f l r, nodeAt s.nodes s.root = some (.internal f l r) →
      ∀ sym p, (sym, p) ∈ codeTable s ↔ LeadsToLeaf s.nodes s.root p sym) ∧
    ∀ sym f, nodeAt s.nodes s.root = some (.leaf sym f) → codeTable s = [(sym, [false])]) ∧
  ∀ s : State, s.tv = false → codeTable s = []

/-- R137, R138, R221: the DBITs since a BUILD or a DEND, with SIZE, STAT and NODE between them or not, are with the next DEND one
decode of the run, and its result is that of `decode(bs)`; when it succeeds the decoder is at the root again, for another stream,
and nothing else has changed but the response. -/
def Obligations.DecodeIsASegmentOfARun : Prop :=
  ∀ (s : State) (is : List Instr), Inv s →
    (∀ i ∈ is, i = .size ∨ i = .stat ∨ (∃ idx, i = .node idx) ∨ ∃ v, i = .dbit v) →
    ∃ rs t d, runCommands (is ++ [.dend]) s = some (rs, t) ∧
      segmentsFrom (some []) (((is ++ [Instr.dend]).map encode).zip rs) = [d] ∧
      decodeStream s (is.filterMap streamElem) = some d.result ∧
      ∀ out, d.result = .ok out → t = { s with cur := s.root, rsp := okRsp 0 }

/-- R161, R171, R177: the host's frequency table counts each symbol, its counts add up to the length of the input, every symbol
in it has a positive count and one pair; and partial tables merge into the table of the whole. -/
def Obligations.FrequencyTableCounts : Prop :=
  ∀ msg msg' : List Symbol,
    (∀ s, tableCount (freqTable msg) s = msg.count s) ∧ ((freqTable msg).map Prod.snd).sum = msg.length ∧
    (∀ x ∈ freqTable msg, 0 < x.2) ∧ ((freqTable msg).map Prod.fst).Nodup ∧
    ∀ s, tableCount (mergeTables (freqTable msg) (freqTable msg')) s = (msg ++ msg').count s

/-- R167, R169: on any frozen block at its root, what the host's encoder makes with the block's code table decodes to the message. -/
def Obligations.DecodeInvertsEncoder : Prop :=
  ∀ s : State, Inv s → s.err = 0#4 → s.tv = true → s.cur = s.root →
    ∀ (msg : List Symbol) (bits : List Bool), encodeMsg (codeTable s) msg = .ok bits →
      decodeStream s (bits.map bitElem) = some (.ok msg)

/-- R169: the round trip. For every non-empty message that is not too long and every order of its leaves, the build answers OK
throughout, the encoder finds every code, and the stream decodes to the message; a message of one distinct symbol is encoded as
so many bits "0". -/
def Obligations.RoundTrip : Prop :=
  ∀ (msg : List Symbol) (table : List (Symbol × Nat)), msg ≠ [] → msg.length ≤ 4294967295 →
    table.Perm (freqTable msg) →
    ∃ rs s bits, runCommands (leafCommands table ++ [.build]) State.reset = some (rs, s) ∧
      (∀ r ∈ rs, rspCode r = 0#4) ∧ encodeMsg (codeTable s) msg = .ok bits ∧
      ((∀ x ∈ msg, ∀ y ∈ msg, x = y) → bits = List.replicate msg.length false) ∧
      decodeStream s (bits.map bitElem) = some (.ok msg)
end

