-- ==== Sys2Proof/Laws/Bits.lean ====
section
/-! SUPPORT. Concatenation of bit vectors as arithmetic, for the words and responses the model builds field by field. -/

namespace Sys2Proof.Laws

/-- `{x, y}` is `x` moved up by the width of `y`, plus `y` (spec/00_scope.md R11). -/
theorem toNat_append_eq_add {m n : Nat} (x : BitVec m) (y : BitVec n) :
    (x ++ y).toNat = x.toNat * 2 ^ n + y.toNat := by
  rw [BitVec.toNat_append, ← Nat.shiftLeft_add_eq_or_of_lt y.isLt, Nat.shiftLeft_eq]

end Sys2Proof.Laws
end

