-- ==== Sys2Proof/Laws/State.lean ====
section
/-! SUPPORT. What each named update does to each field of State, one lemma per field per update. -/

namespace Sys2Proof.Machine

@[simp] theorem allocNode_nodes (s : State) (n : Node) : (s.allocNode n).nodes = s.nodes ++ [n] := rfl
@[simp] theorem allocNode_pq (s : State) (n : Node) : (s.allocNode n).pq = s.pq := rfl
@[simp] theorem allocNode_root (s : State) (n : Node) : (s.allocNode n).root = s.root := rfl
@[simp] theorem allocNode_cur (s : State) (n : Node) : (s.allocNode n).cur = s.cur := rfl
@[simp] theorem allocNode_tv (s : State) (n : Node) : (s.allocNode n).tv = s.tv := rfl
@[simp] theorem allocNode_err (s : State) (n : Node) : (s.allocNode n).err = s.err := rfl
@[simp] theorem allocNode_input (s : State) (n : Node) : (s.allocNode n).input = s.input := rfl
@[simp] theorem allocNode_rsp (s : State) (n : Node) : (s.allocNode n).rsp = s.rsp := rfl

@[simp] theorem withPq_nodes (s : State) (q : List NodeIdx) : (s.withPq q).nodes = s.nodes := rfl
@[simp] theorem withPq_pq (s : State) (q : List NodeIdx) : (s.withPq q).pq = q := rfl
@[simp] theorem withPq_root (s : State) (q : List NodeIdx) : (s.withPq q).root = s.root := rfl
@[simp] theorem withPq_cur (s : State) (q : List NodeIdx) : (s.withPq q).cur = s.cur := rfl
@[simp] theorem withPq_tv (s : State) (q : List NodeIdx) : (s.withPq q).tv = s.tv := rfl
@[simp] theorem withPq_err (s : State) (q : List NodeIdx) : (s.withPq q).err = s.err := rfl
@[simp] theorem withPq_input (s : State) (q : List NodeIdx) : (s.withPq q).input = s.input := rfl
@[simp] theorem withPq_rsp (s : State) (q : List NodeIdx) : (s.withPq q).rsp = s.rsp := rfl

@[simp] theorem pqInsert_nodes (s : State) (n : NodeIdx) : (s.pqInsert n).nodes = s.nodes := rfl
@[simp] theorem pqInsert_pq (s : State) (n : NodeIdx) : (s.pqInsert n).pq = s.pq ++ [n] := rfl
@[simp] theorem pqInsert_root (s : State) (n : NodeIdx) : (s.pqInsert n).root = s.root := rfl
@[simp] theorem pqInsert_cur (s : State) (n : NodeIdx) : (s.pqInsert n).cur = s.cur := rfl
@[simp] theorem pqInsert_tv (s : State) (n : NodeIdx) : (s.pqInsert n).tv = s.tv := rfl
@[simp] theorem pqInsert_err (s : State) (n : NodeIdx) : (s.pqInsert n).err = s.err := rfl
@[simp] theorem pqInsert_input (s : State) (n : NodeIdx) : (s.pqInsert n).input = s.input := rfl
@[simp] theorem pqInsert_rsp (s : State) (n : NodeIdx) : (s.pqInsert n).rsp = s.rsp := rfl

@[simp] theorem withCur_nodes (s : State) (n : NodeIdx) : (s.withCur n).nodes = s.nodes := rfl
@[simp] theorem withCur_pq (s : State) (n : NodeIdx) : (s.withCur n).pq = s.pq := rfl
@[simp] theorem withCur_root (s : State) (n : NodeIdx) : (s.withCur n).root = s.root := rfl
@[simp] theorem withCur_cur (s : State) (n : NodeIdx) : (s.withCur n).cur = n := rfl
@[simp] theorem withCur_tv (s : State) (n : NodeIdx) : (s.withCur n).tv = s.tv := rfl
@[simp] theorem withCur_err (s : State) (n : NodeIdx) : (s.withCur n).err = s.err := rfl
@[simp] theorem withCur_input (s : State) (n : NodeIdx) : (s.withCur n).input = s.input := rfl
@[simp] theorem withCur_rsp (s : State) (n : NodeIdx) : (s.withCur n).rsp = s.rsp := rfl

@[simp] theorem formTree_nodes (s : State) (n : NodeIdx) : (s.formTree n).nodes = s.nodes := rfl
@[simp] theorem formTree_pq (s : State) (n : NodeIdx) : (s.formTree n).pq = s.pq := rfl
@[simp] theorem formTree_root (s : State) (n : NodeIdx) : (s.formTree n).root = n := rfl
@[simp] theorem formTree_cur (s : State) (n : NodeIdx) : (s.formTree n).cur = n := rfl
@[simp] theorem formTree_tv (s : State) (n : NodeIdx) : (s.formTree n).tv = true := rfl
@[simp] theorem formTree_err (s : State) (n : NodeIdx) : (s.formTree n).err = s.err := rfl
@[simp] theorem formTree_input (s : State) (n : NodeIdx) : (s.formTree n).input = s.input := rfl
@[simp] theorem formTree_rsp (s : State) (n : NodeIdx) : (s.formTree n).rsp = s.rsp := rfl

@[simp] theorem withErr_nodes (s : State) (c : Code) : (s.withErr c).nodes = s.nodes := rfl
@[simp] theorem withErr_pq (s : State) (c : Code) : (s.withErr c).pq = s.pq := rfl
@[simp] theorem withErr_root (s : State) (c : Code) : (s.withErr c).root = s.root := rfl
@[simp] theorem withErr_cur (s : State) (c : Code) : (s.withErr c).cur = s.cur := rfl
@[simp] theorem withErr_tv (s : State) (c : Code) : (s.withErr c).tv = s.tv := rfl
@[simp] theorem withErr_err (s : State) (c : Code) : (s.withErr c).err = c := rfl
@[simp] theorem withErr_input (s : State) (c : Code) : (s.withErr c).input = s.input := rfl
@[simp] theorem withErr_rsp (s : State) (c : Code) : (s.withErr c).rsp = s.rsp := rfl

@[simp] theorem withRsp_nodes (s : State) (r : Option RspWord) : (s.withRsp r).nodes = s.nodes := rfl
@[simp] theorem withRsp_pq (s : State) (r : Option RspWord) : (s.withRsp r).pq = s.pq := rfl
@[simp] theorem withRsp_root (s : State) (r : Option RspWord) : (s.withRsp r).root = s.root := rfl
@[simp] theorem withRsp_cur (s : State) (r : Option RspWord) : (s.withRsp r).cur = s.cur := rfl
@[simp] theorem withRsp_tv (s : State) (r : Option RspWord) : (s.withRsp r).tv = s.tv := rfl
@[simp] theorem withRsp_err (s : State) (r : Option RspWord) : (s.withRsp r).err = s.err := rfl
@[simp] theorem withRsp_input (s : State) (r : Option RspWord) : (s.withRsp r).input = s.input := rfl
@[simp] theorem withRsp_rsp (s : State) (r : Option RspWord) : (s.withRsp r).rsp = r := rfl

@[simp] theorem withInput_nodes (s : State) (es : List HostEvent) : (s.withInput es).nodes = s.nodes := rfl
@[simp] theorem withInput_pq (s : State) (es : List HostEvent) : (s.withInput es).pq = s.pq := rfl
@[simp] theorem withInput_root (s : State) (es : List HostEvent) : (s.withInput es).root = s.root := rfl
@[simp] theorem withInput_cur (s : State) (es : List HostEvent) : (s.withInput es).cur = s.cur := rfl
@[simp] theorem withInput_tv (s : State) (es : List HostEvent) : (s.withInput es).tv = s.tv := rfl
@[simp] theorem withInput_err (s : State) (es : List HostEvent) : (s.withInput es).err = s.err := rfl
@[simp] theorem withInput_input (s : State) (es : List HostEvent) : (s.withInput es).input = es := rfl
@[simp] theorem withInput_rsp (s : State) (es : List HostEvent) : (s.withInput es).rsp = s.rsp := rfl

@[simp] theorem clearBlock_nodes (s : State) : s.clearBlock.nodes = [] := rfl
@[simp] theorem clearBlock_pq (s : State) : s.clearBlock.pq = [] := rfl
@[simp] theorem clearBlock_root (s : State) : s.clearBlock.root = 0#9 := rfl
@[simp] theorem clearBlock_cur (s : State) : s.clearBlock.cur = 0#9 := rfl
@[simp] theorem clearBlock_tv (s : State) : s.clearBlock.tv = false := rfl
@[simp] theorem clearBlock_err (s : State) : s.clearBlock.err = 0#4 := rfl
@[simp] theorem clearBlock_input (s : State) : s.clearBlock.input = s.input := rfl
@[simp] theorem clearBlock_rsp (s : State) : s.clearBlock.rsp = s.rsp := rfl

@[simp] theorem resetBlock_nodes (s : State) : (resetBlock s).nodes = [] := rfl
@[simp] theorem resetBlock_pq (s : State) : (resetBlock s).pq = [] := rfl
@[simp] theorem resetBlock_root (s : State) : (resetBlock s).root = 0#9 := rfl
@[simp] theorem resetBlock_cur (s : State) : (resetBlock s).cur = 0#9 := rfl
@[simp] theorem resetBlock_tv (s : State) : (resetBlock s).tv = false := rfl
@[simp] theorem resetBlock_err (s : State) : (resetBlock s).err = 0#4 := rfl
@[simp] theorem resetBlock_input (s : State) : (resetBlock s).input = s.input := rfl
@[simp] theorem resetBlock_rsp (s : State) : (resetBlock s).rsp = none := rfl

@[simp] theorem reset_nodes : State.reset.nodes = [] := rfl
@[simp] theorem reset_pq : State.reset.pq = [] := rfl
@[simp] theorem reset_root : State.reset.root = 0#9 := rfl
@[simp] theorem reset_cur : State.reset.cur = 0#9 := rfl
@[simp] theorem reset_tv : State.reset.tv = false := rfl
@[simp] theorem reset_err : State.reset.err = 0#4 := rfl
@[simp] theorem reset_input : State.reset.input = [] := rfl
@[simp] theorem reset_rsp : State.reset.rsp = none := rfl

end Sys2Proof.Machine
end

