-- ==== Sys2Proof/Laws/Ops.lean ====
section
/-! SUPPORT. What answering, raising an error and the fault gate do. -/

namespace Sys2Proof.Machine

/-- A response is a next state that differs in the response port alone. -/
theorem respond_eq_next_iff {s t : State} {c : Code} {d : Data} :
    respond s c d = .next t ↔ t = s.withRsp (some (rspWord c d)) := by
  constructor
  · intro h
    cases h
    rfl
  · rintro rfl
    rfl

theorem respondOk_eq_next_iff {s t : State} {d : Data} :
    respondOk s d = .next t ↔ t = s.withRsp (some (rspWord 0#4 d)) :=
  respond_eq_next_iff

/-- Fault entry on a block that is not faulted (R190). -/
theorem raiseError_of_err_zero {s : State} (e : ErrKind) (h : s.err = 0#4) :
    raiseError s e = .next ((s.withErr e.code).withRsp (some (rspWord e.code 0#64))) := by
  simp [raiseError, h, respond]

/-- Whatever the state, raising an error is a next state that differs at most in ERR and in the response. -/
theorem raiseError_eq_next {s t : State} {e : ErrKind} (h : raiseError s e = .next t) :
    t.rsp = some (rspWord e.code 0#64) ∧ (t.err = e.code ∨ t.err = s.err) ∧
      t = (s.withErr t.err).withRsp t.rsp := by
  obtain rfl := respond_eq_next_iff.mp h
  by_cases hz : s.err = 0#4 <;> simp [hz, State.withErr, State.withRsp]

/-- A block that is not faulted passes the gate (R78). -/
theorem faultGate_of_err_zero {s : State} (r : Result) (h : s.err = 0#4) : faultGate s r = r := if_pos h

/-- A faulted block answers its recorded code and keeps its state (R192). -/
theorem faultGate_of_faulted {s : State} (r : Result) (h : s.err ≠ 0#4) :
    faultGate s r = .next (s.withRsp (some (rspWord s.err 0#64))) := if_neg h

/-- Everything a gated command can answer. -/
theorem faultGate_cases {s : State} {r u : Result} (h : faultGate s r = u) :
    (s.err = 0#4 ∧ u = r) ∨ (s.err ≠ 0#4 ∧ u = .next (s.withRsp (some (rspWord s.err 0#64)))) := by
  by_cases hz : s.err = 0#4
  · exact .inl ⟨hz, by rw [← h, faultGate_of_err_zero r hz]⟩
  · exact .inr ⟨hz, by rw [← h, faultGate_of_faulted r hz]⟩

/-- The kinds have different codes, none of them OK (R181). -/
theorem errKind_code_injective (e f : ErrKind) (h : e.code = f.code) : e = f := by
  cases e <;> cases f <;> first | rfl | exact absurd h (by decide)

theorem errKind_code_ne_zero (e : ErrKind) : e.code ≠ 0#4 := by cases e <;> decide

end Sys2Proof.Machine
end

