-- ==== Sys2Proof/Laws/Memory.lean ====
section
/-! SUPPORT. The node store: what a read gives after each operation that changes it, and that each keeps the canonical form. -/

namespace Sys2Proof.Machine

theorem memory_wf_iff (ns : NodeStore) : Memory.wf ns = true ↔ ns.length ≤ 511 :=
  decide_eq_true_iff

theorem storeFull_eq_false_iff (s : State) : s.storeFull = false ↔ s.nodes.length < 511 :=
  decide_eq_false_iff_not.trans Nat.not_le

theorem queueFull_eq_false_iff (s : State) : s.queueFull = false ↔ s.pq.length < 256 :=
  decide_eq_false_iff_not.trans Nat.not_le

theorem nodeAt_eq_some_lt {ns : NodeStore} {i : NodeIdx} {n : Node} (h : nodeAt ns i = some n) :
    i.toNat < ns.length := by
  obtain ⟨hlt, -⟩ := List.getElem?_eq_some_iff.mp h
  exact hlt

theorem nodeAt_isSome_iff (ns : NodeStore) (i : NodeIdx) : (nodeAt ns i).isSome ↔ i.toNat < ns.length := by
  simp [nodeAt]

/-- While the store is not full, `NODE_COUNT` is exact in its nine bits. -/
theorem nodeCount_toNat {s : State} (h : s.storeFull = false) : s.nodeCount.toNat = s.nodes.length := by
  have := (storeFull_eq_false_iff s).mp h
  simp [State.nodeCount]
  omega

/-- An allocation leaves every node it finds as it is (R14). -/
theorem nodeAt_append_of_some {ns : NodeStore} {i : NodeIdx} {n : Node} (m : Node) (h : nodeAt ns i = some n) :
    nodeAt (ns ++ [m]) i = some n := by
  rw [nodeAt, List.getElem?_append_left (nodeAt_eq_some_lt h)]
  exact h

/-- The node allocated is found at the index it was given (R14). -/
theorem nodeRead_allocNode_new {s : State} (n : Node) (h : s.storeFull = false) :
    (s.allocNode n).nodeRead s.nodeCount = some n := by
  simp [State.nodeRead, nodeAt, nodeCount_toNat h]

/-- An allocation that finds room keeps the canonical form. -/
theorem allocNode_keeps_wf {s : State} (n : Node) (h : s.storeFull = false) :
    Memory.wf (s.allocNode n).nodes = true := by
  have := (storeFull_eq_false_iff s).mp h
  simp [memory_wf_iff]
  omega

/-- CLR and reset leave the empty store, which has the canonical form. -/
theorem clearBlock_wf (s : State) : Memory.wf s.clearBlock.nodes = true := rfl

theorem resetBlock_wf (s : State) : Memory.wf (resetBlock s).nodes = true := rfl

theorem reset_memory_wf : Memory.wf State.reset.nodes = true := rfl

end Sys2Proof.Machine
end

