-- ==== Sys2Proof/Laws/Queue.lean ====
section
/-! SUPPORT. The priority sequence: what an extraction takes, what one merge step and the loop of BUILD can do. -/

namespace Sys2Proof.Laws

open Sys2Proof.Machine Sys2Proof.Safety

/-! ### Keys -/

theorem pqKeys_eq_some_iff {ns : NodeStore} {q : List NodeIdx} {ks : List Freq} :
    pqKeys ns q = some ks ↔ List.Forall₂ (fun n k => key ns n = some k) q ks := by
  induction q generalizing ks with
  | nil => simp [pqKeys, eq_comm]
  | cons n q ih =>
    rw [List.forall₂_cons_left_iff, pqKeys]
    cases hn : nodeAt ns n with
    | none => simp [key, hn]
    | some r =>
      cases hq : pqKeys ns q with
      | none => simp [← ih, hq]
      | some ks' =>
        have hk : key ns n = some r.freq := by simp [key, hn]
        simp only [← ih, hq, hk, Option.some.injEq]
        constructor
        · rintro rfl
          exact ⟨_, _, rfl, rfl, rfl⟩
        · rintro ⟨_, _, rfl, rfl, rfl⟩
          rfl

/-- The keys are readable exactly when every entry is allocated. -/
theorem pqKeys_isSome_iff (ns : NodeStore) (q : List NodeIdx) :
    (pqKeys ns q).isSome ↔ ∀ n ∈ q, n.toNat < ns.length := by
  induction q with
  | nil => simp [pqKeys]
  | cons n q ih =>
    have hn := nodeAt_isSome_iff ns n
    cases h : nodeAt ns n <;> cases hq : pqKeys ns q <;> simp_all [pqKeys]

/-! ### The minimum -/

theorem minPos_isSome_iff (ks : List Freq) : (minPos ks).isSome ↔ ks ≠ [] := by
  cases ks with
  | nil => simp [minPos]
  | cons k ks =>
    simp only [minPos, ne_eq, reduceCtorEq, not_false_eq_true, iff_true]
    split
    · rfl
    · split <;> rfl

/-- `minpos` splits the keys: greater ones before it, none smaller after it (R13). -/
theorem minPos_eq_some {ks : List Freq} {j : Nat} {m : Freq} (h : minPos ks = some (j, m)) :
    ∃ before after, ks = before ++ m :: after ∧ before.length = j ∧ (∀ x ∈ before, m.toNat < x.toNat) ∧
      ∀ y ∈ after, m.toNat ≤ y.toNat := by
  induction ks generalizing j m with
  | nil => simp [minPos] at h
  | cons k ks ih =>
    simp only [minPos] at h
    split at h
    · next hn =>
      obtain ⟨rfl, rfl⟩ : 0 = j ∧ k = m := by simpa using h
      have : ks = [] := by
        by_contra hne
        simpa [hn] using (minPos_isSome_iff ks).mpr hne
      exact ⟨[], ks, rfl, rfl, by simp, by simp [this]⟩
    · next i x hi =>
      obtain ⟨before, after, rfl, rfl, hb, ha⟩ := ih hi
      split at h
      · next hle =>
        obtain ⟨rfl, rfl⟩ : 0 = j ∧ k = m := by simpa using h
        refine ⟨[], _, rfl, rfl, by simp, fun y hy => ?_⟩
        have hkx : k.toNat ≤ x.toNat := hle
        rcases List.mem_append.mp hy with hy | hy
        · exact hkx.trans (hb y hy).le
        · rcases List.mem_cons.mp hy with rfl | hy
          · exact hkx
          · exact hkx.trans (ha y hy)
      · next hle =>
        obtain ⟨rfl, rfl⟩ : before.length + 1 = j ∧ x = m := by simpa using h
        have hxk : x.toNat < k.toNat := Nat.lt_of_not_le hle
        exact ⟨k :: before, after, rfl, rfl, by simpa using ⟨hxk, hb⟩, ha⟩

/-- The only split of this form is the one `minpos` finds. -/
theorem minPos_append {before after : List Freq} {m : Freq} (hb : ∀ x ∈ before, m.toNat < x.toNat)
    (ha : ∀ y ∈ after, m.toNat ≤ y.toNat) : minPos (before ++ m :: after) = some (before.length, m) := by
  induction before with
  | nil =>
    simp only [List.nil_append, minPos]
    split
    · rfl
    · next j x hx =>
      obtain ⟨b, a, rfl, -, -⟩ := minPos_eq_some hx
      exact if_pos (ha x (by simp))
  | cons k before ih =>
    have hk : ¬ k ≤ m := Nat.not_le.mpr (hb k (by simp))
    simp [minPos, ih fun x hx => hb x (by simp [hx]), hk]

/-! ### Extraction (R102, R113) -/

theorem earliestMin_keys {ns : NodeStore} {q before after : List NodeIdx} {n : NodeIdx} {k : Freq}
    (h : EarliestMin ns q before n k after) :
    ∃ bs as, pqKeys ns q = some (bs ++ k :: as) ∧ bs.length = before.length ∧ (∀ x ∈ bs, k.toNat < x.toNat) ∧
      ∀ y ∈ as, k.toNat ≤ y.toNat := by
  obtain ⟨rfl, hn, hb, ha⟩ := h
  have side : ∀ (l : List NodeIdx) (P : Nat → Prop), (∀ x ∈ l, ∃ kx, key ns x = some kx ∧ P kx.toNat) →
      ∃ ks, List.Forall₂ (fun n k => key ns n = some k) l ks ∧ ∀ x ∈ ks, P x.toNat := by
    intro l P hl
    induction l with
    | nil => exact ⟨[], .nil, by simp⟩
    | cons x l ih =>
      obtain ⟨kx, hkx, hP⟩ := hl x (by simp)
      obtain ⟨ks, hks, hall⟩ := ih fun y hy => hl y (by simp [hy])
      exact ⟨kx :: ks, .cons hkx hks, by simpa using ⟨hP, hall⟩⟩
  obtain ⟨bs, hbs, hbP⟩ := side before (k.toNat < ·) hb
  obtain ⟨as, has, haP⟩ := side after (k.toNat ≤ ·) ha
  exact ⟨bs, as, pqKeys_eq_some_iff.mpr (List.rel_append hbs (.cons hn has)), hbs.length_eq.symm, hbP, haP⟩

/-- The extraction takes the entry the spec names, and the others keep their order. -/
theorem extractMin_of_earliestMin {ns : NodeStore} {q before after : List NodeIdx} {n : NodeIdx} {k : Freq}
    (h : EarliestMin ns q before n k after) :
    extractMin ns q = some { node := n, freq := k, rest := before ++ after } := by
  obtain ⟨bs, as, hks, hlen, hb, ha⟩ := earliestMin_keys h
  obtain ⟨rfl, -⟩ := h
  simp [extractMin, hks, minPos_append hb ha, hlen, List.eraseIdx_append_of_length_le]

theorem forall₂_split {q : List NodeIdx} {bs as : List Freq} {m : Freq} {R : NodeIdx → Freq → Prop}
    (h : List.Forall₂ R q (bs ++ m :: as)) : ∃ before n after, q = before ++ n :: after ∧ before.length = bs.length ∧
      List.Forall₂ R before bs ∧ R n m ∧ List.Forall₂ R after as := by
  induction bs generalizing q with
  | nil =>
    obtain ⟨n, after, hn, hafter, rfl⟩ := List.forall₂_cons_right_iff.mp h
    exact ⟨[], n, after, rfl, rfl, .nil, hn, hafter⟩
  | cons b bs ih =>
    obtain ⟨x, q, hx, hq, rfl⟩ := List.forall₂_cons_right_iff.mp h
    obtain ⟨before, n, after, rfl, hlen, hb, hn, ha⟩ := ih hq
    exact ⟨x :: before, n, after, rfl, by simp [hlen], .cons hx hb, hn, ha⟩

/-- A bound on all keys of a list of entries, said entry by entry. -/
theorem sided {ns : NodeStore} {q : List NodeIdx} {ks : List Freq} {P : Nat → Prop}
    (h : List.Forall₂ (fun n k => key ns n = some k) q ks) (hP : ∀ k ∈ ks, P k.toNat) :
    ∀ x ∈ q, ∃ kx, key ns x = some kx ∧ P kx.toNat := by
  induction h with
  | nil => simp
  | cons hk _ ih =>
    intro x hx
    rcases List.mem_cons.mp hx with rfl | hx
    · exact ⟨_, hk, hP _ (by simp)⟩
    · exact ih (fun k hk => hP k (by simp [hk])) x hx

/-- An extraction that answers has taken the earliest of the minima. -/
theorem extractMin_eq_some {ns : NodeStore} {q : List NodeIdx} {x : Extracted} (h : extractMin ns q = some x) :
    ∃ before after, EarliestMin ns q before x.node x.freq after ∧ x.rest = before ++ after := by
  unfold extractMin at h
  split at h
  · cases h
  next ks hks =>
  split at h
  · cases h
  next j m hm =>
  split at h
  · cases h
  next n hn =>
  obtain rfl := Option.some.inj h
  obtain ⟨bs, as, rfl, rfl, hb, ha⟩ := minPos_eq_some hm
  obtain ⟨before, y, after, rfl, hlen, hbefore, hy, hafter⟩ := forall₂_split (pqKeys_eq_some_iff.mp hks)
  obtain rfl : y = n := by simpa [← hlen] using hn
  refine ⟨before, after, ⟨rfl, hy, sided hbefore hb, sided hafter ha⟩, ?_⟩
  simp [← hlen, List.eraseIdx_append_of_length_le]

/-- An extraction answers unless the queue is empty or an entry is not allocated. -/
theorem extractMin_isSome_iff (ns : NodeStore) (q : List NodeIdx) :
    (extractMin ns q).isSome ↔ q ≠ [] ∧ ∀ n ∈ q, n.toNat < ns.length := by
  constructor
  · intro h
    obtain ⟨x, hx⟩ := Option.isSome_iff_exists.mp h
    obtain ⟨before, after, ⟨hq, hrest⟩, -⟩ := extractMin_eq_some hx
    refine ⟨by simp [hq], (pqKeys_isSome_iff ns q).mp ?_⟩
    obtain ⟨bs, as, hks, -⟩ := earliestMin_keys ⟨hq, hrest⟩
    simp [hks]
  · rintro ⟨hne, hall⟩
    obtain ⟨ks, hks⟩ := Option.isSome_iff_exists.mp ((pqKeys_isSome_iff ns q).mpr hall)
    have hlen := (pqKeys_eq_some_iff.mp hks).length_eq
    have hks' : ks ≠ [] := by
      rintro rfl
      exact hne (List.length_eq_zero_iff.mp hlen)
    obtain ⟨⟨j, m⟩, hm⟩ := Option.isSome_iff_exists.mp ((minPos_isSome_iff ks).mpr hks')
    obtain ⟨bs, as, rfl, rfl, -⟩ := minPos_eq_some hm
    have hj : bs.length < q.length := by simp [hlen]
    simp [extractMin, hks, hm, hj]

/-- What an extraction leaves: one entry fewer, the others in their order. -/
theorem extractMin_rest {ns : NodeStore} {q : List NodeIdx} {x : Extracted} (h : extractMin ns q = some x) :
    x.rest.Sublist q ∧ x.rest.length + 1 = q.length ∧ x.node ∈ q ∧ key ns x.node = some x.freq := by
  obtain ⟨before, after, ⟨rfl, hk, -⟩, hr⟩ := extractMin_eq_some h
  refine ⟨?_, by simp [hr]; omega, by simp, hk⟩
  rw [hr]
  exact List.Sublist.append_left (List.sublist_cons_self _ _) _

/-! ### The merge step (R103) -/

/-- What a merge step that completes has done. -/
theorem mergeStep_eq_merged {s t : State} {n : NodeIdx} {f : Freq} (h : mergeStep s = .merged n f t) :
    ∃ a b, extractMin s.nodes s.pq = some a ∧ extractMin s.nodes a.rest = some b ∧
      f.toNat = a.freq.toNat + b.freq.toNat ∧ s.storeFull = false ∧ n = s.nodeCount ∧
      t = (s.withPq (b.rest ++ [n])).allocNode (.internal f a.node b.node) := by
  unfold mergeStep mergeNodes at h
  split at h
  · cases h
  split at h
  · cases h
  next a ha =>
  split at h
  · cases h
  next b hb =>
  split at h
  · cases h
  next hsum =>
  split at h
  · cases h
  next hfull =>
  cases h
  refine ⟨a, b, ha, hb, ?_, by simpa using hfull, rfl, rfl⟩
  simp only [Config.freqMax, not_lt] at hsum
  rw [BitVec.toNat_add, Nat.mod_eq_of_lt (by omega)]

/-- Why a merge step fails, and that it fails for that reason alone (R103 steps 1, 3, 4). -/
theorem mergeStep_eq_failed {s : State} {e : ErrKind} (h : mergeStep s = .failed e) :
    (s.pq.length < 2 ∧ e = .emptyStructure) ∨
      ∃ a b, extractMin s.nodes s.pq = some a ∧ extractMin s.nodes a.rest = some b ∧
        ((Config.freqMax < a.freq.toNat + b.freq.toNat ∧ e = .freqOverflow) ∨
          (a.freq.toNat + b.freq.toNat ≤ Config.freqMax ∧ s.storeFull = true ∧ e = .capacity)) := by
  unfold mergeStep mergeNodes at h
  split at h
  · next hlen =>
    cases h
    exact .inl ⟨hlen, rfl⟩
  split at h
  · cases h
  next a ha =>
  split at h
  · cases h
  next b hb =>
  refine .inr ⟨a, b, ha, hb, ?_⟩
  split at h
  · next hsum =>
    cases h
    exact .inl ⟨hsum, rfl⟩
  next hsum =>
  split at h
  · next hfull =>
    cases h
    exact .inr ⟨not_lt.mp hsum, hfull, rfl⟩
  · cases h

/-- A merge step has an answer when the entries of the queue are allocated. -/
theorem mergeStep_ne_stuck {s : State} (h : QueueAllocated s) : mergeStep s ≠ .stuck := by
  unfold mergeStep mergeNodes
  split
  · simp
  next hlen =>
  have hne : s.pq ≠ [] := by
    rintro h0
    simp [h0] at hlen
  obtain ⟨a, ha⟩ := Option.isSome_iff_exists.mp ((extractMin_isSome_iff s.nodes s.pq).mpr ⟨hne, h⟩)
  obtain ⟨hsub, hl, -, -⟩ := extractMin_rest ha
  have hne' : a.rest ≠ [] := by
    rintro h0
    simp [h0] at hl
    omega
  obtain ⟨b, hb⟩ := Option.isSome_iff_exists.mp
    ((extractMin_isSome_iff s.nodes a.rest).mpr ⟨hne', fun n hn => h n (hsub.subset hn)⟩)
  simp only [ha, hb]
  split <;> [simp; (split <;> simp)]

/-- A merge step takes one entry off the queue and adds one node (R103). -/
theorem mergeStep_counts {s t : State} {n : NodeIdx} {f : Freq} (h : mergeStep s = .merged n f t) :
    t.pq.length + 1 = s.pq.length ∧ t.nodes.length = s.nodes.length + 1 := by
  obtain ⟨a, b, ha, hb, -, -, -, rfl⟩ := mergeStep_eq_merged h
  have h1 := (extractMin_rest ha).2.1
  have h2 := (extractMin_rest hb).2.1
  constructor <;> simp
  omega

/-- The two extractions of a merge step, said through the entries the spec names. -/
theorem nextMergeKeys_iff {s : State} {ka kb : Freq} : NextMergeKeys s ka kb ↔
    ∃ a b, extractMin s.nodes s.pq = some a ∧ extractMin s.nodes a.rest = some b ∧ a.freq = ka ∧ b.freq = kb := by
  constructor
  · rintro ⟨before, a, after, before', b, after', ha, hb⟩
    exact ⟨_, _, extractMin_of_earliestMin ha, extractMin_of_earliestMin hb, rfl, rfl⟩
  · rintro ⟨a, b, ha, hb, rfl, rfl⟩
    obtain ⟨before, after, hma, hra⟩ := extractMin_eq_some ha
    obtain ⟨before', after', hmb, -⟩ := extractMin_eq_some hb
    exact ⟨before, a.node, after, before', b.node, after', hma, hra ▸ hmb⟩

/-- With two minima to extract, the queue is long enough and the step is decided by their sum and the room. -/
theorem mergeStep_of_nextMergeKeys {s : State} {ka kb : Freq} (h : NextMergeKeys s ka kb) :
    1 < s.pq.length ∧ ∃ a b, a.freq = ka ∧ b.freq = kb ∧ mergeStep s = mergeNodes s a b := by
  obtain ⟨a, b, ha, hb, rfl, rfl⟩ := nextMergeKeys_iff.mp h
  have h1 := (extractMin_rest ha).2.1
  have h2 := (extractMin_rest hb).2.1
  refine ⟨by omega, a, b, rfl, rfl, ?_⟩
  simp [mergeStep, ha, hb, show ¬ s.pq.length < 2 by omega]

/-- A merge step raises FreqOverflowError exactly when its sum is too large (R188). -/
theorem mergeStep_freqOverflow_iff {s : State} : mergeStep s = .failed .freqOverflow ↔ SumTooLarge s := by
  constructor
  · intro h
    rcases mergeStep_eq_failed h with ⟨-, he⟩ | ⟨a, b, ha, hb, ⟨hsum, -⟩ | ⟨-, -, he⟩⟩
    · cases he
    · exact ⟨_, _, nextMergeKeys_iff.mpr ⟨a, b, ha, hb, rfl, rfl⟩, hsum⟩
    · cases he
  · rintro ⟨ka, kb, hk, hsum⟩
    obtain ⟨-, a, b, rfl, rfl, hm⟩ := mergeStep_of_nextMergeKeys hk
    have hover : Config.freqMax < a.freq.toNat + b.freq.toNat := hsum
    rw [hm, mergeNodes, if_pos hover]

/-- A merge step raises CapacityError exactly when its sum fits and the store is full (R187). -/
theorem mergeStep_capacity_iff {s : State} : mergeStep s = .failed .capacity ↔ NoRoomToMerge s := by
  constructor
  · intro h
    rcases mergeStep_eq_failed h with ⟨-, he⟩ | ⟨a, b, ha, hb, ⟨-, he⟩ | ⟨hsum, hfull, -⟩⟩
    · cases he
    · cases he
    · exact ⟨_, _, nextMergeKeys_iff.mpr ⟨a, b, ha, hb, rfl, rfl⟩, hsum, of_decide_eq_true hfull⟩
  · rintro ⟨ka, kb, hk, hsum, hfull⟩
    obtain ⟨-, a, b, rfl, rfl, hm⟩ := mergeStep_of_nextMergeKeys hk
    have hfull' : s.storeFull = true := decide_eq_true hfull
    have hfits : ¬ Config.freqMax < a.freq.toNat + b.freq.toNat := not_lt.mpr hsum
    rw [hm, mergeNodes, if_neg hfits, if_pos hfull']

/-! ### The loop of BUILD (R108, R115) -/

/-- What the loop has done when it ends: completed passes, and then either at most one entry or a pass that fails. -/
theorem buildLoop_cases {fuel : Nat} {s : State} (hfuel : s.pq.length ≤ fuel) :
    (∃ k t, buildLoop fuel s = .finished t ∧ Passes k s t ∧ t.pq.length ≤ 1) ∨
      (∃ k e t, buildLoop fuel s = .failed e t ∧ Passes k s t ∧ 1 < t.pq.length ∧ mergeStep t = .failed e) ∨
      ∃ k t, buildLoop fuel s = .stuck ∧ Passes k s t ∧ 1 < t.pq.length ∧ mergeStep t = .stuck := by
  induction fuel generalizing s with
  | zero => exact .inl ⟨0, s, rfl, .none s, by omega⟩
  | succ fuel ih =>
    rw [buildLoop]
    split
    · next hle => exact .inl ⟨0, s, rfl, .none s, hle⟩
    next hgt =>
    cases hm : mergeStep s with
    | merged n f t =>
      have := (mergeStep_counts hm).1
      rcases ih (s := t) (by omega) with ⟨k, u, h1, h2, h3⟩ | ⟨k, e, u, h1, h2, h3⟩ | ⟨k, u, h1, h2, h3⟩
      · exact .inl ⟨k + 1, u, h1, .more hm h2, h3⟩
      · exact .inr (.inl ⟨k + 1, e, u, h1, .more hm h2, h3⟩)
      · exact .inr (.inr ⟨k + 1, u, h1, .more hm h2, h3⟩)
    | failed e => exact .inr (.inl ⟨0, e, s, rfl, .none s, by omega, hm⟩)
    | stuck => exact .inr (.inr ⟨0, s, rfl, .none s, by omega, hm⟩)

/-- `k` passes take `k` entries off the queue and add `k` nodes. -/
theorem passes_counts {k : Nat} {s t : State} (h : Passes k s t) :
    t.pq.length + k = s.pq.length ∧ t.nodes.length = s.nodes.length + k := by
  induction h with
  | none s => simp
  | more first _ ih =>
    have := mergeStep_counts first
    omega

/-- A pass that fails after some completed ones ends the loop with its error, in the state before it (R115). -/
theorem buildLoop_of_passes_failed {fuel k : Nat} {s t : State} {e : ErrKind} (h : Passes k s t)
    (hfuel : s.pq.length ≤ fuel) (hlen : 1 < t.pq.length) (hm : mergeStep t = .failed e) : buildLoop fuel s = .failed e t := by
  induction h generalizing fuel with
  | none s =>
    obtain ⟨fuel, rfl⟩ : ∃ f, fuel = f + 1 := ⟨fuel - 1, by omega⟩
    simp [buildLoop, hm, show ¬ s.pq.length ≤ 1 by omega]
  | more first others ih =>
    have hc := mergeStep_counts first
    have hp := passes_counts others
    obtain ⟨fuel, rfl⟩ : ∃ f, fuel = f + 1 := ⟨fuel - 1, by omega⟩
    rw [buildLoop, if_neg (by omega), first]
    exact ih (by omega) hlen hm

end Sys2Proof.Laws
end

