-- ==== Sys2Proof/Laws/Meanings.lean ====
section
/-! SUPPORT. One inversion lemma per gated meaning: if it answers a next state, one of these cases holds. CLR, STAT and SIZE need
none (their next state is their definition), nor the ports: no meaning touches the input. -/

namespace Sys2Proof.Laws

open Sys2Proof.Machine Sys2Proof.Safety

/-- The block was faulted and answered its recorded code (R192). -/
def Gated (s t : State) : Prop := s.err ≠ 0#4 ∧ t = s.withRsp (some (rspWord s.err 0#64))

/-- The command raised this error from the state `s` (R190). -/
def Raised (s t : State) (e : ErrKind) : Prop :=
  s.err = 0#4 ∧ t = (s.withErr e.code).withRsp (some (rspWord e.code 0#64))

/-- The command answered OK and its effect is the state `u`. -/
def Answered (s t u : State) (d : Data) : Prop := s.err = 0#4 ∧ t = u.withRsp (some (rspWord 0#4 d))

theorem gated_next {s t : State} {r : Result} (h : faultGate s r = .next t) : Gated s t ∨ (s.err = 0#4 ∧ r = .next t) := by
  rcases faultGate_cases h with ⟨hz, hr⟩ | ⟨hz, ht⟩
  · exact .inr ⟨hz, hr.symm⟩
  · exact .inl ⟨hz, Host.Outcome.next.inj ht⟩

theorem raised_next {s t : State} {e : ErrKind} (hz : s.err = 0#4) (h : raiseError s e = .next t) : Raised s t e := by
  rw [raiseError_of_err_zero e hz] at h
  exact ⟨hz, (Host.Outcome.next.inj h).symm⟩

theorem answered_next {s t u : State} {d : Data} (hz : s.err = 0#4) (h : respondOk u d = .next t) : Answered s t u d :=
  ⟨hz, respondOk_eq_next_iff.mp h⟩

theorem execLeaf_eq_next {s t : State} {sym : Symbol} {freq : Freq} (h : execLeaf sym freq s = .next t) :
    Gated s t ∨ (s.tv = true ∧ Raised s t .sequence) ∨
      (s.tv = false ∧ (s.storeFull = true ∨ s.queueFull = true) ∧ Raised s t .capacity) ∨
      (s.tv = false ∧ s.storeFull = false ∧ s.queueFull = false ∧
        Answered s t ((s.allocNode (.leaf sym freq)).pqInsert s.nodeCount) (leafData s.nodeCount)) := by
  rcases gated_next h with hg | ⟨hz, h⟩
  · exact .inl hg
  split at h
  · next htv => exact .inr (.inl ⟨htv, raised_next hz h⟩)
  next htv =>
  split at h
  · next hfull => exact .inr (.inr (.inl ⟨by simpa using htv, by simpa using hfull, raised_next hz h⟩))
  next hroom =>
  simp only [Bool.or_eq_true, not_or, Bool.not_eq_true] at hroom
  exact .inr (.inr (.inr ⟨by simpa using htv, hroom.1, hroom.2, answered_next hz h⟩))

theorem execXmin_eq_next {s t : State} (h : execXmin s = .next t) :
    Gated s t ∨ (s.tv = true ∧ Raised s t .sequence) ∨ (s.tv = false ∧ s.pq = [] ∧ Raised s t .emptyStructure) ∨
      (s.tv = false ∧ ∃ x, extractMin s.nodes s.pq = some x ∧
        Answered s t (s.withPq x.rest) (freqIdxData x.freq x.node)) := by
  rcases gated_next h with hg | ⟨hz, h⟩
  · exact .inl hg
  split at h
  · next htv => exact .inr (.inl ⟨htv, raised_next hz h⟩)
  next htv =>
  split at h
  · next hemp => exact .inr (.inr (.inl ⟨by simpa using htv, by simpa using hemp, raised_next hz h⟩))
  split at h
  · cases h
  next x hx => exact .inr (.inr (.inr ⟨by simpa using htv, x, hx, answered_next hz h⟩))

theorem execMerge_eq_next {s t : State} (h : execMerge s = .next t) :
    Gated s t ∨ (s.tv = true ∧ Raised s t .sequence) ∨
      (s.tv = false ∧ ∃ e, mergeStep s = .failed e ∧ Raised s t e) ∨
      (s.tv = false ∧ ∃ n f u, mergeStep s = .merged n f u ∧ Answered s t u (freqIdxData f n)) := by
  rcases gated_next h with hg | ⟨hz, h⟩
  · exact .inl hg
  split at h
  · next htv => exact .inr (.inl ⟨htv, raised_next hz h⟩)
  next htv =>
  split at h
  · next n f u hm => exact .inr (.inr (.inr ⟨by simpa using htv, n, f, u, hm, answered_next hz h⟩))
  · next e he => exact .inr (.inr (.inl ⟨by simpa using htv, e, he, raised_next hz h⟩))
  · cases h

/-- A merge step touches the queue and the store alone. -/
theorem mergeStep_others {s t : State} {n : NodeIdx} {f : Freq} (h : mergeStep s = .merged n f t) :
    t = { s with nodes := t.nodes, pq := t.pq } := by
  obtain ⟨a, b, -, -, -, -, -, rfl⟩ := mergeStep_eq_merged h
  rfl

/-- Completed passes touch the queue and the store alone. -/
theorem passes_others {k : Nat} {s t : State} (h : Passes k s t) : t = { s with nodes := t.nodes, pq := t.pq } := by
  induction h with
  | none s => rfl
  | more first _ ih =>
    rw [mergeStep_others first] at ih
    exact ih

theorem finishBuild_eq_next {s t : State} (hz : s.err = 0#4) (h : finishBuild s = .next t) :
    (s.pq = [] ∧ Answered s t s 0#64) ∨
      ∃ n q rec, s.pq = n :: q ∧ s.nodeRead n = some rec ∧ Answered s t (s.formTree n) (buildData rec.freq n) := by
  unfold finishBuild at h
  split at h
  · next hq => exact .inl ⟨hq, answered_next hz h⟩
  next n q hq =>
  split at h
  · cases h
  next rec hrec => exact .inr ⟨n, q, rec, hq, hrec, answered_next hz h⟩

theorem execBuild_eq_next {s t : State} (h : execBuild s = .next t) :
    Gated s t ∨ (s.tv = true ∧ Raised s t .sequence) ∨
      (s.tv = false ∧ s.err = 0#4 ∧ ∃ k u, Passes k s u ∧
        ((u.pq = [] ∧ Answered u t u 0#64) ∨
          (∃ n rec, u.pq = [n] ∧ u.nodeRead n = some rec ∧ Answered u t (u.formTree n) (buildData rec.freq n)) ∨
          ∃ e, 1 < u.pq.length ∧ mergeStep u = .failed e ∧ Raised u t e)) := by
  rcases gated_next h with hg | ⟨hz, h⟩
  · exact .inl hg
  split at h
  · next htv => exact .inr (.inl ⟨htv, raised_next hz h⟩)
  next htv =>
  refine .inr (.inr ⟨by simpa using htv, hz, ?_⟩)
  have herr : ∀ {k : Nat} {u : State}, Passes k s u → u.err = 0#4 := fun hp => by rw [passes_others hp]; exact hz
  rcases buildLoop_cases (le_refl s.pq.length) with ⟨k, u, hb, hp, hlen⟩ | ⟨k, e, u, hb, hp, hlen, hm⟩ | ⟨k, u, hb, -⟩
  · rw [hb] at h
    refine ⟨k, u, hp, ?_⟩
    rcases finishBuild_eq_next (herr hp) h with hnil | ⟨n, q, rec, hq, hrec, ha⟩
    · exact .inl hnil
    · have : q = [] := by
        rw [hq] at hlen
        simpa using hlen
      exact .inr (.inl ⟨n, rec, by rw [hq, this], hrec, ha⟩)
  · rw [hb] at h
    exact ⟨k, u, hp, .inr (.inr ⟨e, hlen, hm, raised_next (herr hp) h⟩)⟩
  · rw [hb] at h
    cases h

theorem execDend_eq_next {s t : State} (h : execDend s = .next t) :
    Gated s t ∨ (s.tv = true ∧ s.cur ≠ s.root ∧ Raised s t .truncatedStream) ∨
      ((s.tv = false ∨ s.cur = s.root) ∧ Answered s t s 0#64) := by
  rcases gated_next h with hg | ⟨hz, h⟩
  · exact .inl hg
  split at h
  · next hc =>
    simp only [State.atRoot, Bool.and_eq_true, Bool.not_eq_true', Bool.and_eq_false_iff, beq_eq_false_iff_ne] at hc
    exact .inr (.inl ⟨hc.1, by simpa [hc.1] using hc.2, raised_next hz h⟩)
  · next hc =>
    refine .inr (.inr ⟨?_, answered_next hz h⟩)
    by_cases htv : s.tv = true
    · exact .inr (by simpa [State.atRoot, htv] using hc)
    · exact .inl (by simpa using htv)

/-- Everything an arrival at a node can be (R131). -/
theorem arriveAt_eq_next {s t : State} {c : NodeIdx} (hz : s.err = 0#4) (h : arriveAt s c = .next t) :
    (∃ sym f, nodeAt s.nodes c = some (.leaf sym f) ∧ Answered s t (s.withCur s.root) (emitData sym)) ∨
      ∃ f l r, nodeAt s.nodes c = some (.internal f l r) ∧ Answered s t (s.withCur c) 0#64 := by
  unfold arriveAt at h
  split at h
  · cases h
  · next sym f hn => exact .inl ⟨sym, f, hn, answered_next hz h⟩
  · next f l r hn => exact .inr ⟨f, l, r, hn, answered_next hz h⟩

theorem execDbit_eq_next {s t : State} {v : StreamElem} (h : execDbit v s = .next t) :
    Gated s t ∨ (s.tv = false ∧ Raised s t .nullTree) ∨ (s.tv = true ∧ streamBit v = none ∧ Raised s t .invalidBit) ∨
      (s.tv = true ∧ ∃ b, streamBit v = some b ∧
        ((∃ sym f, nodeAt s.nodes s.root = some (.leaf sym f) ∧ Answered s t s (emitData sym)) ∨
          ∃ f l r n, nodeAt s.nodes s.root = some (.internal f l r) ∧ nodeAt s.nodes s.cur = some n ∧
            ((∃ sym g, nodeAt s.nodes (n.child b) = some (.leaf sym g) ∧
                Answered s t (s.withCur s.root) (emitData sym)) ∨
              ∃ g l' r', nodeAt s.nodes (n.child b) = some (.internal g l' r') ∧
                Answered s t (s.withCur (n.child b)) 0#64))) := by
  rcases gated_next h with hg | ⟨hz, h⟩
  · exact .inl hg
  split at h
  · next htv => exact .inr (.inl ⟨by simpa using htv, raised_next hz h⟩)
  next htv =>
  split at h
  · next hv => exact .inr (.inr (.inl ⟨by simpa using htv, hv, raised_next hz h⟩))
  next b hb =>
  refine .inr (.inr (.inr ⟨by simpa using htv, b, hb, ?_⟩))
  split at h
  · cases h
  next root hroot =>
  unfold walkBit at h
  split at h
  · exact .inl ⟨_, _, hroot, answered_next hz h⟩
  split at h
  · cases h
  next n hn => exact .inr ⟨_, _, _, n, hroot, hn, arriveAt_eq_next hz h⟩

/-- The elements that are bits, and those that are not (R131). -/
theorem streamBit_eq_none_iff (v : StreamElem) : streamBit v = none ↔ 2 ≤ v.toNat := by
  unfold streamBit
  split
  · next h => simp [h]
  · split
    · next h => simp [h]
    · next h0 h1 =>
      simp only [true_iff]
      have h0' : v.toNat ≠ 0 := fun h => h0 (BitVec.eq_of_toNat_eq h)
      have h1' : v.toNat ≠ 1 := fun h => h1 (BitVec.eq_of_toNat_eq h)
      omega

theorem execNode_eq_next {s t : State} {idx : NodeIdx} (h : execNode idx s = .next t) :
    Gated s t ∨ (∃ n, nodeAt s.nodes idx = some n ∧ Answered s t s (nodeData n)) ∨
      (nodeAt s.nodes idx = none ∧ Answered s t s 0#64) := by
  rcases gated_next h with hg | ⟨hz, h⟩
  · exact .inl hg
  split at h
  · next n hn => exact .inr (.inl ⟨n, hn, answered_next hz h⟩)
  · next hn => exact .inr (.inr ⟨hn, answered_next hz h⟩)

end Sys2Proof.Laws
end

