-- ==== Sys2Proof/Laws/PerInstr.lean ====
section
/-! SUPPORT. Per-instruction statements. EncodingRow: the word of a command is selected by the row of spec/30_encoding.md R76
that has its mnemonic. -/

namespace Sys2Proof.Laws.EncodingRow

/-- Some row of the match and mask table with the command's mnemonic selects the command's word (R76). -/
def Statement (i : Instr) : Prop := ∃ r ∈ opcodeRows, r.mnemonic = mnemonicOf i ∧ r.selects (encode i) = true

/-- A row found by its place in the table. -/
theorem of_row {i : Instr} (k : Fin opcodeRows.length) (hm : (opcodeRows.get k).mnemonic = mnemonicOf i)
    (hs : encode i &&& (opcodeRows.get k).maskBits = (opcodeRows.get k).matchBits) : Statement i :=
  ⟨opcodeRows.get k, List.get_mem _ _, hm, by simpa [OpcodeRow.selects] using hs⟩

/-- Masking a word of format C masks each of its fields. -/
theorem masked {op mop wop : BitVec 4} {a ma wa : BitVec 12} {f mf wf : BitVec 32} {mask want : CmdWord}
    (hmask : mask = mop ++ ma ++ mf) (hwant : want = wop ++ wa ++ wf) (hop : op &&& mop = wop) (ha : a &&& ma = wa)
    (hf : f &&& mf = wf) : formatC op a f &&& mask = want := by
  rw [formatC, hmask, hwant, BitVec.and_append, BitVec.and_append, hop, ha, hf]

/-- The mask of a field's must-be-zero top bits keeps nothing of an operand below them. -/
theorem operand_masked {m n : Nat} (top : BitVec m) (x : BitVec n) : (0#m ++ x) &&& (top ++ 0#n) = 0#m ++ 0#n := by
  rw [BitVec.and_append, BitVec.zero_and, BitVec.and_zero]

theorem clr : Statement .clr := of_row ⟨0, by decide⟩ rfl (by decide)

theorem leaf (sym : Symbol) (freq : Freq) : Statement (.leaf sym freq) :=
  of_row ⟨1, by decide⟩ rfl
    (masked (mop := 0xF#4) (ma := 0xF#4 ++ 0#8) (mf := 0#32) (by decide) (by decide) rfl (operand_masked _ _) BitVec.and_zero)

theorem xmin : Statement .xmin := of_row ⟨2, by decide⟩ rfl (by decide)

theorem size : Statement .size := of_row ⟨3, by decide⟩ rfl (by decide)

theorem merge : Statement .merge := of_row ⟨4, by decide⟩ rfl (by decide)

theorem build : Statement .build := of_row ⟨5, by decide⟩ rfl (by decide)

theorem dbit (v : StreamElem) : Statement (.dbit v) :=
  of_row ⟨6, by decide⟩ rfl
    (masked (mop := 0xF#4) (ma := 0xF#4 ++ 0#8) (mf := 0xFFFFFFFF#32) (by decide) (by decide) rfl (operand_masked _ _) rfl)

theorem dend : Statement .dend := of_row ⟨7, by decide⟩ rfl (by decide)

theorem stat : Statement .stat := of_row ⟨8, by decide⟩ rfl (by decide)

theorem node (idx : NodeIdx) : Statement (.node idx) :=
  of_row ⟨9, by decide⟩ rfl
    (masked (mop := 0xF#4) (ma := 0x7#3 ++ 0#9) (mf := 0xFFFFFFFF#32) (by decide) (by decide) rfl (operand_masked _ _) rfl)

end Sys2Proof.Laws.EncodingRow
end

