-- ==== Sys2Proof/Tests/Slice0.lean ====
section
/-! SUPPORT. The model's own tests: the word checks of WellFormed, the encodings written out bit by bit, at most two small tests
per instruction with the results spec/95_test_vectors.md gives, and for every obligation with hypotheses a witness that meets
them. -/

namespace Sys2Proof.Tests

open Sys2Proof Sys2Proof.Machine Sys2Proof.Safety

/-! ### Well-formed words (R74, R75, R82) -/

theorem test_opcode_zero_refused : CmdWord.opcodeAssigned 0x000000000000#48 = false := by decide
theorem test_opcode_above_ten_refused : CmdWord.opcodeAssigned 0xB00000000000#48 = false := by decide
theorem test_clr_low_bit_refused : CmdWord.reservedZero 0x100000000001#48 = false := by decide
theorem test_leaf_bit40_refused : CmdWord.reservedZero 0x216100000001#48 = false := by decide
theorem test_dbit_bit40_refused : CmdWord.reservedZero 0x710000000000#48 = false := by decide
theorem test_dbit_low_bit_refused : CmdWord.reservedZero 0x700000000001#48 = false := by decide
theorem test_node_bit41_refused : CmdWord.reservedZero 0xA20000000000#48 = false := by decide
theorem test_node_low_bit_refused : CmdWord.reservedZero 0xA00000000001#48 = false := by decide
theorem test_wellFormed_accepts : CmdWord.wellFormed 0xA1FF00000000#48 = true := by decide

/-! ### Encodings, `op` 47:44, then bits 43:40, 39:32 and 31:0 (R71, R73) -/

theorem test_decode_clr : decode 0b000100000000000000000000000000000000000000000000#48 = .ok .clr := by decide
theorem test_decode_leaf : decode 0b001000000110000100000000000000000000000000000101#48 = .ok (.leaf 0x61#8 5#32) := by decide
theorem test_decode_xmin : decode 0b001100000000000000000000000000000000000000000000#48 = .ok .xmin := by decide
theorem test_decode_size : decode 0b010000000000000000000000000000000000000000000000#48 = .ok .size := by decide
theorem test_decode_merge : decode 0b010100000000000000000000000000000000000000000000#48 = .ok .merge := by decide
theorem test_decode_build : decode 0b011000000000000000000000000000000000000000000000#48 = .ok .build := by decide
theorem test_decode_dbit : decode 0b011100000000000100000000000000000000000000000000#48 = .ok (.dbit 1#8) := by decide
theorem test_decode_dend : decode 0b100000000000000000000000000000000000000000000000#48 = .ok .dend := by decide
theorem test_decode_stat : decode 0b100100000000000000000000000000000000000000000000#48 = .ok .stat := by decide
theorem test_decode_node : decode 0b101000010000000000000000000000000000000000000000#48 = .ok (.node 256#9) := by decide

/-- Rejections carry their reason (T5, T17, T20). -/
theorem test_decode_rejects :
    decode 0x210000000000#48 = .error (.reservedBitSet "LEAF") ∧
    decode 0xC00000000000#48 = .error (.unassignedOpcode 0xC#4) ∧
    decode 0x800100000000#48 = .error (.reservedBitSet "DEND") := by decide

theorem test_decodeTableWord : decodeTableWord 48 0x700100000000 = some (.dbit 1#8) ∧ decodeTableWord 48 0 = none := by decide

/-- The pseudo-instruction (R81). -/
theorem test_dbits : dbits ['1', '0'] = some [.dbit 1#8, .dbit 0#8] ∧ dbits ['2'] = none := by decide

/-! ### Small states -/

/-- T37 before its BUILD: two leaves. -/
def twoLeaves : State :=
  { State.reset with nodes := [.leaf 0x61#8 1#32, .leaf 0x62#8 1#32], pq := [0#9, 1#9] }

/-- T37 after its BUILD: the two-leaf tree. -/
def twoLeafTree : State :=
  { State.reset with
    nodes := [.leaf 0x61#8 1#32, .leaf 0x62#8 1#32, .internal 2#32 0#9 1#9]
    pq := [2#9]
    root := 2#9
    cur := 2#9
    tv := true }

/-- T27 after its BUILD: three leaves, c = 0, a = 10, b = 11. -/
def threeLeafTree : State :=
  { State.reset with
    nodes := [.leaf 0x61#8 1#32, .leaf 0x62#8 1#32, .leaf 0x63#8 1#32, .internal 2#32 0#9 1#9, .internal 3#32 2#9 3#9]
    pq := [4#9]
    root := 4#9
    cur := 4#9
    tv := true }

/-- T43 after its BUILD: the degenerate tree. -/
def oneLeafTree : State :=
  { State.reset with nodes := [.leaf 0x61#8 4#32], pq := [0#9], root := 0#9, cur := 0#9, tv := true }

/-- T31 before its MERGE: two frequencies whose sum does not fit. -/
def heavyLeaves : State :=
  { State.reset with nodes := [.leaf 0x61#8 4294967295#32, .leaf 0x62#8 1#32], pq := [0#9, 1#9] }

/-- One leaf queued. -/
def oneLeaf : State := { State.reset with nodes := [.leaf 0x61#8 4#32], pq := [0#9] }

/-- The state after a run, and what its last response was. -/
def after (is : List Instr) (s : State) : Option (State × Option RspWord) :=
  (runCommands is s).map fun x => (x.2, x.1.getLast?)

/-- The state a meaning answers. -/
def nextOf (r : Result) : Option State :=
  match r with
  | .next t => some t
  | _ => none

/-! ### One or two tests per instruction -/

/-- R104's example. -/
theorem test_leaf : after [.leaf 0x61#8 5#32] State.reset =
    some ({ State.reset with nodes := [.leaf 0x61#8 5#32], pq := [0#9], rsp := some (rspWord 0#4 0#64) },
      some (rspWord 0#4 0#64)) := by decide

/-- T35: no leaf on a frozen block. -/
theorem test_leaf_frozen : (after [.leaf 0x63#8 1#32, .stat] twoLeafTree).map Prod.snd =
    some (some (rspWord 0#4 0x000020020030013B#64)) := by decide

/-- P5, lines 7 and 8: the earlier of two equal minima first. -/
theorem test_xmin_ties : (after [.leaf 0x78#8 5#32, .leaf 0x79#8 3#32, .leaf 0x7A#8 8#32, .leaf 0x77#8 3#32, .xmin]
    State.reset).map (fun x => (x.1.pq, x.2)) = some ([0#9, 2#9, 3#9], some (rspWord 0#4 0x0000000300000001#64)) := by decide

/-- T25. -/
theorem test_xmin_empty : (after [.xmin, .stat] State.reset).map Prod.snd = some (some (rspWord 0#4 1#64)) := by decide

/-- P1, line 9: after BUILD the root is still queued. -/
theorem test_size_with_tree : (after [.size] twoLeafTree).map Prod.snd = some (some (rspWord 0#4 1#64)) := by decide

/-- T27, lines 4 and 5: the merged node loses the tie and becomes the right child. -/
theorem test_merge : (after [.leaf 0x61#8 1#32, .leaf 0x62#8 1#32, .leaf 0x63#8 1#32, .merge, .merge] State.reset).map
    (fun x => (x.1.nodes.drop 3, x.1.tv, x.2)) =
    some ([.internal 2#32 0#9 1#9, .internal 3#32 2#9 3#9], false, some (rspWord 0#4 0x0000000300000004#64)) := by decide

/-- T30: the largest sum that fits. -/
theorem test_merge_largest_sum : (after [.leaf 0x61#8 4294967294#32, .leaf 0x62#8 1#32, .merge] State.reset).map Prod.snd =
    some (some (rspWord 0#4 0xFFFFFFFF00000002#64)) := by decide

/-- T37. -/
theorem test_build : (after [.build] twoLeaves).map (fun x => { x.1 with rsp := none }) = some twoLeafTree := by decide

/-- T32: a BUILD that fails in its second pass keeps its first. -/
theorem test_build_fails_late : (after [.leaf 0x61#8 1#32, .leaf 0x62#8 1#32, .leaf 0x63#8 4294967295#32, .build, .stat]
    State.reset).map (fun x => (x.1.pq, x.2)) = some ([2#9, 3#9], some (rspWord 0#4 0x000000000040020A#64)) := by decide

/-- T27's codes: a = 10. -/
theorem test_dbit : (runCommands [.dbit 1#8, .dbit 0#8] threeLeafTree).map (fun x => (x.1, x.2.cur)) =
    some ([rspWord 0#4 0#64, rspWord 0#4 0x0000000000006101#64], 4#9) := by decide

/-- T43, lines 3 and 4: either bit emits on the degenerate tree, 2 is invalid. -/
theorem test_dbit_degenerate : (runCommands [.dbit 1#8, .dbit 2#8] oneLeafTree).map Prod.fst =
    some [rspWord 0#4 0x0000000000006101#64, rspWord 4#4 0#64] := by decide

/-- P4, line 11, on T27's tree: the stream ends mid-path and CUR stays. -/
theorem test_dend_truncated : (after [.dbit 1#8, .dend] threeLeafTree).map (fun x => (x.1.cur, x.1.err, x.2)) =
    some (3#9, 3#4, some (rspWord 3#4 0#64)) := by decide

/-- T44. -/
theorem test_dend_no_tree : (after [.dend] State.reset).map Prod.snd = some (some (rspWord 0#4 0#64)) := by decide

/-- T38, line 10. -/
theorem test_stat : (after [.stat] twoLeafTree).map Prod.snd = some (some (rspWord 0#4 0x0000200200300130#64)) := by decide

/-- T27, line 9. -/
theorem test_node : (after [.node 4#9] threeLeafTree).map Prod.snd = some (some (rspWord 0#4 0x0000000300602003#64)) := by
  decide

/-- T48, line 4. -/
theorem test_node_unallocated : (after [.node 511#9] oneLeaf).map Prod.snd = some (some (rspWord 0#4 0#64)) := by decide

/-- T46: what a faulted block serves, and CLR. -/
theorem test_clr_recovers : (run [0x300000000000#48, 0x000000000000#48, 0x400000000000#48, 0x900000000000#48,
    0x100000000000#48, 0x900000000000#48] State.reset).map Prod.fst =
    some [rspWord 1#4 0#64, rspWord 1#4 0#64, rspWord 1#4 0#64, rspWord 0#4 1#64, rspWord 0#4 0#64, rspWord 0#4 0#64] := by
  decide

/-- T16: an illegal word on a block that is not faulted. -/
theorem test_illegal_word : (nextOf (step (State.reset.withFetchWord 48 0))).map (fun t => (t.err, t.rsp, t.input)) =
    some (8#4, some (rspWord 8#4 0#64), []) := by decide

/-- R210: a reset event answers nothing. -/
theorem test_reset_event : nextOf (step { threeLeafTree with cur := 3#9, rsp := okRsp 0, input := [.rst] }) =
    some State.reset := by decide

/-- T45 on T27's tree, and the host's code table for it. -/
theorem test_decode_stream :
    decodeStream threeLeafTree [0#8, 1#8, 1#8] = some (.ok [0x63#8, 0x62#8]) ∧
    decodeStream threeLeafTree [1#8] = some (.fail 3#4) ∧ decodeStream threeLeafTree [0#8, 2#8, 0#8] = some (.fail 4#4) ∧
    codeTable threeLeafTree = [(0x63#8, [false]), (0x61#8, [true, false]), (0x62#8, [true, true])] := by decide

/-- T27's tree read back with NODE commands from BUILD's `root` field. -/
theorem test_read_tree_back : (readCodeTable (rspWord 0#4 0x0000000300010004#64) threeLeafTree).map Prod.fst =
    some [(0x63#8, [false]), (0x61#8, [true, false]), (0x62#8, [true, true])] := by decide

/-- Two decodes on one tree (R137, R221): the NODE in the first, whose response has bit 0 set as an emission has, does not count,
and the CLR abandons the third (log entry 17). -/
theorem test_decodes_of_run : (decodesOfRun ([.leaf 0x61#8 1#32, .leaf 0x62#8 1#32, .build, .dbit 0#8, .node 0#9, .dend,
    .dbit 1#8, .dbit 1#8, .dend, .dbit 0#8, .clr, .dend].map encode)).map (·.map DecodeSegment.result) =
    some [.ok [0x61#8], .ok [0x62#8, 0x62#8]] := by decide

/-- P2 through the host: the message "aaaa" on a block that is faulted before. -/
theorem test_pipeline_one_symbol : pipeline [(0x61#8, 4)] [0x61#8, 0x61#8, 0x61#8, 0x61#8] { twoLeafTree with err := 3#4 } =
    some (.report [(0x61#8, 4, ['0'])] ['0', '0', '0', '0'] [0x61#8, 0x61#8, 0x61#8, 0x61#8]) := by decide

/-- P3 through the host: the empty message. -/
theorem test_pipeline_empty : pipeline [] [] State.reset = some (.report [] [] []) := by decide

/-! ### Witnesses: states and operands that meet the hypotheses of each obligation -/

theorem twoLeafTree_inv : Inv twoLeafTree where
  store :=
    { bound := by decide
      childBefore := by
        intro p n h
        rcases p with _ | _ | _ | p <;> simp [twoLeafTree] at h <;> subst h <;> simp [children]
      exactSum := by
        intro p f l r h
        rcases p with _ | _ | _ | p <;> simp [twoLeafTree] at h
        obtain ⟨rfl, rfl, rfl⟩ := h
        exact ⟨1#32, 1#32, by decide, by decide, by decide⟩ }
  queueBound := by decide
  queueAllocated := by
    intro n hn
    simp only [twoLeafTree, List.mem_singleton] at hn
    subst hn
    decide
  queueAscending := by decide
  ownedOnce := by decide
  errLegal := by decide
  noTree := by simp [twoLeafTree]
  frozen := fun _ => ⟨rfl, .inl rfl⟩

theorem threeLeafTree_inv : Inv threeLeafTree where
  store :=
    { bound := by decide
      childBefore := by
        intro p n h
        rcases p with _ | _ | _ | _ | _ | p <;> simp [threeLeafTree] at h <;> subst h <;> simp [children]
      exactSum := by
        intro p f l r h
        rcases p with _ | _ | _ | _ | _ | p <;> simp [threeLeafTree] at h <;> obtain ⟨rfl, rfl, rfl⟩ := h
        · exact ⟨1#32, 1#32, by decide, by decide, by decide⟩
        · exact ⟨1#32, 2#32, by decide, by decide, by decide⟩ }
  queueBound := by decide
  queueAllocated := by
    intro n hn
    simp only [threeLeafTree, List.mem_singleton] at hn
    subst hn
    decide
  queueAscending := by decide
  ownedOnce := by decide
  errLegal := by decide
  noTree := by simp [threeLeafTree]
  frozen := fun _ => ⟨rfl, .inl rfl⟩

theorem oneLeafTree_inv : Inv oneLeafTree where
  store :=
    { bound := by decide
      childBefore := by
        intro p n h
        rcases p with _ | p <;> simp [oneLeafTree] at h
        subst h
        simp [children]
      exactSum := by
        intro p f l r h
        rcases p with _ | p <;> simp [oneLeafTree] at h }
  queueBound := by decide
  queueAllocated := by
    intro n hn
    simp only [oneLeafTree, List.mem_singleton] at hn
    subst hn
    decide
  queueAscending := by decide
  ownedOnce := by decide
  errLegal := by decide
  noTree := by simp [oneLeafTree]
  frozen := fun _ => ⟨rfl, .inl rfl⟩

theorem twoLeaves_inv : Inv twoLeaves where
  store :=
    { bound := by decide
      childBefore := by
        intro p n h
        rcases p with _ | _ | p <;> simp [twoLeaves] at h <;> subst h <;> simp [children]
      exactSum := by
        intro p f l r h
        rcases p with _ | _ | p <;> simp [twoLeaves] at h }
  queueBound := by decide
  queueAllocated := by
    intro n hn
    simp only [twoLeaves, List.mem_cons, List.not_mem_nil, or_false] at hn
    rcases hn with rfl | rfl <;> decide
  queueAscending := by decide
  ownedOnce := by decide
  errLegal := by decide
  noTree := fun _ => ⟨rfl, rfl⟩
  frozen := by simp [twoLeaves, State.reset]

/-- Two equal minima: the earlier is taken. -/
theorem twoLeaves_first : EarliestMin twoLeaves.nodes twoLeaves.pq [] 0#9 1#32 [1#9] :=
  ⟨rfl, by decide, by simp, by simpa using ⟨1#32, by decide, by decide⟩⟩

theorem twoLeaves_second : EarliestMin twoLeaves.nodes ([] ++ [1#9]) [] 1#9 1#32 [] := ⟨rfl, by decide, by simp, by simp⟩

theorem heavyLeaves_first : EarliestMin heavyLeaves.nodes heavyLeaves.pq [0#9] 1#9 1#32 [] :=
  ⟨rfl, by decide, by simpa using ⟨4294967295#32, by decide, by decide⟩, by simp⟩

theorem heavyLeaves_second : EarliestMin heavyLeaves.nodes ([0#9] ++ []) [] 0#9 4294967295#32 [] :=
  ⟨rfl, by decide, by simp, by simp⟩

/-- A queue of two with `n` leaves in the store. -/
def manyLeaves (n : Nat) : State := { State.reset with nodes := List.replicate n (.leaf 0#8 1#32), pq := [0#9, 1#9] }

theorem manyLeaves_length (n : Nat) : (manyLeaves n).nodes.length = n := List.length_replicate

theorem manyLeaves_first (n : Nat) (h : 2 ≤ n) : EarliestMin (manyLeaves n).nodes (manyLeaves n).pq [] 0#9 1#32 [1#9] := by
  have h0 : 0 < n := by omega
  have h1 : 1 < n := by omega
  refine ⟨rfl, ?_, by simp, ?_⟩
  · simp [key, nodeAt, manyLeaves, h0, Node.freq]
  · simp [key, nodeAt, manyLeaves, h1, Node.freq]

theorem manyLeaves_second (n : Nat) (h : 2 ≤ n) : EarliestMin (manyLeaves n).nodes ([] ++ [1#9]) [] 1#9 1#32 [] := by
  have h1 : 1 < n := by omega
  refine ⟨rfl, ?_, by simp, by simp⟩
  simp [key, nodeAt, manyLeaves, h1, Node.freq]

theorem test_witness_DecodeInvertsEncode :
    (Instr.leaf 255#8 4294967295#32).wellFormed = true ∧ (Instr.node 511#9).wellFormed = true := by decide

theorem test_witness_EncodeInvertsDecode : decode 0xA1FF00000000#48 = .ok (.node 511#9) := by decide

theorem test_witness_DecodeAgreesWithMatchAndMask :
    (⟨"LEAF", 0x200000000000#48, 0xFF0000000000#48⟩ : OpcodeRow) ∈ opcodeRows ∧
    OpcodeRow.selects ⟨"LEAF", 0x200000000000#48, 0xFF0000000000#48⟩ 0x20FFFFFFFFFF#48 = true ∧
    (∀ r ∈ opcodeRows, r.selects 0x21FFFFFFFFFF#48 = false) := by decide

theorem test_witness_WorkedEncodingsDecode : State.reset.err = 0#4 := rfl

theorem test_witness_StepRunsTheDecodedCommand :
    { twoLeaves with input := [.cmd 0x500000000000#48, .rst] }.input = .cmd 0x500000000000#48 :: [.rst] ∧
    decode 0x500000000000#48 = .ok .merge ∧ Instr.merge.wellFormed = true := by decide

/-- The clauses in turn: a CLR, a STAT, a word on a faulted block, a word no row selects, and a word one does. -/
theorem test_witness_FrontEndOrder :
    (∃ s : State, s.input = .cmd 0x100000000000#48 :: [] ∧ s.err ≠ 0#4) ∧
    (∃ s : State, s.input = .cmd 0x900000000000#48 :: [] ∧ s.err ≠ 0#4) ∧
    (∃ s : State, s.input = .cmd 0x100000000001#48 :: [] ∧ (0x100000000001#48 : CmdWord) ≠ 0x100000000000#48 ∧
      (0x100000000001#48 : CmdWord) ≠ 0x900000000000#48 ∧ s.err ≠ 0#4) ∧
    (∃ s : State, s.input = .cmd 0xFFFFFFFFFFFF#48 :: [] ∧ s.err = 0#4 ∧
      ∀ r ∈ opcodeRows, r.selects 0xFFFFFFFFFFFF#48 = false) ∧
    ∃ s : State, s.input = .cmd 0x400000000000#48 :: [] ∧ s.err = 0#4 ∧
      ∃ r ∈ opcodeRows, r.selects 0x400000000000#48 = true :=
  ⟨⟨{ State.reset with input := [.cmd 0x100000000000#48], err := 1#4 }, by decide⟩,
    ⟨{ State.reset with input := [.cmd 0x900000000000#48], err := 11#4 }, by decide⟩,
    ⟨{ State.reset with input := [.cmd 0x100000000001#48], err := 1#4 }, by decide⟩,
    ⟨{ State.reset with input := [.cmd 0xFFFFFFFFFFFF#48] }, by decide⟩,
    ⟨{ State.reset with input := [.cmd 0x400000000000#48] }, by decide⟩⟩

theorem test_witness_IdleBlockHoldsItsState : threeLeafTree.input = [] := rfl

theorem test_witness_ResetAndClrLeaveS0 :
    { threeLeafTree with input := [.rst, .cmd 0#48] }.input = .rst :: [.cmd 0#48] := rfl

theorem test_witness_ClrAndResetAgree : { twoLeafTree with err := 4#4, input := [.rst] }.input = .rst :: [] := rfl

/-- An illegal word on a state that meets the invariant, and a response that is an error. -/
theorem test_witness_ResponseCodeIsOkOrErr :
    Inv { twoLeafTree with input := [.cmd 0#48] } ∧
    (nextOf (step { twoLeafTree with input := [.cmd 0#48] })).map (fun t => t.rsp.map rspCode) = some (some 8#4) :=
  ⟨{ twoLeafTree_inv with }, by decide⟩

/-- The last room there is: 510 nodes and 255 entries. -/
theorem test_witness_LeafAllocatesAndInserts :
    ∃ s : State, s.err = 0#4 ∧ s.tv = false ∧ s.nodes.length = 510 ∧ s.pq.length = 255 :=
  ⟨{ State.reset with nodes := List.replicate 510 (.leaf 0#8 0#32), pq := List.replicate 255 0#9 }, rfl, rfl,
    List.length_replicate, List.length_replicate⟩

/-- A tree; a full store; a full queue. -/
theorem test_witness_LeafErrorsInOrder :
    (twoLeafTree.err = 0#4 ∧ twoLeafTree.tv = true) ∧
    (∃ s : State, s.err = 0#4 ∧ s.tv = false ∧ s.nodes.length = 511 ∧ s.pq.length < 256) ∧
    ∃ s : State, s.err = 0#4 ∧ s.tv = false ∧ s.nodes.length < 511 ∧ s.pq.length = 256 :=
  ⟨⟨rfl, rfl⟩, ⟨{ State.reset with nodes := List.replicate 511 (.leaf 0#8 0#32) }, rfl, rfl, List.length_replicate, by decide⟩,
    ⟨{ State.reset with pq := List.replicate 256 0#9 }, rfl, rfl, by decide, List.length_replicate⟩⟩

theorem test_witness_XminTakesEarliestMinimum :
    twoLeaves.err = 0#4 ∧ twoLeaves.tv = false ∧ EarliestMin twoLeaves.nodes twoLeaves.pq [] 0#9 1#32 [1#9] :=
  ⟨rfl, rfl, twoLeaves_first⟩

theorem test_witness_EarliestMinimumIsUnique : QueueAllocated heavyLeaves ∧ heavyLeaves.pq ≠ [] := by
  refine ⟨fun n hn => ?_, by decide⟩
  simp only [heavyLeaves, List.mem_cons, List.not_mem_nil, or_false] at hn
  rcases hn with rfl | rfl <;> decide

theorem test_witness_XminErrorsInOrder :
    (twoLeafTree.err = 0#4 ∧ twoLeafTree.tv = true) ∧
    State.reset.err = 0#4 ∧ State.reset.tv = false ∧ State.reset.pq = [] := by decide

theorem test_witness_SizeAnswersQueueLength : ∃ s : State, s.err = 0#4 ∧ s.pq.length = 256 :=
  ⟨{ State.reset with pq := List.replicate 256 0#9 }, rfl, List.length_replicate⟩

/-- The last index there is. -/
theorem test_witness_MergeMakesParentOfTwoMinima :
    (manyLeaves 510).err = 0#4 ∧ (manyLeaves 510).tv = false ∧
    EarliestMin (manyLeaves 510).nodes (manyLeaves 510).pq [] 0#9 1#32 [1#9] ∧
    EarliestMin (manyLeaves 510).nodes ([] ++ [1#9]) [] 1#9 1#32 [] ∧
    (1#32).toNat + (1#32).toNat ≤ 4294967295 ∧ (manyLeaves 510).nodes.length < 511 :=
  ⟨rfl, rfl, manyLeaves_first 510 (by omega), manyLeaves_second 510 (by omega), by decide,
    (manyLeaves_length 510).trans_lt (by omega)⟩

/-- A tree; one entry; the smallest sum that does not fit; a full store. -/
theorem test_witness_MergeErrorsInOrder :
    (twoLeafTree.err = 0#4 ∧ twoLeafTree.tv = true) ∧
    (oneLeaf.err = 0#4 ∧ oneLeaf.tv = false ∧ oneLeaf.pq.length < 2) ∧
    (heavyLeaves.tv = false ∧ EarliestMin heavyLeaves.nodes heavyLeaves.pq [0#9] 1#9 1#32 [] ∧
      EarliestMin heavyLeaves.nodes ([0#9] ++ []) [] 0#9 4294967295#32 [] ∧
      4294967295 < (1#32).toNat + (4294967295#32).toNat) ∧
    ((manyLeaves 511).tv = false ∧ EarliestMin (manyLeaves 511).nodes (manyLeaves 511).pq [] 0#9 1#32 [1#9] ∧
      EarliestMin (manyLeaves 511).nodes ([] ++ [1#9]) [] 1#9 1#32 [] ∧ 511 ≤ (manyLeaves 511).nodes.length) :=
  ⟨by decide, by decide, ⟨rfl, heavyLeaves_first, heavyLeaves_second, by decide⟩,
    ⟨rfl, manyLeaves_first 511 (by omega), manyLeaves_second 511 (by omega), (manyLeaves_length 511).ge⟩⟩

/-- Also for BuildContinuesMerge and the frames of MERGE. -/
theorem test_witness_MergeIsGreedy : twoLeaves.err = 0#4 ∧ twoLeaves.pq.Nodup ∧ twoLeaves.nodes.length ≤ 511 ∧
    (nextOf (exec .merge twoLeaves)).map State.err = some 0#4 := by decide

theorem test_witness_BuildOnOneEntry :
    oneLeaf.err = 0#4 ∧ oneLeaf.tv = false ∧ oneLeaf.pq = [0#9] ∧ key oneLeaf.nodes 0#9 = some 4#32 := by decide

theorem test_witness_BuildOnEmptyQueue : State.reset.err = 0#4 ∧ State.reset.tv = false ∧ State.reset.pq = [] ∧
    State.reset.nodes.length < 511 := by decide

theorem test_witness_BuildContinuesMerge :
    twoLeaves.err = 0#4 ∧ (nextOf (exec .merge twoLeaves)).map State.err = some 0#4 := by decide

theorem test_witness_BuildFailsWithItsFirstPass :
    heavyLeaves.err = 0#4 ∧ 2 ≤ heavyLeaves.pq.length ∧ (nextOf (exec .merge heavyLeaves)).map State.err = some 10#4 := by
  decide

/-- A BUILD that forms a tree, and one that fails. -/
theorem test_witness_BuildKeepsCompletedPasses :
    (twoLeaves.err = 0#4 ∧ twoLeaves.tv = false ∧ twoLeaves.pq ≠ [] ∧
      (nextOf (exec .build twoLeaves)).map State.err = some 0#4) ∧
    heavyLeaves.err = 0#4 ∧ heavyLeaves.tv = false ∧ (nextOf (exec .build heavyLeaves)).map State.err = some 10#4 := by
  decide

theorem test_witness_BuildFormsTheTree :
    Inv twoLeaves ∧ twoLeaves.err = 0#4 ∧ twoLeaves.tv = false ∧ twoLeaves.pq ≠ [] ∧ queueSum twoLeaves ≤ 4294967295 ∧
    twoLeaves.nodes.length + twoLeaves.pq.length ≤ 512 :=
  ⟨twoLeaves_inv, by decide, by decide, by decide, by decide, by decide⟩

/-- Leaves whose sum fits, leaves whose sum does not, and none; one MERGE of two leaves. -/
theorem test_witness_CorrectBuild :
    freqSum [(0x61#8, 4294967294#32), (0x62#8, 1#32)] ≤ 4294967295 ∧
    4294967295 < freqSum [(0x61#8, 4294967295#32), (0x62#8, 1#32)] ∧ ([] : List (Symbol × Freq)).length ≤ 256 := by decide

theorem test_witness_MergesBeforeBuildChangeNothing :
    [((0x61#8 : Symbol), (1#32 : Freq)), (0x62#8, 1#32)].length ≤ 256 ∧
    1 ≤ [((0x61#8 : Symbol), (1#32 : Freq)), (0x62#8, 1#32)].length - 1 := by decide

/-- A move to an internal child, and an arrival at a leaf. -/
theorem test_witness_DbitWalksTheTree :
    threeLeafTree.err = 0#4 ∧ threeLeafTree.tv = true ∧
    nodeAt threeLeafTree.nodes threeLeafTree.root = some (.internal 3#32 2#9 3#9) ∧
    nodeAt threeLeafTree.nodes threeLeafTree.cur = some (.internal 3#32 2#9 3#9) ∧
    nodeAt threeLeafTree.nodes (if true then 3#9 else 2#9) = some (.internal 2#32 0#9 1#9) ∧
    nodeAt threeLeafTree.nodes (if false then 3#9 else 2#9) = some (.leaf 0x63#8 1#32) := by decide

theorem test_witness_DegenerateTreeEmitsOnEveryBit :
    oneLeafTree.err = 0#4 ∧ oneLeafTree.tv = true ∧ oneLeafTree.cur = oneLeafTree.root ∧
    nodeAt oneLeafTree.nodes oneLeafTree.root = some (.leaf 0x61#8 4#32) ∧ (1#8).toNat < 2 ∧ 2 ≤ (2#8).toNat := by decide

theorem test_witness_DbitErrorConditions :
    (State.reset.err = 0#4 ∧ State.reset.tv = false) ∧ (twoLeafTree.err = 0#4 ∧ twoLeafTree.tv = true ∧ 2 ≤ (2#8).toNat) ∧
    (nextOf (exec (.dbit 2#8) twoLeafTree)).map State.err = some 4#4 := by decide

theorem test_witness_DendChecksTheRoot :
    (twoLeafTree.err = 0#4 ∧ twoLeafTree.cur = twoLeafTree.root) ∧ (State.reset.err = 0#4 ∧ State.reset.tv = false) ∧
    { threeLeafTree with cur := 3#9 }.err = 0#4 ∧ { threeLeafTree with cur := 3#9 }.tv = true ∧
    { threeLeafTree with cur := 3#9 }.cur ≠ { threeLeafTree with cur := 3#9 }.root := by decide

theorem test_witness_DecodeFailsAsR138Says :
    (Inv twoLeafTree ∧ twoLeafTree.err = 0#4 ∧ twoLeafTree.tv = true ∧ twoLeafTree.cur = twoLeafTree.root) ∧
    (2 ≤ (2#8).toNat ∧ State.reset.err = 0#4 ∧ State.reset.tv = false) :=
  ⟨⟨twoLeafTree_inv, rfl, rfl, rfl⟩, by decide⟩

/-- The clause of truncated streams: a path to a leaf, then one to an internal node below the root. -/
theorem test_witness_DecodeFailsAsR138Says_truncated :
    Inv threeLeafTree ∧ threeLeafTree.err = 0#4 ∧ threeLeafTree.tv = true ∧ threeLeafTree.cur = threeLeafTree.root ∧
    (∀ q ∈ [[true, false]], ∃ sym, LeadsToLeaf threeLeafTree.nodes threeLeafTree.root q sym) ∧
    walkPath threeLeafTree.nodes threeLeafTree.root [true] = some 3#9 ∧
    nodeAt threeLeafTree.nodes 3#9 = some (.internal 2#32 0#9 1#9) :=
  ⟨threeLeafTree_inv, rfl, rfl, rfl,
    by simpa using ⟨0x61#8, 0#9, 1#32, by decide, by decide⟩, by decide, by decide⟩

/-- A tree whose root is internal, and the degenerate one. Also for DecodeInvertsEncoder. -/
theorem test_witness_DecodeReadsRootToLeafPaths :
    (Inv twoLeafTree ∧ twoLeafTree.err = 0#4 ∧ twoLeafTree.tv = true ∧ twoLeafTree.cur = twoLeafTree.root ∧
      nodeAt twoLeafTree.nodes twoLeafTree.root = some (.internal 2#32 0#9 1#9)) ∧
    Inv oneLeafTree ∧ oneLeafTree.err = 0#4 ∧ oneLeafTree.tv = true ∧ oneLeafTree.cur = oneLeafTree.root ∧
      nodeAt oneLeafTree.nodes oneLeafTree.root = some (.leaf 0x61#8 4#32) :=
  ⟨⟨twoLeafTree_inv, rfl, rfl, rfl, by decide⟩, oneLeafTree_inv, rfl, rfl, rfl, by decide⟩

theorem test_witness_WalkIsBounded :
    Inv twoLeafTree ∧ twoLeafTree.tv = true ∧ LeadsToLeaf twoLeafTree.nodes twoLeafTree.root [true] 0x62#8 ∧
    nodeAt twoLeafTree.nodes twoLeafTree.root = some (.internal 2#32 0#9 1#9) :=
  ⟨twoLeafTree_inv, rfl, ⟨1#9, 1#32, by decide, by decide⟩, by decide⟩

/-- The bounds reached. -/
theorem test_witness_StatAnswersTheStatusWord : ∃ s : State, s.nodes.length = 511 ∧ s.pq.length = 256 :=
  ⟨{ State.reset with nodes := List.replicate 511 (.leaf 0#8 0#32), pq := List.replicate 256 0#9 },
    List.length_replicate, List.length_replicate⟩

/-- A leaf, an internal node, the last allocated, and the first index that is not. -/
theorem test_witness_NodeShowsTheRecord :
    twoLeafTree.err = 0#4 ∧ nodeAt twoLeafTree.nodes 0#9 = some (.leaf 0x61#8 1#32) ∧
    nodeAt twoLeafTree.nodes 2#9 = some (.internal 2#32 0#9 1#9) ∧ twoLeafTree.nodes.length ≤ (3#9).toNat := by decide

theorem test_witness_NodeResponseShowsTheNode :
    (oneLeaf.err = 0#4 ∧ (nextOf (exec (.node 0#9) oneLeaf)).map (fun t => t.rsp.isSome) = some true) ∧
    Inv twoLeaves ∧ (nextOf (exec .build twoLeaves)).map State.err = some 0#4 :=
  ⟨by decide, twoLeaves_inv, by decide⟩

/-- A word that is neither CLR nor STAT, a STAT, a CLR, each on a faulted block. -/
theorem test_witness_FaultedBlockServesOnlyClrAndStat :
    { twoLeafTree with err := 3#4 }.err ≠ 0#4 ∧ Instr.size ≠ .clr ∧ Instr.size ≠ .stat ∧
    (0#48 : CmdWord) ≠ 0x100000000000#48 ∧ (0#48 : CmdWord) ≠ 0x900000000000#48 ∧
    { twoLeafTree with err := 3#4, input := [.cmd 0#48] }.input = .cmd 0#48 :: [] ∧
    { twoLeafTree with err := 3#4, input := [.cmd 0x900000000000#48] }.input = .cmd 0x900000000000#48 :: [] ∧
    { twoLeafTree with err := 3#4, input := [.cmd 0x100000000000#48] }.input = .cmd 0x100000000000#48 :: [] := by decide

theorem test_witness_FirstErrorIsKept :
    { twoLeafTree with err := 3#4, input := [.cmd 0#48] }.err ≠ 0#4 ∧
    (nextOf (step { twoLeafTree with err := 3#4, input := [.cmd 0#48] })).isSome = true := by decide

theorem test_witness_ErrorsArePrecise :
    (nextOf (exec .merge heavyLeaves)).map State.err = some 10#4 ∧ heavyLeaves.err ≠ 10#4 ∧ Instr.merge ≠ .clr ∧
    Instr.merge ≠ .build := by decide

/-- Also the two conditions of a merge step, each met. -/
theorem test_witness_ErrorsAreRaisedExactlyWhen :
    heavyLeaves.err = 0#4 ∧ (nextOf (exec .build heavyLeaves)).map State.err = some 10#4 ∧
    AtSomePass SumTooLarge heavyLeaves ∧ (manyLeaves 511).err = 0#4 ∧ AtSomePass NoRoomToMerge (manyLeaves 511) :=
  ⟨by decide, by decide,
    ⟨0, _, .none _, 1#32, 4294967295#32, ⟨_, _, _, _, _, _, heavyLeaves_first, heavyLeaves_second⟩, by decide⟩, rfl,
    ⟨0, _, .none _, 1#32, 1#32, ⟨_, _, _, _, _, _, manyLeaves_first 511 (by omega), manyLeaves_second 511 (by omega)⟩,
      by decide, (manyLeaves_length 511).ge⟩⟩

/-- TV is set, TV is cleared, and a queue command is refused. -/
theorem test_witness_TreeValidOnlyByBuild :
    (twoLeaves.tv = false ∧
      (nextOf (step { twoLeaves with input := [.cmd 0x600000000000#48] })).map State.tv = some true) ∧
    (twoLeafTree.tv = true ∧ (nextOf (step { twoLeafTree with input := [.rst] })).map State.tv = some false) ∧
    twoLeafTree.err = 0#4 := by decide

theorem test_witness_ReadCommandsFrame : (nextOf (exec .size twoLeafTree)).isSome = true ∧
    (nextOf (exec .stat twoLeafTree)).isSome = true ∧ (nextOf (exec (.node 2#9) twoLeafTree)).isSome = true := by decide

theorem test_witness_DecoderCommandsFrame :
    (nextOf (exec (.dbit 1#8) threeLeafTree)).map State.cur = some 3#9 ∧
    (nextOf (exec .dend threeLeafTree)).isSome = true := by decide

theorem test_witness_XminFrame : (nextOf (exec .xmin twoLeaves)).map State.pq = some [1#9] := by decide

theorem test_witness_AllocatingCommandsFrame :
    twoLeaves.nodes.length ≤ 511 ∧ (nextOf (exec (.leaf 0#8 0#32) twoLeaves)).isSome = true ∧
    (nextOf (exec .merge twoLeaves)).isSome = true ∧ (0#9 : NodeIdx) ≠ twoLeaves.nodeCount := by decide

theorem test_witness_BuildFrame : (nextOf (exec .build twoLeaves)).map (fun t => t.nodes.length) = some 3 := by decide

theorem test_witness_NodesAreNeverMutated :
    (nextOf (step { twoLeaves with input := [.cmd 0x500000000000#48] })).isSome = true ∧
    (0x500000000000#48 : CmdWord) ≠ 0x100000000000#48 := by decide

/-- Also for EveryWordIsAnswered. -/
theorem test_witness_StepKeepsInvariant :
    Inv { twoLeafTree with input := [.cmd 0x700100000000#48] } ∧
    (nextOf (step { twoLeafTree with input := [.cmd 0x700100000000#48] })).isSome = true :=
  ⟨{ twoLeafTree_inv with }, by decide⟩

/-- The deepest walk there is from index 2. -/
theorem test_witness_WalksReachALeaf :
    Inv twoLeafTree ∧ (2#9).toNat < twoLeafTree.nodes.length ∧
    nodeAt twoLeafTree.nodes 2#9 = some (.internal 2#32 0#9 1#9) ∧ (2#9).toNat ≤ [true, false].length :=
  ⟨twoLeafTree_inv, by decide, by decide, by decide⟩

theorem test_witness_FrequencyIsConserved :
    Inv twoLeafTree ∧ nodeAt twoLeafTree.nodes 2#9 = some (.internal 2#32 0#9 1#9) :=
  ⟨twoLeafTree_inv, by decide⟩

theorem test_witness_CodeTableIsPrefixFree :
    Inv twoLeafTree ∧ twoLeafTree.tv = true ∧
    nodeAt twoLeafTree.nodes twoLeafTree.root = some (.internal 2#32 0#9 1#9) :=
  ⟨twoLeafTree_inv, rfl, by decide⟩

/-- The clauses of the one-leaf tree and of no tree. -/
theorem test_witness_CodeTableIsPrefixFree_others :
    Inv oneLeafTree ∧ oneLeafTree.tv = true ∧ nodeAt oneLeafTree.nodes oneLeafTree.root = some (.leaf 0x61#8 4#32) ∧
    twoLeaves.tv = false :=
  ⟨oneLeafTree_inv, rfl, by decide, rfl⟩

/-- A decode that succeeds, with a STAT in it. -/
theorem test_witness_DecodeIsASegmentOfARun :
    Inv twoLeafTree ∧ (∀ i ∈ [Instr.dbit 1#8, .stat],
      i = .size ∨ i = .stat ∨ (∃ idx, i = .node idx) ∨ ∃ v, i = .dbit v) ∧
    decodeStream twoLeafTree ([Instr.dbit 1#8, .stat].filterMap streamElem) = some (.ok [0x62#8]) :=
  ⟨twoLeafTree_inv, by simp, by decide⟩

theorem test_witness_DecodeInvertsEncoder :
    Inv twoLeafTree ∧ twoLeafTree.err = 0#4 ∧ twoLeafTree.tv = true ∧ twoLeafTree.cur = twoLeafTree.root ∧
    encodeMsg (codeTable twoLeafTree) [0x61#8, 0x62#8] = .ok [false, true] :=
  ⟨twoLeafTree_inv, rfl, rfl, rfl, by decide⟩

/-- Two orders of the leaves of one message, and a message of one symbol. -/
theorem test_witness_RoundTrip :
    [0x61#8, 0x62#8, 0x61#8] ≠ ([] : List Symbol) ∧ [(0x62#8, 1), (0x61#8, 2)].Perm (freqTable [0x61#8, 0x62#8, 0x61#8]) ∧
    [(0x61#8, 2)].Perm (freqTable [0x61#8, 0x61#8]) ∧
    ∀ x ∈ [(0x61#8 : Symbol), 0x61#8], ∀ y ∈ [(0x61#8 : Symbol), 0x61#8], x = y := by decide

end Sys2Proof.Tests
end

section
/-! SUPPORT. The statements that rest on spec/00_scope.md: the earliest minimum (R13) and the node store, of which no command
but CLR changes an allocated node (R14). -/

namespace Sys2Proof.Proofs

open Sys2Proof.Machine Sys2Proof.Safety Sys2Proof.Laws

/-! ### Responses as numbers (R77, R79) -/

/-- The response word OK with some data is the number its data is. -/
theorem rspWord_ok_eq_okRsp (d : Data) : some (rspWord 0#4 d) = okRsp d.toNat := by
  refine congrArg some (BitVec.eq_of_toNat_eq ?_)
  have := d.isLt
  rw [rspWord, toNat_append_eq_add, BitVec.toNat_ofNat, BitVec.toNat_ofNat, Nat.zero_mod]
  omega

/-- The layout of XMIN and MERGE: the frequency in 63:32, the index in 8:0. -/
theorem freqIdxData_toNat (k : Freq) (n : NodeIdx) : (freqIdxData k n).toNat = k.toNat * 2 ^ 32 + n.toNat := by
  have := n.isLt
  rw [freqIdxData, toNat_append_eq_add, BitVec.toNat_setWidth, Nat.mod_eq_of_lt (by omega)]

/-! ### The earliest minimum (R13, R102, R113) -/

/-- What stands before the earliest minimum is as long as `minpos` says, and the key is the one found there. -/
theorem earliestMin_minPos {ns : NodeStore} {q before after : List NodeIdx} {n : NodeIdx} {k : Freq}
    (h : EarliestMin ns q before n k after) : ∃ ks, pqKeys ns q = some ks ∧ minPos ks = some (before.length, k) := by
  obtain ⟨bs, as, hks, hlen, hb, ha⟩ := earliestMin_keys h
  exact ⟨_, hks, hlen ▸ minPos_append hb ha⟩

theorem earliestMin_unique {ns : NodeStore} {q before after before' after' : List NodeIdx} {n n' : NodeIdx} {k k' : Freq}
    (h : EarliestMin ns q before n k after) (h' : EarliestMin ns q before' n' k' after') :
    before = before' ∧ n = n' ∧ k = k' ∧ after = after' := by
  obtain ⟨ks, hks, hm⟩ := earliestMin_minPos h
  obtain ⟨ks', hks', hm'⟩ := earliestMin_minPos h'
  obtain rfl : ks = ks' := Option.some.inj (hks.symm.trans hks')
  obtain ⟨hlen, hk⟩ : before.length = before'.length ∧ k = k' := by simpa using hm.symm.trans hm'
  obtain ⟨hbefore, htail⟩ := List.append_inj (h.1.symm.trans h'.1) hlen
  obtain ⟨hn, hafter⟩ := List.cons.inj htail
  exact ⟨hbefore, hn, hk, hafter⟩

theorem exists_earliestMin {ns : NodeStore} {q : List NodeIdx} (hne : q ≠ []) (hq : ∀ n ∈ q, n.toNat < ns.length) :
    ∃ before n k after, EarliestMin ns q before n k after := by
  obtain ⟨x, hx⟩ := Option.isSome_iff_exists.mp ((extractMin_isSome_iff ns q).mpr ⟨hne, hq⟩)
  obtain ⟨before, after, hmin, -⟩ := extractMin_eq_some hx
  exact ⟨before, x.node, x.freq, after, hmin⟩

/-- XMIN when there is something to extract (R105). -/
theorem execXmin_of_extractMin {s : State} {x : Extracted} (herr : s.err = 0#4) (htv : s.tv = false)
    (hx : extractMin s.nodes s.pq = some x) :
    execXmin s = respondOk (s.withPq x.rest) (freqIdxData x.freq x.node) := by
  have hne : s.pq ≠ [] := ((extractMin_isSome_iff s.nodes s.pq).mp (by simp [hx])).1
  rw [execXmin, faultGate_of_err_zero _ herr]
  simp [htv, hne, hx]

/-! ### What the ways to answer leave of the store -/

theorem gated_nodes {s t : State} (h : Gated s t) : t.nodes = s.nodes := by
  obtain ⟨-, rfl⟩ := h
  rfl

theorem raised_nodes {s t : State} {e : ErrKind} (h : Raised s t e) : t.nodes = s.nodes := by
  obtain ⟨-, rfl⟩ := h
  rfl

theorem answered_nodes {s t u : State} {d : Data} (h : Answered s t u d) : t.nodes = u.nodes := by
  obtain ⟨-, rfl⟩ := h
  rfl

/-! ### Allocation (R14, R54) -/

/-- An allocation changes what is read at one index only, the one after the last node. -/
theorem nodeAt_append_of_ne {ns : NodeStore} {j : NodeIdx} (m : Node) (hj : j.toNat ≠ ns.length) :
    nodeAt (ns ++ [m]) j = nodeAt ns j := by
  rcases Nat.lt_or_gt_of_ne hj with hlt | hgt
  · exact List.getElem?_append_left hlt
  · have hout : (ns ++ [m]).length ≤ j.toNat := by simpa using hgt
    rw [nodeAt, nodeAt, List.getElem?_eq_none hout, List.getElem?_eq_none hgt.le]

/-- The store is as it was, or had room and has one node more. -/
def KeptOrAllocated (s t : State) : Prop :=
  t.nodes = s.nodes ∨ s.storeFull = false ∧ ∃ m, t.nodes = s.nodes ++ [m]

theorem keptOrAllocated_prefix {s t : State} (h : KeptOrAllocated s t) : s.nodes <+: t.nodes := by
  rcases h with h | ⟨-, m, h⟩
  · rw [h]
  · exact h ▸ List.prefix_append _ _

theorem keptOrAllocated_nodeAt {s t : State} {j : NodeIdx} (h : KeptOrAllocated s t) (hj : j ≠ s.nodeCount) :
    nodeAt t.nodes j = nodeAt s.nodes j := by
  rcases h with h | ⟨hroom, m, h⟩
  · rw [h]
  · have hne : j.toNat ≠ s.nodes.length := fun heq =>
      hj (BitVec.eq_of_toNat_eq (heq.trans (nodeCount_toNat hroom).symm))
    rw [h, nodeAt_append_of_ne m hne]

/-- What LEAF and MERGE may change: the store by one allocation, the queue, ERR and the response. -/
def AllocatesOnly (s t : State) : Prop :=
  t = { s with nodes := t.nodes, pq := t.pq, err := t.err, rsp := t.rsp } ∧ KeptOrAllocated s t

theorem gated_allocatesOnly {s t : State} (h : Gated s t) : AllocatesOnly s t := by
  obtain ⟨-, rfl⟩ := h
  exact ⟨rfl, .inl rfl⟩

theorem raised_allocatesOnly {s t : State} {e : ErrKind} (h : Raised s t e) : AllocatesOnly s t := by
  obtain ⟨-, rfl⟩ := h
  exact ⟨rfl, .inl rfl⟩

theorem execLeaf_allocatesOnly {s t : State} {sym : Symbol} {freq : Freq} (h : execLeaf sym freq s = .next t) :
    AllocatesOnly s t := by
  rcases execLeaf_eq_next h with hg | ⟨-, hr⟩ | ⟨-, -, hr⟩ | ⟨-, hroom, -, -, rfl⟩
  · exact gated_allocatesOnly hg
  · exact raised_allocatesOnly hr
  · exact raised_allocatesOnly hr
  · exact ⟨rfl, .inr ⟨hroom, _, rfl⟩⟩

/-- A merge step that completes allocates one node. -/
theorem mergeStep_keptOrAllocated {s t : State} {n : NodeIdx} {f : Freq} (h : mergeStep s = .merged n f t) :
    KeptOrAllocated s t := by
  obtain ⟨a, b, -, -, -, hroom, -, rfl⟩ := mergeStep_eq_merged h
  exact .inr ⟨hroom, _, rfl⟩

theorem execMerge_allocatesOnly {s t : State} (h : execMerge s = .next t) : AllocatesOnly s t := by
  rcases execMerge_eq_next h with hg | ⟨-, hr⟩ | ⟨-, e, -, hr⟩ | ⟨-, n, f, u, hm, -, rfl⟩
  · exact gated_allocatesOnly hg
  · exact raised_allocatesOnly hr
  · exact raised_allocatesOnly hr
  · refine ⟨?_, mergeStep_keptOrAllocated (t := u) hm⟩
    rw [mergeStep_others hm]
    rfl

/-! ### The store only grows (R14, R53) -/

theorem passes_nodes_prefix {k : Nat} {s t : State} (h : Passes k s t) : s.nodes <+: t.nodes := by
  induction h with
  | none s => exact List.prefix_refl _
  | more first _ ih => exact (keptOrAllocated_prefix (mergeStep_keptOrAllocated first)).trans ih

theorem execXmin_nodes {s t : State} (h : execXmin s = .next t) : t.nodes = s.nodes := by
  rcases execXmin_eq_next h with hg | ⟨-, hr⟩ | ⟨-, -, hr⟩ | ⟨-, x, -, ha⟩
  · exact gated_nodes hg
  · exact raised_nodes hr
  · exact raised_nodes hr
  · exact (answered_nodes ha).trans (withPq_nodes _ _)

theorem execSize_nodes {s t : State} (h : execSize s = .next t) : t.nodes = s.nodes := by
  rcases gated_next h with hg | ⟨hz, h⟩
  · exact gated_nodes hg
  · exact answered_nodes (answered_next hz h)

theorem execBuild_nodes_prefix {s t : State} (h : execBuild s = .next t) : s.nodes <+: t.nodes := by
  rcases execBuild_eq_next h with hg | ⟨-, hr⟩ | ⟨-, -, k, u, hp, hend⟩
  · rw [gated_nodes hg]
  · rw [raised_nodes hr]
  · have hu : t.nodes = u.nodes := by
      rcases hend with ⟨-, ha⟩ | ⟨n, rec, -, -, ha⟩ | ⟨e, -, -, hr⟩
      · exact answered_nodes ha
      · exact (answered_nodes ha).trans (formTree_nodes _ _)
      · exact raised_nodes hr
    exact hu ▸ passes_nodes_prefix hp

theorem execDbit_nodes {s t : State} {v : StreamElem} (h : execDbit v s = .next t) : t.nodes = s.nodes := by
  rcases execDbit_eq_next h with
    hg | ⟨-, hr⟩ | ⟨-, -, hr⟩ | ⟨-, b, -, ⟨sym, f, -, ha⟩ | ⟨f, l, r, n, -, -, ⟨sym, g, -, ha⟩ | ⟨g, l', r', -, ha⟩⟩⟩
  · exact gated_nodes hg
  · exact raised_nodes hr
  · exact raised_nodes hr
  · exact answered_nodes ha
  · exact (answered_nodes ha).trans (withCur_nodes _ _)
  · exact (answered_nodes ha).trans (withCur_nodes _ _)

theorem execDend_nodes {s t : State} (h : execDend s = .next t) : t.nodes = s.nodes := by
  rcases execDend_eq_next h with hg | ⟨-, -, hr⟩ | ⟨-, ha⟩
  · exact gated_nodes hg
  · exact raised_nodes hr
  · exact answered_nodes ha

theorem execStat_nodes {s t : State} (h : execStat s = .next t) : t.nodes = s.nodes := by
  rw [respondOk_eq_next_iff.mp h, withRsp_nodes]

theorem execNode_nodes {s t : State} {idx : NodeIdx} (h : execNode idx s = .next t) : t.nodes = s.nodes := by
  rcases execNode_eq_next h with hg | ⟨n, -, ha⟩ | ⟨-, ha⟩
  · exact gated_nodes hg
  · exact answered_nodes ha
  · exact answered_nodes ha

theorem illegalWord_nodes {s t : State} (h : illegalWord s = .next t) : t.nodes = s.nodes := by
  rcases gated_next h with hg | ⟨hz, h⟩
  · exact gated_nodes hg
  · exact raised_nodes (raised_next hz h)

/-- No command but CLR changes or removes an allocated node (R14). -/
theorem exec_nodes_prefix {s t : State} {i : Instr} (hi : i ≠ .clr) (h : exec i s = .next t) : s.nodes <+: t.nodes := by
  cases i with
  | clr => exact absurd rfl hi
  | leaf sym freq => exact keptOrAllocated_prefix (execLeaf_allocatesOnly h).2
  | xmin => rw [execXmin_nodes h]
  | size => rw [execSize_nodes h]
  | merge => exact keptOrAllocated_prefix (execMerge_allocatesOnly h).2
  | build => exact execBuild_nodes_prefix h
  | dbit v => rw [execDbit_nodes h]
  | dend => rw [execDend_nodes h]
  | stat => rw [execStat_nodes h]
  | node idx => rw [execNode_nodes h]

/-! ### CLR has one word (R73, R74) -/

theorem ifReservedZero_eq_ok_iff {n : Nat} {m : String} {r : BitVec n} {i j : Instr} :
    ifReservedZero m r i = .ok j ↔ r = 0#n ∧ i = j := by
  by_cases hr : r = 0#n <;> simp [ifReservedZero, hr]

/-- A word is its opcode above its other bits. -/
theorem opField_append_rest (w : CmdWord) : opField w ++ w.extractLsb' 0 44 = w := by
  have := w.isLt
  apply BitVec.eq_of_toNat_eq
  rw [opField, toNat_append_eq_add, BitVec.extractLsb'_toNat, BitVec.extractLsb'_toNat]
  omega

theorem decode_eq_clr {w : CmdWord} (h : decode w = .ok .clr) : w = 0x100000000000#48 := by
  unfold decode at h
  split at h
  next hop =>
    obtain ⟨hrest, -⟩ := ifReservedZero_eq_ok_iff.mp h
    rw [← opField_append_rest w, hop, hrest]
    rfl
  all_goals simp [ifReservedZero_eq_ok_iff] at h

theorem frontEnd_nodes_prefix {s t : State} {w : CmdWord} (hw : w ≠ 0x100000000000#48) (h : frontEnd w s = .next t) :
    s.nodes <+: t.nodes := by
  unfold frontEnd at h
  split at h
  · next i hi => exact exec_nodes_prefix (fun hclr => hw (decode_eq_clr (hclr ▸ hi))) h
  · rw [illegalWord_nodes h]

/-- A step on a command word is what the front end makes of it (R78, R83). -/
theorem step_of_cmd {s : State} {w : CmdWord} {es : List HostEvent} (h : s.input = .cmd w :: es) :
    step s = frontEnd w (s.withInput es) := by
  rw [step, nextEvent, h]

/-! ### The obligations -/

/-- Settles O14: the extraction takes the entry of the split, and XMIN answers what the extraction gives. -/
theorem xminTakesEarliestMinimum : Obligations.XminTakesEarliestMinimum := by
  intro s before after n k herr htv hmin
  have hx := execXmin_of_extractMin herr htv (extractMin_of_earliestMin hmin)
  calc exec .xmin s = respondOk (s.withPq (before ++ after)) (freqIdxData k n) := hx
    _ = .next { s with pq := before ++ after, rsp := okRsp (k.toNat * 2 ^ 32 + n.toNat) } := by
      rw [respondOk_eq_next_iff, rspWord_ok_eq_okRsp, freqIdxData_toNat]
      rfl

/-- Settles O15: an extraction finds a split, and the position `minpos` gives leaves no second one. -/
theorem earliestMinimumIsUnique : Obligations.EarliestMinimumIsUnique := by
  intro s hq hne
  obtain ⟨before, n, k, after, hmin⟩ := exists_earliestMin hne hq
  refine ⟨(before, n, k, after), hmin, ?_⟩
  rintro ⟨before', n', k', after'⟩ hmin'
  obtain ⟨rfl, rfl, rfl, rfl⟩ := earliestMin_unique hmin hmin'
  rfl

/-- Settles O48: both commands at most allocate, and an allocation is read at `NODE_COUNT` only. -/
theorem allocatingCommandsFrame : Obligations.AllocatingCommandsFrame := by
  intro s t i hi _ h
  obtain ⟨hframe, hstore⟩ : AllocatesOnly s t := by
    rcases hi with ⟨sym, freq, rfl⟩ | rfl
    · exact execLeaf_allocatesOnly h
    · exact execMerge_allocatesOnly h
  exact ⟨hframe, fun j hj => keptOrAllocated_nodeAt hstore hj⟩

/-- Settles O50, command by command; CLR is excluded because it has one word only. -/
theorem nodesAreNeverMutated : Obligations.NodesAreNeverMutated := by
  intro s t w es hin hw h
  rw [step_of_cmd hin] at h
  exact frontEnd_nodes_prefix (s := s.withInput es) hw h

end Sys2Proof.Proofs
end

section
/-! SUPPORT. The statements that rest on spec/10_state.md: what a step can do, said once (`step_cases`), the invariant of R33
to R37 kept by each effect, and what follows from it for the walks and the frequencies of a tree. -/

namespace Sys2Proof.Proofs

open Sys2Proof.Machine Sys2Proof.Safety Sys2Proof.Laws

/-! ### What a step can do -/

/-- `t` is `u` with a response and, when an error was raised, with its code. UnknownSymbolError is no command's (R197). -/
def RespondsFrom (u t : State) : Prop :=
  ∃ r, t = u.withRsp r ∨ ∃ e, e ≠ ErrKind.unknownSymbol ∧ t = (u.withErr e.code).withRsp r

theorem gated_respondsFrom {s t : State} (h : Gated s t) : RespondsFrom s t :=
  ⟨_, .inl h.2⟩

theorem raised_respondsFrom {s t : State} {e : ErrKind} (he : e ≠ .unknownSymbol) (h : Raised s t e) : RespondsFrom s t :=
  ⟨_, .inr ⟨e, he, h.2⟩⟩

theorem answered_respondsFrom {s t u : State} {d : Data} (h : Answered s t u d) : RespondsFrom u t :=
  ⟨_, .inl h.2⟩

theorem respondsFrom_tv {u t : State} (h : RespondsFrom u t) : t.tv = u.tv := by
  obtain ⟨r, rfl | ⟨e, -, rfl⟩⟩ := h <;> rfl

/-- What a command word but CLR does to the block, apart from ERR, the response, and the forming of a tree. -/
inductive Effect (s : State) : State → Prop where
  | keep : Effect s s
  | allocLeaf {sym : Symbol} {freq : Freq} (noTree : s.tv = false) (room : s.storeFull = false)
      (queueRoom : s.queueFull = false) : Effect s ((s.allocNode (.leaf sym freq)).pqInsert s.nodeCount)
  | extract {x : Extracted} (noTree : s.tv = false) (min : extractMin s.nodes s.pq = some x) : Effect s (s.withPq x.rest)
  | merges {k : Nat} {u : State} (noTree : s.tv = false) (passes : Passes k s u) : Effect s u
  | backToRoot (tree : s.tv = true) : Effect s (s.withCur s.root)
  | descend {b : Bool} {f g : Freq} {l r l' r' : NodeIdx} {n : Node} (tree : s.tv = true)
      (root : nodeAt s.nodes s.root = some (.internal f l r)) (cur : nodeAt s.nodes s.cur = some n)
      (child : nodeAt s.nodes (n.child b) = some (.internal g l' r')) : Effect s (s.withCur (n.child b))

theorem passes_tv {k : Nat} {s t : State} (h : Passes k s t) : t.tv = s.tv := by
  rw [passes_others h]

theorem passes_err {k : Nat} {s t : State} (h : Passes k s t) : t.err = s.err := by
  rw [passes_others h]

/-- Only the forming of a tree touches TV (R24). -/
theorem effect_tv {s u : State} (h : Effect s u) : u.tv = s.tv := by
  cases h with
  | merges _ hp => exact passes_tv hp
  | _ => rfl

/-- The passes of a BUILD have left one entry, and it has become the tree (R108, R109). -/
def FormsTree (s t : State) : Prop :=
  s.tv = false ∧ s.err = 0#4 ∧ ∃ k u n r, Passes k s u ∧ u.pq = [n] ∧ t = (u.formTree n).withRsp r

theorem mergeStep_failed_ne_unknownSymbol {s : State} {e : ErrKind} (h : mergeStep s = .failed e) : e ≠ .unknownSymbol := by
  rcases mergeStep_eq_failed h with ⟨-, rfl⟩ | ⟨a, b, -, -, ⟨-, rfl⟩ | ⟨-, -, rfl⟩⟩ <;> decide

theorem execBuild_cases {s t : State} (h : execBuild s = .next t) :
    (∃ u, Effect s u ∧ RespondsFrom u t) ∨ FormsTree s t := by
  rcases execBuild_eq_next h with hg | ⟨-, hr⟩ | ⟨htv, hz, k, u, hp, ⟨-, ha⟩ | ⟨n, rec, hq, -, ha⟩ | ⟨e, -, he, hr⟩⟩
  · exact .inl ⟨s, .keep, gated_respondsFrom hg⟩
  · exact .inl ⟨s, .keep, raised_respondsFrom (by decide) hr⟩
  · exact .inl ⟨u, .merges htv hp, answered_respondsFrom ha⟩
  · exact .inr ⟨htv, hz, k, u, n, _, hp, hq, ha.2⟩
  · exact .inl ⟨u, .merges htv hp, raised_respondsFrom (mergeStep_failed_ne_unknownSymbol he) hr⟩

theorem execLeaf_effect {s t : State} {sym : Symbol} {freq : Freq} (h : execLeaf sym freq s = .next t) :
    ∃ u, Effect s u ∧ RespondsFrom u t := by
  rcases execLeaf_eq_next h with hg | ⟨-, hr⟩ | ⟨-, -, hr⟩ | ⟨htv, hroom, hqueue, ha⟩
  · exact ⟨s, .keep, gated_respondsFrom hg⟩
  · exact ⟨s, .keep, raised_respondsFrom (by decide) hr⟩
  · exact ⟨s, .keep, raised_respondsFrom (by decide) hr⟩
  · exact ⟨_, .allocLeaf htv hroom hqueue, answered_respondsFrom ha⟩

theorem execXmin_effect {s t : State} (h : execXmin s = .next t) : ∃ u, Effect s u ∧ RespondsFrom u t := by
  rcases execXmin_eq_next h with hg | ⟨-, hr⟩ | ⟨-, -, hr⟩ | ⟨htv, x, hx, ha⟩
  · exact ⟨s, .keep, gated_respondsFrom hg⟩
  · exact ⟨s, .keep, raised_respondsFrom (by decide) hr⟩
  · exact ⟨s, .keep, raised_respondsFrom (by decide) hr⟩
  · exact ⟨_, .extract htv hx, answered_respondsFrom ha⟩

theorem execSize_effect {s t : State} (h : execSize s = .next t) : ∃ u, Effect s u ∧ RespondsFrom u t := by
  rcases gated_next h with hg | ⟨hz, h⟩
  · exact ⟨s, .keep, gated_respondsFrom hg⟩
  · exact ⟨s, .keep, answered_respondsFrom (answered_next hz h)⟩

theorem execMerge_effect {s t : State} (h : execMerge s = .next t) : ∃ u, Effect s u ∧ RespondsFrom u t := by
  rcases execMerge_eq_next h with hg | ⟨-, hr⟩ | ⟨-, e, he, hr⟩ | ⟨htv, n, f, u, hm, ha⟩
  · exact ⟨s, .keep, gated_respondsFrom hg⟩
  · exact ⟨s, .keep, raised_respondsFrom (by decide) hr⟩
  · exact ⟨s, .keep, raised_respondsFrom (mergeStep_failed_ne_unknownSymbol he) hr⟩
  · exact ⟨u, .merges htv (.more hm (.none u)), answered_respondsFrom ha⟩

theorem execDbit_effect {s t : State} {v : StreamElem} (h : execDbit v s = .next t) :
    ∃ u, Effect s u ∧ RespondsFrom u t := by
  rcases execDbit_eq_next h with hg | ⟨-, hr⟩ | ⟨-, -, hr⟩ |
    ⟨htv, b, -, ⟨sym, f, -, ha⟩ | ⟨f, l, r, n, hroot, hcur, ⟨sym, g, -, ha⟩ | ⟨g, l', r', hchild, ha⟩⟩⟩
  · exact ⟨s, .keep, gated_respondsFrom hg⟩
  · exact ⟨s, .keep, raised_respondsFrom (by decide) hr⟩
  · exact ⟨s, .keep, raised_respondsFrom (by decide) hr⟩
  · exact ⟨s, .keep, answered_respondsFrom ha⟩
  · exact ⟨_, .backToRoot htv, answered_respondsFrom ha⟩
  · exact ⟨_, .descend htv hroot hcur hchild, answered_respondsFrom ha⟩

theorem execDend_effect {s t : State} (h : execDend s = .next t) : ∃ u, Effect s u ∧ RespondsFrom u t := by
  rcases execDend_eq_next h with hg | ⟨-, -, hr⟩ | ⟨-, ha⟩
  · exact ⟨s, .keep, gated_respondsFrom hg⟩
  · exact ⟨s, .keep, raised_respondsFrom (by decide) hr⟩
  · exact ⟨s, .keep, answered_respondsFrom ha⟩

theorem execStat_effect {s t : State} (h : execStat s = .next t) : ∃ u, Effect s u ∧ RespondsFrom u t :=
  ⟨s, .keep, _, .inl (respondOk_eq_next_iff.mp h)⟩

theorem execNode_effect {s t : State} {idx : NodeIdx} (h : execNode idx s = .next t) :
    ∃ u, Effect s u ∧ RespondsFrom u t := by
  rcases execNode_eq_next h with hg | ⟨n, -, ha⟩ | ⟨-, ha⟩
  · exact ⟨s, .keep, gated_respondsFrom hg⟩
  · exact ⟨s, .keep, answered_respondsFrom ha⟩
  · exact ⟨s, .keep, answered_respondsFrom ha⟩

theorem illegalWord_effect {s t : State} (h : illegalWord s = .next t) : ∃ u, Effect s u ∧ RespondsFrom u t := by
  rcases gated_next h with hg | ⟨hz, h⟩
  · exact ⟨s, .keep, gated_respondsFrom hg⟩
  · exact ⟨s, .keep, raised_respondsFrom (by decide) (raised_next hz h)⟩

/-- Everything a command can do: CLR clears the block, BUILD can form a tree, and all else is an effect. -/
theorem exec_cases {s t : State} {i : Instr} (h : exec i s = .next t) :
    (i = .clr ∧ ∃ r, t = s.clearBlock.withRsp r) ∨ (i = .build ∧ FormsTree s t) ∨ ∃ u, Effect s u ∧ RespondsFrom u t := by
  cases i with
  | clr => exact .inl ⟨rfl, _, respondOk_eq_next_iff.mp h⟩
  | leaf sym freq => exact .inr (.inr (execLeaf_effect h))
  | xmin => exact .inr (.inr (execXmin_effect h))
  | size => exact .inr (.inr (execSize_effect h))
  | merge => exact .inr (.inr (execMerge_effect h))
  | build => exact .inr ((execBuild_cases h).symm.imp_left fun hf => ⟨rfl, hf⟩)
  | dbit v => exact .inr (.inr (execDbit_effect h))
  | dend => exact .inr (.inr (execDend_effect h))
  | stat => exact .inr (.inr (execStat_effect h))
  | node idx => exact .inr (.inr (execNode_effect h))

/-- BUILD has one word (R73, R74). -/
theorem decode_eq_build {w : CmdWord} (h : decode w = .ok .build) : w = 0x600000000000#48 := by
  unfold decode at h
  split at h <;> simp only [ifReservedZero_eq_ok_iff, reduceCtorEq, and_false, and_true] at h
  next hop =>
    rw [← opField_append_rest w, hop, h]
    rfl

/-- Everything the front end can do with a word, legal or not (R78). -/
theorem frontEnd_cases {s t : State} {w : CmdWord} (h : frontEnd w s = .next t) :
    (w = 0x100000000000#48 ∧ ∃ r, t = s.clearBlock.withRsp r) ∨ (w = 0x600000000000#48 ∧ FormsTree s t) ∨
      ∃ u, Effect s u ∧ RespondsFrom u t := by
  unfold frontEnd at h
  split at h
  · next i hi =>
    rcases exec_cases h with ⟨rfl, hclr⟩ | ⟨rfl, htree⟩ | heff
    · exact .inl ⟨decode_eq_clr hi, hclr⟩
    · exact .inr (.inl ⟨decode_eq_build hi, htree⟩)
    · exact .inr (.inr heff)
  · exact .inr (.inr (illegalWord_effect h))

/-- Everything a step can do: nothing, a reset event, a CLR, a BUILD that forms a tree, or the effect of another word. -/
theorem step_cases {s t : State} (h : step s = .next t) :
    (s.input = [] ∧ t = s) ∨
      ∃ es, (s.input = .rst :: es ∧ t = resetBlock (s.withInput es)) ∨
        (s.input = .cmd 0x100000000000#48 :: es ∧ ∃ r, t = (s.withInput es).clearBlock.withRsp r) ∨
        (s.input = .cmd 0x600000000000#48 :: es ∧ FormsTree (s.withInput es) t) ∨
        ∃ u, Effect (s.withInput es) u ∧ RespondsFrom u t := by
  unfold step nextEvent at h
  split at h
  · next hin => exact .inl ⟨hin, (Host.Outcome.next.inj h).symm⟩
  · next es hin => exact .inr ⟨es, .inl ⟨hin, (Host.Outcome.next.inj h).symm⟩⟩
  · next w es hin =>
    refine .inr ⟨es, .inr ?_⟩
    rcases frontEnd_cases h with ⟨rfl, hclr⟩ | ⟨rfl, htree⟩ | heff
    · exact .inl ⟨hin, hclr⟩
    · exact .inr (.inl ⟨hin, htree⟩)
    · exact .inr (.inr heff)

/-! ### The invariant of the store (R33, R34, R37) -/

theorem exists_nodeAt {ns : NodeStore} {i : NodeIdx} (h : i.toNat < ns.length) : ∃ n, nodeAt ns i = some n :=
  Option.isSome_iff_exists.mp ((nodeAt_isSome_iff ns i).mpr h)

theorem key_eq_some_iff {ns : NodeStore} {i : NodeIdx} {k : Freq} :
    key ns i = some k ↔ ∃ n, nodeAt ns i = some n ∧ n.freq = k :=
  Option.map_eq_some_iff

theorem key_lt_length {ns : NodeStore} {i : NodeIdx} {k : Freq} (h : key ns i = some k) : i.toNat < ns.length := by
  obtain ⟨n, hn, -⟩ := key_eq_some_iff.mp h
  exact nodeAt_eq_some_lt hn

/-- An allocation leaves every key it finds. -/
theorem key_append_of_some {ns : NodeStore} {i : NodeIdx} {k : Freq} (m : Node) (h : key ns i = some k) :
    key (ns ++ [m]) i = some k := by
  obtain ⟨n, hn, hk⟩ := key_eq_some_iff.mp h
  exact key_eq_some_iff.mpr ⟨n, nodeAt_append_of_some m hn, hk⟩

/-- The children of an internal node are allocated, and its frequency is the exact sum of theirs (R37). -/
def SumsChildren (ns : NodeStore) (m : Node) : Prop :=
  ∀ f l r, m = .internal f l r → ∃ a b, key ns l = some a ∧ key ns r = some b ∧ f.toNat = a.toNat + b.toNat

theorem sumsChildren_append {ns : NodeStore} {m : Node} (m' : Node) (h : SumsChildren ns m) :
    SumsChildren (ns ++ [m']) m := by
  intro f l r hm
  obtain ⟨a, b, ha, hb, hf⟩ := h f l r hm
  exact ⟨a, b, key_append_of_some m' ha, key_append_of_some m' hb, hf⟩

theorem sumsChildren_children_lt {ns : NodeStore} {m : Node} (h : SumsChildren ns m) :
    ∀ c ∈ children m, c.toNat < ns.length := by
  cases m with
  | leaf sym freq => simp [children]
  | internal f l r =>
    obtain ⟨a, b, ha, hb, -⟩ := h f l r rfl
    simpa [children] using ⟨key_lt_length ha, key_lt_length hb⟩

/-- A record of the store after an allocation is an old one, or the one allocated. -/
theorem getElem?_append_one_cases {ns : NodeStore} {m n : Node} {p : Nat} (h : (ns ++ [m])[p]? = some n) :
    ns[p]? = some n ∨ (p = ns.length ∧ n = m) := by
  rw [List.getElem?_append] at h
  split at h
  · exact .inl h
  · next hp =>
    obtain ⟨hlt, hn⟩ := List.getElem?_eq_some_iff.mp h
    rw [List.length_singleton] at hlt
    exact .inr ⟨by omega, by simpa using hn.symm⟩

theorem storeInv_append {ns : NodeStore} {m : Node} (h : StoreInv ns) (hroom : ns.length < 511)
    (hm : SumsChildren ns m) : StoreInv (ns ++ [m]) where
  bound := by
    rw [memory_wf_iff, List.length_append, List.length_singleton]
    omega
  childBefore p n hn := by
    rcases getElem?_append_one_cases hn with hold | ⟨rfl, rfl⟩
    · exact h.childBefore p n hold
    · exact sumsChildren_children_lt hm
  exactSum p f l r hn := by
    rcases getElem?_append_one_cases hn with hold | ⟨-, hnew⟩
    · have hsum : SumsChildren ns (.internal f l r) := by
        rintro f l r ⟨⟩
        exact h.exactSum p _ _ _ hold
      exact sumsChildren_append m hsum f l r rfl
    · exact sumsChildren_append m hm f l r hnew.symm

theorem childLinks_append (ns : NodeStore) (m : Node) : childLinks (ns ++ [m]) = childLinks ns ++ children m := by
  simp [childLinks]

theorem childLinks_lt {ns : NodeStore} (h : StoreInv ns) : ∀ c ∈ childLinks ns, c.toNat < ns.length := by
  intro c hc
  obtain ⟨n, hn, hcn⟩ := List.mem_flatMap.mp hc
  obtain ⟨p, hp⟩ := List.mem_iff_getElem?.mp hn
  obtain ⟨hlt, -⟩ := List.getElem?_eq_some_iff.mp hp
  exact (h.childBefore p n hp c hcn).trans hlt

/-! ### The invariant of the machine, update by update (R33 to R37) -/

/-- The state elements of `S0` meet the invariant (R32). -/
theorem inv_clearBlock (s : State) : Inv s.clearBlock where
  store := ⟨clearBlock_wf s, by simp, by simp⟩
  queueBound := Nat.zero_le _
  queueAllocated := by simp [QueueAllocated]
  queueAscending := .nil
  ownedOnce := .nil
  errLegal := by simp
  noTree _ := ⟨rfl, rfl⟩
  frozen htv := by simp at htv

theorem inv_withRsp {s : State} (h : Inv s) (r : Option RspWord) : Inv (s.withRsp r) :=
  { h with }

theorem inv_withInput {s : State} (h : Inv s) (es : List HostEvent) : Inv (s.withInput es) :=
  { h with }

/-- The codes that commands raise are the legal values of ERR but 0 (R25, R181, R197). -/
theorem inv_withErr {s : State} {e : ErrKind} (h : Inv s) (he : e ≠ .unknownSymbol) : Inv (s.withErr e.code) :=
  { h with
    errLegal := by
      cases e with
      | unknownSymbol => exact absurd rfl he
      | _ => simp [ErrKind.code] }

theorem inv_of_respondsFrom {u t : State} (hu : Inv u) (h : RespondsFrom u t) : Inv t := by
  obtain ⟨r, rfl | ⟨e, he, rfl⟩⟩ := h
  · exact inv_withRsp hu r
  · exact inv_withRsp (inv_withErr hu he) r

/-- Without a tree, entries can be taken off the queue (R105). -/
theorem inv_withPq_sublist {s : State} {q : List NodeIdx} (h : Inv s) (htv : s.tv = false) (hq : q.Sublist s.pq) :
    Inv (s.withPq q) :=
  { h with
    queueBound := hq.length_le.trans h.queueBound
    queueAllocated := fun n hn => h.queueAllocated n (hq.subset hn)
    queueAscending := h.queueAscending.sublist hq
    ownedOnce := h.ownedOnce.sublist (hq.append_right _)
    frozen := fun h' => absurd h' (by simp [htv]) }

/-- Without a tree, a node whose children come off the queue can be allocated and queued: LEAF, which takes none, and a merge
step, which takes two (R103, R104). -/
theorem inv_allocAndQueue {s : State} {q : List NodeIdx} {m : Node} (h : Inv s) (htv : s.tv = false)
    (hroom : s.storeFull = false) (hlen : q.length < 256) (hq : q.Sublist s.pq) (hperm : s.pq.Perm (q ++ children m))
    (hm : SumsChildren s.nodes m) : Inv ((s.withPq (q ++ [s.nodeCount])).allocNode m) := by
  have hcount : s.nodeCount.toNat = s.nodes.length := nodeCount_toNat hroom
  have hold : ∀ n ∈ q, n.toNat < s.nodes.length := fun n hn => h.queueAllocated n (hq.subset hn)
  have hfresh : s.nodeCount ∉ s.pq ++ childLinks s.nodes := by
    intro hmem
    have hlt : s.nodeCount.toNat < s.nodes.length :=
      (List.mem_append.mp hmem).elim (h.queueAllocated _) (childLinks_lt h.store _)
    omega
  have howned : (q ++ [s.nodeCount] ++ (childLinks s.nodes ++ children m)).Perm
      (s.nodeCount :: (s.pq ++ childLinks s.nodes)) := by
    refine List.perm_iff_count.mpr fun c => ?_
    have hcnt := hperm.count_eq c
    simp only [List.count_append, List.count_cons, List.count_nil] at hcnt ⊢
    omega
  refine { h with store := ?_, queueBound := ?_, queueAllocated := ?_, queueAscending := ?_, ownedOnce := ?_, frozen := ?_ }
  · exact storeInv_append h.store ((storeFull_eq_false_iff s).mp hroom) hm
  · simpa [Config.pqCap] using hlen
  · intro n hn
    rcases List.mem_append.mp hn with hn | hn
    · simpa using (hold n hn).trans (Nat.lt_succ_self _)
    · simp [List.mem_singleton.mp hn, hcount]
  · refine List.pairwise_append.mpr ⟨h.queueAscending.sublist hq, List.pairwise_singleton _ _, fun n hn c hc => ?_⟩
    rw [List.mem_singleton.mp hc, hcount]
    exact hold n hn
  · simpa only [allocNode_pq, withPq_pq, allocNode_nodes, withPq_nodes, childLinks_append] using
      howned.nodup_iff.mpr (List.nodup_cons.mpr ⟨hfresh, h.ownedOnce⟩)
  · exact fun h' => absurd h' (by simp [htv])

/-- An extraction splits the queue into the entry taken and the rest (R102). -/
theorem extractMin_perm {ns : NodeStore} {q : List NodeIdx} {x : Extracted} (h : extractMin ns q = some x) :
    q.Perm (x.node :: x.rest) := by
  obtain ⟨before, after, ⟨rfl, -⟩, hr⟩ := extractMin_eq_some h
  exact hr ▸ List.perm_middle

/-- A completed merge step keeps the invariant (R103). -/
theorem mergeStep_keeps_inv {s t : State} {n : NodeIdx} {f : Freq} (h : Inv s) (htv : s.tv = false)
    (hm : mergeStep s = .merged n f t) : Inv t := by
  obtain ⟨a, b, ha, hb, hsum, hroom, rfl, rfl⟩ := mergeStep_eq_merged hm
  obtain ⟨hsubA, hlenA, -, hkeyA⟩ := extractMin_rest ha
  obtain ⟨hsubB, hlenB, -, hkeyB⟩ := extractMin_rest hb
  have hbound : s.pq.length ≤ 256 := h.queueBound
  have hperm : s.pq.Perm (b.rest ++ [a.node, b.node]) :=
    (extractMin_perm ha).trans (((extractMin_perm hb).cons a.node).trans (List.perm_append_comm (l₁ := [a.node, b.node])))
  refine inv_allocAndQueue h htv hroom (by omega) (hsubB.trans hsubA) hperm ?_
  rintro _ _ _ ⟨⟩
  exact ⟨a.freq, b.freq, hkeyA, hkeyB, hsum⟩

theorem passes_keep_inv {k : Nat} {s t : State} (h : Inv s) (htv : s.tv = false) (hp : Passes k s t) : Inv t := by
  induction hp with
  | none s => exact h
  | more first _ ih =>
    refine ih (mergeStep_keeps_inv h htv first) ?_
    rw [mergeStep_others first]
    exact htv

/-- The one entry that is left can become the tree (R36, R109). -/
theorem inv_formTree {s : State} {n : NodeIdx} (h : Inv s) (hq : s.pq = [n]) : Inv (s.formTree n) :=
  { h with
    noTree := fun h' => absurd h' (by simp)
    frozen := fun _ => ⟨hq, .inl rfl⟩ }

/-- With a tree, the decoder can stand at the root or at an internal node below it (R36). -/
theorem inv_withCur {s : State} {c : NodeIdx} (h : Inv s) (htv : s.tv = true)
    (hc : c = s.root ∨ ∃ path f l r, walkPath s.nodes s.root path = some c ∧ nodeAt s.nodes c = some (.internal f l r)) :
    Inv (s.withCur c) :=
  { h with
    noTree := fun h' => absurd (htv.symm.trans h') (by simp)
    frozen := fun _ => ⟨(h.frozen htv).1, hc⟩ }

/-- A walk that has reached an internal node goes on to its child. -/
theorem walkPath_append_child {ns : NodeStore} {p c l r : NodeIdx} {path : List Bool} {f : Freq} (b : Bool)
    (hwalk : walkPath ns p path = some c) (hc : nodeAt ns c = some (.internal f l r)) :
    walkPath ns p (path ++ [b]) = some ((Node.internal f l r).child b) := by
  induction path generalizing p with
  | nil =>
    obtain rfl : p = c := by simpa [walkPath] using hwalk
    simp [walkPath, hc, Node.child, Node.left, Node.right]
  | cons b' path ih =>
    simp only [walkPath, List.cons_append] at hwalk ⊢
    split at hwalk
    · exact ih hwalk
    · cases hwalk

/-- On a tree that is not degenerate the decoder stands at an internal node, the root included. -/
theorem inv_cur_internal {s : State} {f : Freq} {l r : NodeIdx} (h : Inv s) (htv : s.tv = true)
    (hroot : nodeAt s.nodes s.root = some (.internal f l r)) :
    ∃ path g l' r', walkPath s.nodes s.root path = some s.cur ∧ nodeAt s.nodes s.cur = some (.internal g l' r') := by
  rcases (h.frozen htv).2 with hcur | hbelow
  · exact ⟨[], f, l, r, by rw [hcur]; rfl, by rw [hcur]; exact hroot⟩
  · exact hbelow

theorem effect_keeps_inv {s u : State} (h : Inv s) (he : Effect s u) : Inv u := by
  cases he with
  | keep => exact h
  | @allocLeaf sym freq htv hroom hqueue =>
    exact inv_allocAndQueue (m := .leaf sym freq) h htv hroom ((queueFull_eq_false_iff s).mp hqueue) (List.Sublist.refl _)
      (by simp [children]) (by simp [SumsChildren])
  | extract htv hx => exact inv_withPq_sublist h htv (extractMin_rest hx).1
  | merges htv hp => exact passes_keep_inv h htv hp
  | backToRoot htv => exact inv_withCur h htv (.inl rfl)
  | @descend b f g l r l' r' n htv hroot hcur hchild =>
    obtain ⟨path, f', l'', r'', hwalk, hint⟩ := inv_cur_internal h htv hroot
    obtain rfl := Option.some.inj (hcur.symm.trans hint)
    exact inv_withCur h htv (.inr ⟨_, _, _, _, walkPath_append_child b hwalk hint, hchild⟩)

theorem formsTree_keeps_inv {s t : State} (h : Inv s) (hf : FormsTree s t) : Inv t := by
  obtain ⟨htv, -, k, u, n, r, hp, hq, rfl⟩ := hf
  exact inv_withRsp (inv_formTree (passes_keep_inv h htv hp) hq) r

/-! ### Walks and frequencies of a tree (R34, R37) -/

theorem children_lt_parent {ns : NodeStore} {p l r : NodeIdx} {f : Freq} (h : StoreInv ns)
    (hp : nodeAt ns p = some (.internal f l r)) : l.toNat < p.toNat ∧ r.toNat < p.toNat := by
  simpa [children] using h.childBefore p.toNat _ hp

theorem leadsToLeaf_cons_iff {ns : NodeStore} {p l r : NodeIdx} {f : Freq} {b : Bool} {path : List Bool} {sym : Symbol}
    (hp : nodeAt ns p = some (.internal f l r)) :
    LeadsToLeaf ns p (b :: path) sym ↔ LeadsToLeaf ns ((Node.internal f l r).child b) path sym := by
  simp [LeadsToLeaf, walkPath, hp, Node.child, Node.left, Node.right]

/-- Each step of a walk goes to a smaller index, so the bits suffice (R34). -/
theorem exists_leadsToLeaf_take {ns : NodeStore} (h : StoreInv ns) {bits : List Bool} {p : NodeIdx} {n : Node}
    (hn : nodeAt ns p = some n) (hbits : p.toNat ≤ bits.length) :
    ∃ k ≤ p.toNat, ∃ sym, LeadsToLeaf ns p (bits.take k) sym := by
  induction bits generalizing p n with
  | nil =>
    cases n with
    | leaf sym f => exact ⟨0, Nat.zero_le _, sym, p, f, rfl, hn⟩
    | internal f l r =>
      have hlt := (children_lt_parent h hn).1
      rw [List.length_nil] at hbits
      omega
  | cons b bits ih =>
    cases n with
    | leaf sym f => exact ⟨0, Nat.zero_le _, sym, p, f, rfl, hn⟩
    | internal f l r =>
      have hlt : ((Node.internal f l r).child b).toNat < p.toNat := by
        obtain ⟨hl, hr⟩ := children_lt_parent h hn
        cases b <;> assumption
      obtain ⟨c, hc⟩ := exists_nodeAt (hlt.trans (nodeAt_eq_some_lt hn))
      obtain ⟨k, hk, sym, hleaf⟩ := ih hc (by rw [List.length_cons] at hbits; omega)
      exact ⟨k + 1, by omega, sym, (leadsToLeaf_cons_iff hn).mpr hleaf⟩

/-- With fuel for every level, the frequency of a node is the sum over its leaves. -/
theorem freq_eq_freqSum_leavesUnder {ns : NodeStore} (h : StoreInv ns) {fuel : Nat} {p : NodeIdx} {n : Node}
    (hn : nodeAt ns p = some n) (hfuel : p.toNat < fuel) : n.freq.toNat = freqSum (leavesUnder ns fuel p) := by
  induction fuel generalizing p n with
  | zero => omega
  | succ fuel ih =>
    cases n with
    | leaf sym f => simp [leavesUnder, hn, freqSum, Node.freq]
    | internal f l r =>
      obtain ⟨hl, hr⟩ := children_lt_parent h hn
      obtain ⟨a, b, ha, hb, hf⟩ := h.exactSum p.toNat f l r hn
      obtain ⟨nl, hnl, rfl⟩ := key_eq_some_iff.mp ha
      obtain ⟨nr, hnr, rfl⟩ := key_eq_some_iff.mp hb
      calc f.toNat = nl.freq.toNat + nr.freq.toNat := hf
        _ = freqSum (leavesUnder ns fuel l) + freqSum (leavesUnder ns fuel r) := by
          rw [ih hnl (by omega), ih hnr (by omega)]
        _ = freqSum (leavesUnder ns (fuel + 1) p) := by simp [leavesUnder, hn, freqSum]

/-! ### Words of errors and of the status (R30, R77) -/

theorem rspWord_zero_eq_errRsp (c : Code) : some (rspWord c 0#64) = errRsp c := by
  refine congrArg some (BitVec.eq_of_toNat_eq ?_)
  have := c.isLt
  rw [rspWord, toNat_append_eq_add, BitVec.toNat_ofNat, BitVec.toNat_ofNat]
  omega

theorem raiseError_eq_raised {s : State} (e : ErrKind) (h : s.err = 0#4) : raiseError s e = .next (raised s e.code) := by
  rw [raiseError_of_err_zero e h, rspWord_zero_eq_errRsp]
  rfl

/-- The head that the commands on the queue have in common: with a tree they raise SequenceError (R24, R189). -/
theorem queueCommand_of_tree {s : State} (r : Result) (herr : s.err = 0#4) (htv : s.tv = true) :
    faultGate s (if s.tv then raiseError s .sequence else r) = .next (raised s 11#4) := by
  rw [faultGate_of_err_zero _ herr, if_pos htv, raiseError_eq_raised _ herr]
  rfl

/-- The fields of the status word in their bits (R30). -/
theorem statusWord_toNat {s : State} (hnodes : s.nodes.length ≤ 511) (hpq : s.pq.length ≤ 256) :
    (statusWord s).toNat = s.cur.toNat * 2 ^ 44 + s.root.toNat * 2 ^ 32 + s.nodes.length * 2 ^ 20 +
      s.pq.length * 2 ^ 8 + (if s.tv = true ∧ s.cur = s.root then 2 ^ 5 else 0) + (if s.tv then 2 ^ 4 else 0) +
      s.err.toNat := by
  have hcur := s.cur.isLt
  have hroot := s.root.isLt
  have hcount : (s.nodeCount.setWidth 12).toNat = s.nodes.length := by
    simp [State.nodeCount]
    omega
  have har : (BitVec.ofBool s.atRoot).toNat = if s.tv = true ∧ s.cur = s.root then 1 else 0 := by
    by_cases htv : s.tv = true <;> by_cases hc : s.cur = s.root <;> simp [State.atRoot, htv, hc]
  have htv : (BitVec.ofBool s.tv).toNat = if s.tv then 1 else 0 := by cases s.tv <;> rfl
  simp only [statusWord, toNat_append_eq_add, hcount, har, htv, BitVec.toNat_setWidth, BitVec.toNat_ofNat]
  rw [Nat.mod_eq_of_lt (show s.cur.toNat < 2 ^ 12 by omega), Nat.mod_eq_of_lt (show s.root.toNat < 2 ^ 12 by omega),
    Nat.mod_eq_of_lt (show s.pq.length < 2 ^ 12 by omega)]
  split <;> split <;> omega

/-! ### `S0` (R32) -/

theorem isS0_of_clearBlock (s : State) (r : Option RspWord) : IsS0 (s.clearBlock.withRsp r) :=
  ⟨rfl, rfl, rfl, rfl, rfl, rfl, fun _ => rfl⟩

/-! ### The obligations -/

/-- Settles O52: a step is one of the cases of `step_cases`, and the invariant is kept in each. -/
theorem stepKeepsInvariant : Obligations.StepKeepsInvariant := by
  intro s t h hstep
  rcases step_cases hstep with ⟨-, rfl⟩ | ⟨es, ⟨-, rfl⟩ | ⟨-, r, rfl⟩ | ⟨-, htree⟩ | ⟨u, heff, hrsp⟩⟩
  · exact h
  · exact inv_withRsp (inv_clearBlock _) none
  · exact inv_withRsp (inv_clearBlock _) r
  · exact formsTree_keeps_inv (inv_withInput h es) htree
  · exact inv_of_respondsFrom (effect_keeps_inv (inv_withInput h es) heff) hrsp

/-- Settles O37: the status word is the number of its fields, and STAT answers it. -/
theorem statAnswersTheStatusWord : Obligations.StatAnswersTheStatusWord := by
  refine ⟨fun s hnodes hpq => ?_, rfl⟩
  calc exec .stat s = .next (s.withRsp (some (rspWord 0#4 (statusWord s)))) := rfl
    _ = .next (s.withRsp (okRsp (statusWord s).toNat)) := by rw [rspWord_ok_eq_okRsp]
    _ = _ := by
      rw [statusWord_toNat hnodes hpq]
      rfl

/-- Settles O44: of the cases of a step, only the forming of a tree sets TV and only reset and CLR clear it. -/
theorem treeValidOnlyByBuild : Obligations.TreeValidOnlyByBuild := by
  refine ⟨rfl, fun s t hstep => ?_, ?_⟩
  · rcases step_cases hstep with ⟨-, rfl⟩ | ⟨es, ⟨hin, rfl⟩ | ⟨hin, r, rfl⟩ | ⟨hin, hnone, herr, hf⟩ | ⟨u, heff, hrsp⟩⟩
    · exact ⟨by simp +contextual, by simp +contextual⟩
    · exact ⟨by simp, fun _ _ => ⟨es, .inl hin⟩⟩
    · exact ⟨by simp, fun _ _ => ⟨es, .inr hin⟩⟩
    · obtain ⟨k, u, n, r, hp, hq, rfl⟩ := hf
      exact ⟨fun _ _ => ⟨(passes_err hp).trans herr, hq, es, hin⟩, by simp⟩
    · have htv : t.tv = (s.withInput es).tv := (respondsFrom_tv hrsp).trans (effect_tv heff)
      exact ⟨by simp +contextual [htv], by simp +contextual [htv]⟩
  · rintro s i herr htv (⟨sym, freq, rfl⟩ | rfl | rfl | rfl) <;> exact queueCommand_of_tree _ herr htv

/-- Settles O54: children are allocated before their parent, so a walk of `p` bits has met a leaf. -/
theorem walksReachALeaf : Obligations.WalksReachALeaf := by
  intro s h p hp
  obtain ⟨n, hn⟩ := exists_nodeAt hp
  exact ⟨fun f l r hint => children_lt_parent h.store hint, fun bits => exists_leadsToLeaf_take h.store hn⟩

/-- Settles O55: the exact sums of the invariant add up level by level. -/
theorem frequencyIsConserved : Obligations.FrequencyIsConserved := by
  intro s h p n hn
  refine ⟨freq_eq_freqSum_leavesUnder h.store hn (Nat.lt_succ_self _), ?_⟩
  rintro f l r rfl
  exact h.store.exactSum p.toNat f l r hn

/-- Settles O9: reset, a reset event and CLR leave the same state elements. -/
theorem resetAndClrLeaveS0 : Obligations.ResetAndClrLeaveS0 := by
  refine ⟨isS0_of_clearBlock .reset none, fun s es hin => ?_, fun s => ⟨_, rfl, isS0_of_clearBlock s _⟩⟩
  refine ⟨resetBlock (s.withInput es), ?_, isS0_of_clearBlock _ none, rfl, rfl⟩
  rw [step, nextEvent, hin]

/-- Settles O51: the reset state is a cleared block. -/
theorem invariantAtReset : Obligations.InvariantAtReset := inv_clearBlock .reset

end Sys2Proof.Proofs
end

section
/-! SUPPORT. The statements that rest on spec/20_memory.md: what each command leaves unchanged (R54), and that a step runs the
command the next word decodes to (R57). -/

namespace Sys2Proof.Proofs

open Sys2Proof.Machine Sys2Proof.Safety Sys2Proof.Laws

/-! ### What the ways to answer leave unchanged -/

theorem gated_frame {s t : State} (h : Gated s t) : t = s.withRsp t.rsp := by
  obtain ⟨-, rfl⟩ := h
  rfl

theorem answered_frame {s t u : State} {d : Data} (h : Answered s t u d) : t = u.withRsp t.rsp := by
  obtain ⟨-, rfl⟩ := h
  rfl

theorem respondsFrom_frame {u t : State} (h : RespondsFrom u t) : t = (u.withErr t.err).withRsp t.rsp := by
  obtain ⟨r, rfl | ⟨e, -, rfl⟩⟩ := h <;> rfl

/-! ### SIZE, STAT and NODE (R106, R151, R152) -/

theorem execSize_frame {s t : State} (h : execSize s = .next t) : t = s.withRsp t.rsp := by
  rcases gated_next h with hg | ⟨hz, h⟩
  · exact gated_frame hg
  · exact answered_frame (answered_next hz h)

theorem execStat_frame {s t : State} (h : execStat s = .next t) : t = s.withRsp t.rsp := by
  obtain rfl := respondOk_eq_next_iff.mp h
  rfl

theorem execNode_frame {s t : State} {idx : NodeIdx} (h : execNode idx s = .next t) : t = s.withRsp t.rsp := by
  rcases execNode_eq_next h with hg | ⟨n, -, ha⟩ | ⟨-, ha⟩
  · exact gated_frame hg
  · exact answered_frame ha
  · exact answered_frame ha

/-! ### DBIT and DEND (R131, R133) -/

theorem execDend_respondsFrom {s t : State} (h : execDend s = .next t) : RespondsFrom s t := by
  rcases execDend_eq_next h with hg | ⟨-, -, hr⟩ | ⟨-, ha⟩
  · exact gated_respondsFrom hg
  · exact raised_respondsFrom (by decide) hr
  · exact answered_respondsFrom ha

/-- The one effect of DBIT is to move `CUR`, if only to where it was. -/
theorem execDbit_movesCur {s t : State} {v : StreamElem} (h : execDbit v s = .next t) :
    ∃ c, RespondsFrom (s.withCur c) t := by
  rcases execDbit_eq_next h with
    hg | ⟨-, hr⟩ | ⟨-, -, hr⟩ | ⟨-, b, -, ⟨sym, f, -, ha⟩ | ⟨f, l, r, n, -, -, ⟨sym, g, -, ha⟩ | ⟨g, l', r', -, ha⟩⟩⟩
  · exact ⟨s.cur, gated_respondsFrom hg⟩
  · exact ⟨s.cur, raised_respondsFrom (by decide) hr⟩
  · exact ⟨s.cur, raised_respondsFrom (by decide) hr⟩
  · exact ⟨s.cur, answered_respondsFrom ha⟩
  · exact ⟨s.root, answered_respondsFrom ha⟩
  · exact ⟨n.child b, answered_respondsFrom ha⟩

/-! ### XMIN (R105) -/

/-- The one effect of XMIN is to leave a subsequence of the queue, if only the whole of it. -/
theorem execXmin_shrinksQueue {s t : State} (h : execXmin s = .next t) :
    ∃ q, q.Sublist s.pq ∧ RespondsFrom (s.withPq q) t := by
  rcases execXmin_eq_next h with hg | ⟨-, hr⟩ | ⟨-, -, hr⟩ | ⟨-, x, hx, ha⟩
  · exact ⟨s.pq, List.Sublist.refl _, gated_respondsFrom hg⟩
  · exact ⟨s.pq, List.Sublist.refl _, raised_respondsFrom (by decide) hr⟩
  · exact ⟨s.pq, List.Sublist.refl _, raised_respondsFrom (by decide) hr⟩
  · exact ⟨x.rest, (extractMin_rest hx).1, answered_respondsFrom ha⟩

/-! ### BUILD (R108, R115) -/

/-- BUILD completes some passes, perhaps none, and then answers, unless it forms the tree. -/
theorem execBuild_passes_or_formsTree {s t : State} (h : execBuild s = .next t) :
    (∃ k u, Passes k s u ∧ RespondsFrom u t) ∨ FormsTree s t := by
  rcases execBuild_eq_next h with hg | ⟨-, hr⟩ | ⟨htv, hz, k, u, hp, ⟨-, ha⟩ | ⟨n, rec, hq, -, ha⟩ | ⟨e, -, he, hr⟩⟩
  · exact .inl ⟨0, s, .none s, gated_respondsFrom hg⟩
  · exact .inl ⟨0, s, .none s, raised_respondsFrom (by decide) hr⟩
  · exact .inl ⟨k, u, hp, answered_respondsFrom ha⟩
  · exact .inr ⟨htv, hz, k, u, n, _, hp, hq, ha.2⟩
  · exact .inl ⟨k, u, hp, raised_respondsFrom (mergeStep_failed_ne_unknownSymbol he) hr⟩

/-- Completed passes and an answer leave the input, ROOT, CUR and TV. -/
theorem registers_of_passes_respondsFrom {k : Nat} {s u t : State} (hp : Passes k s u) (h : RespondsFrom u t) :
    t.input = s.input ∧ t.root = s.root ∧ t.cur = s.cur ∧ t.tv = s.tv := by
  rw [respondsFrom_frame h, passes_others hp]
  exact ⟨rfl, rfl, rfl, rfl⟩

/-- The forming of a tree leaves the input and sets ROOT, CUR and TV together (R109). -/
theorem registers_of_formsTree {s t : State} (h : FormsTree s t) :
    t.input = s.input ∧ s.tv = false ∧ t.tv = true ∧ t.pq = [t.root] ∧ t.cur = t.root := by
  obtain ⟨htv, -, k, u, n, r, hp, hq, rfl⟩ := h
  have hinput : u.input = s.input := by rw [passes_others hp]
  exact ⟨hinput, htv, rfl, hq, rfl⟩

/-- A store that has only grown reads as before outside the indices it has grown by (R54). -/
theorem nodeAt_eq_of_prefix {ns ns' : NodeStore} {j : NodeIdx} (h : ns <+: ns')
    (hj : ¬ (ns.length ≤ j.toNat ∧ j.toNat < ns'.length)) : nodeAt ns' j = nodeAt ns j := by
  obtain ⟨new, rfl⟩ := h
  rcases Nat.lt_or_ge j.toNat ns.length with hlt | hge
  · exact List.getElem?_append_left hlt
  · have hout : (ns ++ new).length ≤ j.toNat := by omega
    rw [nodeAt, nodeAt, List.getElem?_eq_none hout, List.getElem?_eq_none hge]

/-! ### The front end (R78) -/

theorem frontEnd_of_decode_eq_ok {w : CmdWord} {i : Instr} (s : State) (h : decode w = .ok i) : frontEnd w s = exec i s := by
  rw [frontEnd, h]

/-! ### The obligations -/

/-- Settles O45: all three commands only answer, a faulted block with its code. -/
theorem readCommandsFrame : Obligations.ReadCommandsFrame := by
  intro s t i hi h
  have hframe : t = s.withRsp t.rsp := by
    rcases hi with rfl | rfl | ⟨idx, rfl⟩
    · exact execSize_frame h
    · exact execStat_frame h
    · exact execNode_frame h
  refine ⟨hframe, fun j => ?_⟩
  rw [hframe, withRsp_nodes]

/-- Settles O46: DBIT moves `CUR` and answers, DEND only answers. -/
theorem decoderCommandsFrame : Obligations.DecoderCommandsFrame := by
  constructor
  · intro s t v h
    obtain ⟨c, hrsp⟩ := execDbit_movesCur h
    refine ⟨?_, fun j => by rw [execDbit_nodes h]⟩
    rw [respondsFrom_frame hrsp]
    rfl
  · intro s t h
    exact ⟨respondsFrom_frame (execDend_respondsFrom h), fun j => by rw [execDend_nodes h]⟩

/-- Settles O47: XMIN leaves what its extraction leaves of the queue, and answers. -/
theorem xminFrame : Obligations.XminFrame := by
  intro s t h
  obtain ⟨q, hq, hrsp⟩ := execXmin_shrinksQueue h
  have hpq : t.pq = q := by
    rw [respondsFrom_frame hrsp]
    rfl
  refine ⟨?_, hpq ▸ hq, fun j => by rw [execXmin_nodes h]⟩
  rw [hpq]
  exact respondsFrom_frame hrsp

/-- Settles O49: BUILD completes passes, which only add to the store, and then answers or forms the tree. -/
theorem buildFrame : Obligations.BuildFrame := by
  intro s t h
  have hstore : s.nodes <+: t.nodes := execBuild_nodes_prefix h
  obtain ⟨hinput, hregs⟩ : t.input = s.input ∧ ((t.root = s.root ∧ t.cur = s.cur ∧ t.tv = s.tv) ∨
      (s.tv = false ∧ t.tv = true ∧ t.pq = [t.root] ∧ t.cur = t.root)) := by
    rcases execBuild_passes_or_formsTree h with ⟨k, u, hp, hrsp⟩ | htree
    · exact (registers_of_passes_respondsFrom hp hrsp).imp_right .inl
    · exact (registers_of_formsTree htree).imp_right .inr
  exact ⟨hinput, hregs, hstore.length_le, fun j hj => nodeAt_eq_of_prefix hstore hj⟩

/-- Settles O6: the step takes the word, and the front end runs what it decodes to. -/
theorem stepRunsTheDecodedCommand : Obligations.StepRunsTheDecodedCommand := by
  intro s w es i hin hdec _
  calc step s = frontEnd w (s.withInput es) := step_of_cmd hin
    _ = exec i (s.withInput es) := frontEnd_of_decode_eq_ok _ hdec

end Sys2Proof.Proofs
end

section
/-! SUPPORT. The statements that rest on spec/30_encoding.md: decoder and encoder invert each other (R70 to R76), the legal words
counted (R75), the order of the front end (R78) and the response word (R77). -/

namespace Sys2Proof.Proofs

open Sys2Proof.Machine Sys2Proof.Safety Sys2Proof.Laws

/-! ### The fields of a word of format C (R71, R72) -/

section
variable {op : BitVec 4} {a : BitVec 12} {f : BitVec 32}

theorem opField_formatC : opField (formatC op a f) = op := by
  rw [opField, formatC, BitVec.append_assoc, BitVec.cast_eq]
  exact BitVec.extractLsb'_append_eq_left

theorem freqField_formatC : freqField (formatC op a f) = f := BitVec.extractLsb'_append_eq_right

/-- A field at or above bit 32 and below bit 44 is a field of `a`. -/
theorem extractLsb'_formatC {start len : Nat} (hstart : 32 ≤ start) (hend : start + len ≤ 44) :
    (formatC op a f).extractLsb' start len = a.extractLsb' (start - 32) len := by
  rw [formatC, BitVec.extractLsb'_append_eq_of_le hstart, BitVec.extractLsb'_append_eq_of_add_le (by omega)]

theorem bits43To40_formatC {x : BitVec 4} {y : BitVec 8} : (formatC op (x ++ y) f).extractLsb' 40 4 = x :=
  (extractLsb'_formatC (by decide) (by decide)).trans BitVec.extractLsb'_append_eq_left

theorem bits39To32_formatC {x : BitVec 4} {y : BitVec 8} : (formatC op (x ++ y) f).extractLsb' 32 8 = y :=
  (extractLsb'_formatC (by decide) (by decide)).trans BitVec.extractLsb'_append_eq_right

theorem bits43To41_formatC {x : BitVec 3} {y : BitVec 9} : (formatC op (x ++ y) f).extractLsb' 41 3 = x :=
  (extractLsb'_formatC (by decide) (by decide)).trans BitVec.extractLsb'_append_eq_left

theorem bits40To32_formatC {x : BitVec 3} {y : BitVec 9} : (formatC op (x ++ y) f).extractLsb' 32 9 = y :=
  (extractLsb'_formatC (by decide) (by decide)).trans BitVec.extractLsb'_append_eq_right

end

/-- A word is its three fields. -/
theorem formatC_fields (w : CmdWord) : formatC (opField w) (w.extractLsb' 32 12) (freqField w) = w := by
  rw [formatC, opField, freqField, BitVec.extractLsb'_append_extractLsb'_eq_extractLsb' (rfl : 44 = 32 + 12),
    BitVec.extractLsb'_append_extractLsb'_eq_extractLsb' (rfl : 32 = 0 + 32)]
  exact BitVec.extractLsb'_eq_self

/-! ### The decoder reads the word of a command (R73, R74) -/

/-- Reserved bits in two places are 0 together exactly when each of them is. -/
theorem append_eq_zero_iff {m n : Nat} (x : BitVec m) (y : BitVec n) : x ++ y = 0#(m + n) ↔ x = 0#m ∧ y = 0#n := by
  constructor
  · intro h
    constructor
    · rw [← BitVec.extractLsb'_append_eq_left (a := x) (b := y), h, BitVec.extractLsb'_zero]
    · rw [← BitVec.extractLsb'_append_eq_right (a := x) (b := y), h, BitVec.extractLsb'_zero]
  · rintro ⟨rfl, rfl⟩
    exact BitVec.zero_append_zero

theorem ifReservedZero_of_eq_zero {n : Nat} {m : String} {r : BitVec n} (i : Instr) (hr : r = 0#n) :
    ifReservedZero m r i = .ok i := if_pos hr

theorem decode_encode_leaf (sym : Symbol) (freq : Freq) : decode (encode (.leaf sym freq)) = .ok (.leaf sym freq) := by
  have hop : opField (encode (.leaf sym freq)) = 0x2#4 := opField_formatC
  have hsym : symField (encode (.leaf sym freq)) = sym := bits39To32_formatC
  have hfreq : freqField (encode (.leaf sym freq)) = freq := freqField_formatC
  rw [decode, hop, hsym, hfreq]
  exact ifReservedZero_of_eq_zero _ bits43To40_formatC

theorem decode_encode_dbit (v : StreamElem) : decode (encode (.dbit v)) = .ok (.dbit v) := by
  have hop : opField (encode (.dbit v)) = 0x7#4 := opField_formatC
  have hv : streamField (encode (.dbit v)) = v := bits39To32_formatC
  rw [decode, hop, hv]
  exact ifReservedZero_of_eq_zero _ ((append_eq_zero_iff _ _).mpr ⟨bits43To40_formatC, freqField_formatC⟩)

theorem decode_encode_node (idx : NodeIdx) : decode (encode (.node idx)) = .ok (.node idx) := by
  have hop : opField (encode (.node idx)) = 0xA#4 := opField_formatC
  have hidx : idxField (encode (.node idx)) = idx := bits40To32_formatC
  rw [decode, hop, hidx]
  exact ifReservedZero_of_eq_zero _ ((append_eq_zero_iff _ _).mpr ⟨bits43To41_formatC, freqField_formatC⟩)

/-- The seven words without operands are read bit for bit; the others field by field. -/
theorem decode_encode (i : Instr) : decode (encode i) = .ok i := by
  cases i with
  | leaf sym freq => exact decode_encode_leaf sym freq
  | dbit v => exact decode_encode_dbit v
  | node idx => exact decode_encode_node idx
  | clr | xmin | size | merge | build | dend | stat => rfl

/-! ### A command has one word (R74, R76) -/

theorem formatC_of_rest_zero {w : CmdWord} {op : BitVec 4} (hop : opField w = op) (hrest : w.extractLsb' 0 44 = 0#44) :
    formatC op 0#12 0#32 = w := by
  rw [← opField_append_rest w, hop, hrest, formatC, BitVec.append_assoc]
  rfl

theorem encode_leaf_of_fields {w : CmdWord} (hop : opField w = 0x2#4) (hhigh : w.extractLsb' 40 4 = 0#4) :
    encode (.leaf (symField w) (freqField w)) = w := by
  rw [encode, ← hop, ← hhigh, symField, BitVec.extractLsb'_append_extractLsb'_eq_extractLsb' (rfl : 40 = 32 + 8)]
  exact formatC_fields w

theorem encode_dbit_of_fields {w : CmdWord} (hop : opField w = 0x7#4) (hhigh : w.extractLsb' 40 4 = 0#4)
    (hlow : w.extractLsb' 0 32 = 0#32) : encode (.dbit (streamField w)) = w := by
  rw [encode, ← hop, ← hhigh, ← hlow, streamField,
    BitVec.extractLsb'_append_extractLsb'_eq_extractLsb' (rfl : 40 = 32 + 8)]
  exact formatC_fields w

theorem encode_node_of_fields {w : CmdWord} (hop : opField w = 0xA#4) (hhigh : w.extractLsb' 41 3 = 0#3)
    (hlow : w.extractLsb' 0 32 = 0#32) : encode (.node (idxField w)) = w := by
  rw [encode, ← hop, ← hhigh, ← hlow, idxField,
    BitVec.extractLsb'_append_extractLsb'_eq_extractLsb' (rfl : 41 = 32 + 9)]
  exact formatC_fields w

/-- What a row of the decoder reads has the word it was read from, if the row's reserved bits and opcode fix that word. -/
theorem encode_eq_of_ifReservedZero {n : Nat} {m : String} {r : BitVec n} {i j : Instr} {w : CmdWord}
    (hrow : r = 0#n → encode i = w) (h : ifReservedZero m r i = .ok j) : encode j = w := by
  obtain ⟨hr, rfl⟩ := ifReservedZero_eq_ok_iff.mp h
  exact hrow hr

theorem encode_of_decode {w : CmdWord} {i : Instr} (h : decode w = .ok i) : encode i = w := by
  unfold decode at h
  split at h
  · next hop => exact encode_eq_of_ifReservedZero (formatC_of_rest_zero hop) h
  · next hop => exact encode_eq_of_ifReservedZero (encode_leaf_of_fields hop) h
  · next hop => exact encode_eq_of_ifReservedZero (formatC_of_rest_zero hop) h
  · next hop => exact encode_eq_of_ifReservedZero (formatC_of_rest_zero hop) h
  · next hop => exact encode_eq_of_ifReservedZero (formatC_of_rest_zero hop) h
  · next hop => exact encode_eq_of_ifReservedZero (formatC_of_rest_zero hop) h
  · next hop =>
    refine encode_eq_of_ifReservedZero (fun hr => ?_) h
    obtain ⟨hhigh, hlow⟩ := (append_eq_zero_iff _ _).mp hr
    exact encode_dbit_of_fields hop hhigh hlow
  · next hop => exact encode_eq_of_ifReservedZero (formatC_of_rest_zero hop) h
  · next hop => exact encode_eq_of_ifReservedZero (formatC_of_rest_zero hop) h
  · next hop =>
    refine encode_eq_of_ifReservedZero (fun hr => ?_) h
    obtain ⟨hhigh, hlow⟩ := (append_eq_zero_iff _ _).mp hr
    exact encode_node_of_fields hop hhigh hlow
  · cases h

theorem decode_eq_ok_iff {w : CmdWord} {i : Instr} : decode w = .ok i ↔ encode i = w :=
  ⟨encode_of_decode, fun h => h ▸ decode_encode i⟩

theorem encode_injective : Function.Injective encode := fun _ j h =>
  Except.ok.inj ((decode_eq_ok_iff.mpr h).symm.trans (decode_encode j))

/-! ### The match and mask table (R76) -/

/-- The word of a command is selected by a row with its mnemonic. -/
theorem encodingRow_statement (i : Instr) : EncodingRow.Statement i := by
  cases i with
  | clr => exact EncodingRow.clr
  | leaf sym freq => exact EncodingRow.leaf sym freq
  | xmin => exact EncodingRow.xmin
  | size => exact EncodingRow.size
  | merge => exact EncodingRow.merge
  | build => exact EncodingRow.build
  | dbit v => exact EncodingRow.dbit v
  | dend => exact EncodingRow.dend
  | stat => exact EncodingRow.stat
  | node idx => exact EncodingRow.node idx

theorem masked_of_selects {r : OpcodeRow} {w : CmdWord} (h : r.selects w = true) : w &&& r.maskBits = r.matchBits :=
  eq_of_beq h

/-- A field that the mask of the row covers holds what the row's match has there. -/
theorem field_of_selects {r : OpcodeRow} {w : CmdWord} (h : r.selects w = true) {start len : Nat}
    (hmask : r.maskBits.extractLsb' start len = BitVec.allOnes len) :
    w.extractLsb' start len = r.matchBits.extractLsb' start len := by
  rw [← masked_of_selects h, BitVec.extractLsb'_and, hmask, BitVec.and_allOnes]

/-- A row whose mask covers the whole word selects its match only. -/
theorem match_of_selects {r : OpcodeRow} {w : CmdWord} (h : r.selects w = true) (hmask : r.maskBits = BitVec.allOnes 48) :
    r.matchBits = w := by
  rw [← masked_of_selects h, hmask, BitVec.and_allOnes]

theorem exists_encode_of_selects {r : OpcodeRow} {w : CmdWord} (hr : r ∈ opcodeRows) (h : r.selects w = true) :
    ∃ i, mnemonicOf i = r.mnemonic ∧ encode i = w := by
  simp only [opcodeRows, List.mem_cons, List.not_mem_nil, or_false] at hr
  rcases hr with rfl | rfl | rfl | rfl | rfl | rfl | rfl | rfl | rfl | rfl
  · exact ⟨.clr, rfl, match_of_selects h rfl⟩
  · exact ⟨_, rfl, encode_leaf_of_fields (field_of_selects h rfl) (field_of_selects h rfl)⟩
  · exact ⟨.xmin, rfl, match_of_selects h rfl⟩
  · exact ⟨.size, rfl, match_of_selects h rfl⟩
  · exact ⟨.merge, rfl, match_of_selects h rfl⟩
  · exact ⟨.build, rfl, match_of_selects h rfl⟩
  · exact ⟨_, rfl, encode_dbit_of_fields (field_of_selects h rfl) (field_of_selects h rfl) (field_of_selects h rfl)⟩
  · exact ⟨.dend, rfl, match_of_selects h rfl⟩
  · exact ⟨.stat, rfl, match_of_selects h rfl⟩
  · exact ⟨_, rfl, encode_node_of_fields (field_of_selects h rfl) (field_of_selects h rfl) (field_of_selects h rfl)⟩

/-- No two rows have one mnemonic, and no two have one `op`. -/
theorem opcodeRows_pairwise : opcodeRows.Pairwise fun r r' =>
    r.mnemonic ≠ r'.mnemonic ∧ opField r.matchBits ≠ opField r'.matchBits := by decide

theorem opcodeRow_eq_of_mnemonic {r r' : OpcodeRow} (hr : r ∈ opcodeRows) (hr' : r' ∈ opcodeRows)
    (h : r.mnemonic = r'.mnemonic) : r = r' :=
  List.inj_on_of_nodup_map (f := OpcodeRow.mnemonic) (by decide) hr hr' h

/-- A row selects the words of the commands of its mnemonic. -/
theorem selects_iff {w : CmdWord} {r : OpcodeRow} (hr : r ∈ opcodeRows) :
    r.selects w = true ↔ ∃ i, mnemonicOf i = r.mnemonic ∧ encode i = w := by
  refine ⟨exists_encode_of_selects hr, ?_⟩
  rintro ⟨i, hm, rfl⟩
  obtain ⟨r', hr', hm', hsel⟩ := encodingRow_statement i
  rwa [opcodeRow_eq_of_mnemonic hr hr' (hm.symm.trans hm'.symm)]

theorem no_row_selects_iff {w : CmdWord} : (∀ r ∈ opcodeRows, r.selects w = false) ↔ ∃ e, decode w = .error e := by
  constructor
  · intro h
    cases hdec : decode w with
    | error e => exact ⟨e, rfl⟩
    | ok i =>
      obtain ⟨r, hr, -, hsel⟩ := encodingRow_statement i
      rw [encode_of_decode hdec, h r hr] at hsel
      cases hsel
  · rintro ⟨e, he⟩ r hr
    refine Bool.eq_false_iff.mpr fun hsel => ?_
    obtain ⟨i, -, rfl⟩ := exists_encode_of_selects hr hsel
    rw [decode_encode] at he
    cases he

/-! ### The legal words by their bits, and their number (R74, R75) -/

theorem opBits_eq_opField (w : CmdWord) : CmdWord.opBits w = (opField w).toNat := by
  have := w.isLt
  rw [CmdWord.opBits, opField, BitVec.extractLsb'_toNat, Nat.shiftRight_eq_div_pow]
  omega

theorem bits_eq_zero_iff (w : CmdWord) (hi lo : Nat) :
    CmdWord.bits w hi lo = 0 ↔ w.extractLsb' lo (hi + 1 - lo) = 0#(hi + 1 - lo) := by
  rw [← BitVec.toNat_inj, BitVec.extractLsb'_toNat, Nat.shiftRight_eq_div_pow, BitVec.toNat_ofNat, Nat.zero_mod]
  rfl

theorem exists_ifReservedZero_eq_ok_iff {n : Nat} {m : String} {r : BitVec n} {i : Instr} :
    (∃ j, ifReservedZero m r i = .ok j) ↔ r = 0#n := by
  simp [ifReservedZero_eq_ok_iff]

/-- The opcodes of R73 are those the decoder has a row for. -/
theorem opcodeAssigned_iff (w : CmdWord) : CmdWord.opcodeAssigned w = true ↔
    opField w ∈ [0x1#4, 0x2#4, 0x3#4, 0x4#4, 0x5#4, 0x6#4, 0x7#4, 0x8#4, 0x9#4, 0xA#4] := by
  rw [CmdWord.opcodeAssigned, opBits_eq_opField]
  generalize opField w = op
  revert op
  decide

/-- Under each opcode the bits R74 reserves are those the decoder tests. DBIT (row 7) and NODE (row 10) reserve bits in two
places; the last case is an opcode without a command. -/
theorem wellFormed_iff_exists_decode (w : CmdWord) : CmdWord.wellFormed w = true ↔ ∃ i, decode w = .ok i := by
  rw [CmdWord.wellFormed, Bool.and_eq_true, opcodeAssigned_iff]
  unfold decode
  split
  case h_7 hop | h_10 hop =>
    simpa [CmdWord.reservedZero, opBits_eq_opField, hop, exists_ifReservedZero_eq_ok_iff, bits_eq_zero_iff] using
      (append_eq_zero_iff _ _).symm
  case h_11 => simp_all
  all_goals next hop =>
    simp [CmdWord.reservedZero, opBits_eq_opField, hop, exists_ifReservedZero_eq_ok_iff, bits_eq_zero_iff]

/-- The operands of a command: which of the seven that have none, or those of LEAF, DBIT or NODE. -/
abbrev Operands := Fin 7 ⊕ (Symbol × Freq) ⊕ StreamElem ⊕ NodeIdx

/-- A command is its choice of operands, every one of them at every value (R75). -/
def operandsEquiv : Instr ≃ Operands where
  toFun
    | .clr => .inl 0
    | .xmin => .inl 1
    | .size => .inl 2
    | .merge => .inl 3
    | .build => .inl 4
    | .dend => .inl 5
    | .stat => .inl 6
    | .leaf sym freq => .inr (.inl (sym, freq))
    | .dbit v => .inr (.inr (.inl v))
    | .node idx => .inr (.inr (.inr idx))
  invFun
    | .inl 0 => .clr
    | .inl 1 => .xmin
    | .inl 2 => .size
    | .inl 3 => .merge
    | .inl 4 => .build
    | .inl 5 => .dend
    | .inl 6 => .stat
    | .inr (.inl (sym, freq)) => .leaf sym freq
    | .inr (.inr (.inl v)) => .dbit v
    | .inr (.inr (.inr idx)) => .node idx
  left_inv i := by cases i <;> rfl
  right_inv
    | .inl k => by fin_cases k <;> rfl
    | .inr (.inl _) | .inr (.inr (.inl _)) | .inr (.inr (.inr _)) => rfl

theorem natCard_bitVec (n : Nat) : Nat.card (BitVec n) = 2 ^ n :=
  (Nat.card_congr BitVec.equivFin.toEquiv).trans (Nat.card_fin _)

theorem natCard_instr : Nat.card Instr = 7 + 2 ^ 40 + 2 ^ 8 + 2 ^ 9 := by
  rw [Nat.card_congr operandsEquiv, Nat.card_sum, Nat.card_sum, Nat.card_sum, Nat.card_prod,
    Nat.card_fin, natCard_bitVec, natCard_bitVec, natCard_bitVec]
  norm_num

theorem legalWords_eq_range : { w : CmdWord | ∃ i, decode w = .ok i } = Set.range encode :=
  Set.ext fun _ => exists_congr fun _ => decode_eq_ok_iff

/-! ### The front end (R78) -/

theorem frontEnd_of_decode_eq_error {w : CmdWord} {e : IllegalWord} (s : State) (h : decode w = .error e) :
    frontEnd w s = illegalWord s := by
  rw [frontEnd, h]

/-- A word no row selects, on a block that is not faulted (R78 step 3). -/
theorem frontEnd_of_illegal {s : State} {w : CmdWord} {e : IllegalWord} (herr : s.err = 0#4) (h : decode w = .error e) :
    frontEnd w s = .next (raised s 8#4) := by
  rw [frontEnd_of_decode_eq_error s h, illegalWord, faultGate_of_err_zero _ herr]
  exact raiseError_eq_raised .illegalCommand herr

/-- Each command but CLR and STAT begins with the fault gate (R78 step 2, R192). -/
theorem exec_of_faulted {s : State} {i : Instr} (herr : s.err ≠ 0#4) (hclr : i ≠ .clr) (hstat : i ≠ .stat) :
    exec i s = .next (s.withRsp (errRsp s.err)) := by
  rw [← rspWord_zero_eq_errRsp]
  cases i with
  | clr => exact absurd rfl hclr
  | stat => exact absurd rfl hstat
  | leaf | xmin | size | merge | build | dbit | dend | node => exact faultGate_of_faulted _ herr

/-- A faulted block answers every word but CLR and STAT with its code, legal or not. -/
theorem frontEnd_of_faulted {s : State} {w : CmdWord} (herr : s.err ≠ 0#4) (hclr : w ≠ 0x100000000000#48)
    (hstat : w ≠ 0x900000000000#48) : frontEnd w s = .next (s.withRsp (errRsp s.err)) := by
  cases hdec : decode w with
  | error e =>
    rw [frontEnd_of_decode_eq_error s hdec, ← rspWord_zero_eq_errRsp]
    exact faultGate_of_faulted _ herr
  | ok i =>
    obtain rfl := encode_of_decode hdec
    rw [frontEnd_of_decode_eq_ok s hdec]
    exact exec_of_faulted herr (fun hi => hclr (hi ▸ rfl)) (fun hi => hstat (hi ▸ rfl))

/-! ### The code of a response (R77) -/

/-- The response of `t` is OK, or it carries the code ERR holds in `t`, with data 0. -/
def TellsErr (t : State) : Prop :=
  ∃ c d, t.rsp = some (rspWord c d) ∧ (c ≠ 0#4 → c = t.err ∧ d = 0#64)

theorem gated_tellsErr {s t : State} (h : Gated s t) : TellsErr t := by
  obtain ⟨-, rfl⟩ := h
  exact ⟨s.err, 0#64, rfl, fun _ => ⟨rfl, rfl⟩⟩

theorem raised_tellsErr {s t : State} {e : ErrKind} (h : Raised s t e) : TellsErr t := by
  obtain ⟨-, rfl⟩ := h
  exact ⟨e.code, 0#64, rfl, fun _ => ⟨rfl, rfl⟩⟩

theorem respondOk_tellsErr {s t : State} {d : Data} (h : respondOk s d = .next t) : TellsErr t := by
  obtain rfl := respondOk_eq_next_iff.mp h
  exact ⟨0#4, d, rfl, fun h0 => absurd rfl h0⟩

theorem answered_tellsErr {s t u : State} {d : Data} (h : Answered s t u d) : TellsErr t :=
  respondOk_tellsErr (respondOk_eq_next_iff.mpr h.2)

theorem execLeaf_tellsErr {s t : State} {sym : Symbol} {freq : Freq} (h : execLeaf sym freq s = .next t) :
    TellsErr t := by
  rcases execLeaf_eq_next h with hg | ⟨-, hr⟩ | ⟨-, -, hr⟩ | ⟨-, -, -, ha⟩
  · exact gated_tellsErr hg
  · exact raised_tellsErr hr
  · exact raised_tellsErr hr
  · exact answered_tellsErr ha

theorem execXmin_tellsErr {s t : State} (h : execXmin s = .next t) : TellsErr t := by
  rcases execXmin_eq_next h with hg | ⟨-, hr⟩ | ⟨-, -, hr⟩ | ⟨-, x, -, ha⟩
  · exact gated_tellsErr hg
  · exact raised_tellsErr hr
  · exact raised_tellsErr hr
  · exact answered_tellsErr ha

theorem execSize_tellsErr {s t : State} (h : execSize s = .next t) : TellsErr t := by
  rcases gated_next h with hg | ⟨-, h⟩
  · exact gated_tellsErr hg
  · exact respondOk_tellsErr h

theorem execMerge_tellsErr {s t : State} (h : execMerge s = .next t) : TellsErr t := by
  rcases execMerge_eq_next h with hg | ⟨-, hr⟩ | ⟨-, e, -, hr⟩ | ⟨-, n, f, u, -, ha⟩
  · exact gated_tellsErr hg
  · exact raised_tellsErr hr
  · exact raised_tellsErr hr
  · exact answered_tellsErr ha

theorem execBuild_tellsErr {s t : State} (h : execBuild s = .next t) : TellsErr t := by
  rcases execBuild_eq_next h with hg | ⟨-, hr⟩ | ⟨-, -, k, u, -, ⟨-, ha⟩ | ⟨n, rec, -, -, ha⟩ | ⟨e, -, -, hr⟩⟩
  · exact gated_tellsErr hg
  · exact raised_tellsErr hr
  · exact answered_tellsErr ha
  · exact answered_tellsErr ha
  · exact raised_tellsErr hr

theorem execDbit_tellsErr {s t : State} {v : StreamElem} (h : execDbit v s = .next t) : TellsErr t := by
  rcases execDbit_eq_next h with
    hg | ⟨-, hr⟩ | ⟨-, -, hr⟩ | ⟨-, b, -, ⟨sym, f, -, ha⟩ | ⟨f, l, r, n, -, -, ⟨sym, g, -, ha⟩ | ⟨g, l', r', -, ha⟩⟩⟩
  · exact gated_tellsErr hg
  · exact raised_tellsErr hr
  · exact raised_tellsErr hr
  · exact answered_tellsErr ha
  · exact answered_tellsErr ha
  · exact answered_tellsErr ha

theorem execDend_tellsErr {s t : State} (h : execDend s = .next t) : TellsErr t := by
  rcases execDend_eq_next h with hg | ⟨-, -, hr⟩ | ⟨-, ha⟩
  · exact gated_tellsErr hg
  · exact raised_tellsErr hr
  · exact answered_tellsErr ha

theorem execNode_tellsErr {s t : State} {idx : NodeIdx} (h : execNode idx s = .next t) : TellsErr t := by
  rcases execNode_eq_next h with hg | ⟨n, -, ha⟩ | ⟨-, ha⟩
  · exact gated_tellsErr hg
  · exact answered_tellsErr ha
  · exact answered_tellsErr ha

theorem illegalWord_tellsErr {s t : State} (h : illegalWord s = .next t) : TellsErr t := by
  rcases gated_next h with hg | ⟨hz, h⟩
  · exact gated_tellsErr hg
  · exact raised_tellsErr (raised_next hz h)

theorem exec_tellsErr {s t : State} {i : Instr} (h : exec i s = .next t) : TellsErr t := by
  cases i with
  | clr => exact respondOk_tellsErr h
  | leaf sym freq => exact execLeaf_tellsErr h
  | xmin => exact execXmin_tellsErr h
  | size => exact execSize_tellsErr h
  | merge => exact execMerge_tellsErr h
  | build => exact execBuild_tellsErr h
  | dbit v => exact execDbit_tellsErr h
  | dend => exact execDend_tellsErr h
  | stat => exact respondOk_tellsErr h
  | node idx => exact execNode_tellsErr h

theorem frontEnd_tellsErr {s t : State} {w : CmdWord} (h : frontEnd w s = .next t) : TellsErr t := by
  cases hdec : decode w with
  | ok i =>
    rw [frontEnd_of_decode_eq_ok s hdec] at h
    exact exec_tellsErr h
  | error e =>
    rw [frontEnd_of_decode_eq_error s hdec] at h
    exact illegalWord_tellsErr h

/-! ### Every word is answered in a state that meets the invariant (R33, R36, R77) -/

/-- The block answers: it goes on to a next state. -/
def Answers (r : Result) : Prop := ∃ t, r = .next t

theorem answers_respond (s : State) (c : Code) (d : Data) : Answers (respond s c d) := ⟨_, rfl⟩

theorem answers_raiseError (s : State) (e : ErrKind) : Answers (raiseError s e) := ⟨_, rfl⟩

theorem answers_faultGate {s : State} {r : Result} (h : Answers r) : Answers (faultGate s r) := by
  unfold faultGate
  split
  · exact h
  · exact answers_respond _ _ _

theorem execLeaf_answers (sym : Symbol) (freq : Freq) (s : State) : Answers (execLeaf sym freq s) := by
  refine answers_faultGate ?_
  split
  · exact answers_raiseError _ _
  split
  · exact answers_raiseError _ _
  · exact answers_respond _ _ _

theorem execXmin_answers {s : State} (h : QueueAllocated s) : Answers (execXmin s) := by
  refine answers_faultGate ?_
  split
  · exact answers_raiseError _ _
  split
  · exact answers_raiseError _ _
  next hne =>
  obtain ⟨x, hx⟩ := Option.isSome_iff_exists.mp
    ((extractMin_isSome_iff s.nodes s.pq).mpr ⟨by simpa using hne, h⟩)
  rw [hx]
  exact answers_respond _ _ _

theorem execMerge_answers {s : State} (h : QueueAllocated s) : Answers (execMerge s) := by
  refine answers_faultGate ?_
  split
  · exact answers_raiseError _ _
  split
  · exact answers_respond _ _ _
  · exact answers_raiseError _ _
  · next hstuck => exact absurd hstuck (mergeStep_ne_stuck h)

theorem finishBuild_answers {s : State} (h : QueueAllocated s) : Answers (finishBuild s) := by
  unfold finishBuild
  split
  · exact answers_respond _ _ _
  next n q hq =>
  obtain ⟨rec, hrec⟩ : ∃ rec, s.nodeRead n = some rec := exists_nodeAt (h n (by simp [hq]))
  rw [hrec]
  exact answers_respond _ _ _

/-- Completed passes keep the invariant, so that no pass is stuck and the last entry is allocated. -/
theorem execBuild_answers {s : State} (h : Inv s) : Answers (execBuild s) := by
  refine answers_faultGate ?_
  split
  · exact answers_raiseError _ _
  next htv =>
  have hinv : ∀ {k : Nat} {u : State}, Passes k s u → Inv u := passes_keep_inv h (by simpa using htv)
  rcases buildLoop_cases (le_refl s.pq.length) with ⟨k, u, hb, hp, -⟩ | ⟨k, e, u, hb, -⟩ | ⟨k, u, -, hp, -, hstuck⟩
  · rw [hb]
    exact finishBuild_answers (hinv hp).queueAllocated
  · rw [hb]
    exact answers_raiseError _ _
  · exact absurd hstuck (mergeStep_ne_stuck (hinv hp).queueAllocated)

theorem arriveAt_answers {s : State} {c : NodeIdx} (h : c.toNat < s.nodes.length) : Answers (arriveAt s c) := by
  obtain ⟨n, hn⟩ : ∃ n, s.nodeRead c = some n := exists_nodeAt h
  rw [arriveAt, hn]
  cases n <;> exact answers_respond _ _ _

/-- With a tree, the root is the one entry queued, and both children of the node the decoder stands at are allocated. -/
theorem walkBit_answers {s : State} {root : Node} (h : Inv s) (htv : s.tv = true) (hroot : s.nodeRead s.root = some root)
    (b : Bool) : Answers (walkBit s root b) := by
  cases root with
  | leaf sym f => exact answers_respond _ _ _
  | internal f l r =>
    obtain ⟨-, g, l', r', -, hcur⟩ := inv_cur_internal h htv hroot
    obtain ⟨hl, hr⟩ := children_lt_parent h.store hcur
    have hlt : s.cur.toNat < s.nodes.length := nodeAt_eq_some_lt hcur
    have hread : s.nodeRead s.cur = some (.internal g l' r') := hcur
    rw [walkBit, hread]
    refine arriveAt_answers ?_
    cases b
    · exact hl.trans hlt
    · exact hr.trans hlt

theorem execDbit_answers {s : State} (h : Inv s) (v : StreamElem) : Answers (execDbit v s) := by
  refine answers_faultGate ?_
  split
  · exact answers_raiseError _ _
  next htv =>
  have htv : s.tv = true := by simpa using htv
  split
  · exact answers_raiseError _ _
  next b _ =>
  have hroot : s.root ∈ s.pq := by simp [(h.frozen htv).1]
  obtain ⟨root, hread⟩ : ∃ root, s.nodeRead s.root = some root := exists_nodeAt (h.queueAllocated _ hroot)
  rw [hread]
  exact walkBit_answers h htv hread b

theorem execDend_answers (s : State) : Answers (execDend s) := by
  refine answers_faultGate ?_
  split
  · exact answers_raiseError _ _
  · exact answers_respond _ _ _

theorem execNode_answers (idx : NodeIdx) (s : State) : Answers (execNode idx s) := by
  refine answers_faultGate ?_
  split <;> exact answers_respond _ _ _

theorem exec_answers {s : State} (h : Inv s) (i : Instr) : Answers (exec i s) := by
  cases i with
  | clr => exact answers_respond _ _ _
  | leaf sym freq => exact execLeaf_answers sym freq s
  | xmin => exact execXmin_answers h.queueAllocated
  | size => exact answers_faultGate (answers_respond _ _ _)
  | merge => exact execMerge_answers h.queueAllocated
  | build => exact execBuild_answers h
  | dbit v => exact execDbit_answers h v
  | dend => exact execDend_answers s
  | stat => exact answers_respond _ _ _
  | node idx => exact execNode_answers idx s

theorem frontEnd_answers {s : State} (h : Inv s) (w : CmdWord) : Answers (frontEnd w s) := by
  cases hdec : decode w with
  | ok i =>
    rw [frontEnd_of_decode_eq_ok s hdec]
    exact exec_answers h i
  | error e =>
    rw [frontEnd_of_decode_eq_error s hdec]
    exact answers_faultGate (answers_raiseError _ _)

/-! ### An element that is no bit (R82) -/

theorem execDbit_of_no_tree {s : State} (v : StreamElem) (herr : s.err = 0#4) (htv : s.tv = false) :
    execDbit v s = .next (raised s 5#4) := by
  rw [execDbit, faultGate_of_err_zero _ herr, htv]
  exact raiseError_eq_raised .nullTree herr

theorem execDbit_of_invalid {s : State} {v : StreamElem} (herr : s.err = 0#4) (htv : s.tv = true)
    (hv : streamBit v = none) : execDbit v s = .next (raised s 4#4) := by
  rw [execDbit, faultGate_of_err_zero _ herr, htv, hv]
  exact raiseError_eq_raised .invalidBit herr

/-! ### The obligations -/

/-- Settles O1: each operand is read back from the field it was written to. -/
theorem decodeInvertsEncode : Obligations.DecodeInvertsEncode := fun i _ => decode_encode i

/-- Settles O2: opcode, zero reserved bits and operands are all the bits of a word. -/
theorem encodeInvertsDecode : Obligations.EncodeInvertsDecode := fun _ _ => encode_of_decode

/-- Settles O3: a row selects the words of its mnemonic's commands, and a word has one command at most. -/
theorem decodeAgreesWithMatchAndMask : Obligations.DecodeAgreesWithMatchAndMask := by
  refine ⟨fun w r hr => ?_, ?_, fun w => no_row_selects_iff⟩
  · rw [selects_iff hr]
    exact exists_congr fun i => by rw [decode_eq_ok_iff, and_comm]
  · refine opcodeRows_pairwise.imp_of_mem fun hr hr' ⟨hm, hop⟩ => ⟨hm, hop, fun w ⟨hsel, hsel'⟩ => ?_⟩
    obtain ⟨i, hi, hw⟩ := (selects_iff hr).mp hsel
    obtain ⟨j, hj, hw'⟩ := (selects_iff hr').mp hsel'
    exact hm (by rw [← hi, ← hj, encode_injective (hw.trans hw'.symm)])

/-- Settles O4: `encode` counts the legal words by the commands, and these by their operands. -/
theorem legalWordsAreThoseOfR75 : Obligations.LegalWordsAreThoseOfR75 := by
  refine ⟨wellFormed_iff_exists_decode, ?_⟩
  rw [legalWords_eq_range, Set.ncard_range_of_injective encode_injective, natCard_instr]

/-- Settles O7: CLR and STAT alone pass the fault gate; the rest goes by what the decoder and the table agree on. -/
theorem frontEndOrder : Obligations.FrontEndOrder := by
  intro s w es hin
  rw [step_of_cmd hin]
  refine ⟨?_, ?_, fun hclr hstat => ⟨fun herr => ?_, fun herr hnone => ?_, fun _ r hr hsel => ?_⟩⟩
  · rintro rfl
    exact frontEnd_of_decode_eq_ok _ (decode_encode .clr)
  · rintro rfl
    exact frontEnd_of_decode_eq_ok _ (decode_encode .stat)
  · exact frontEnd_of_faulted (s := s.withInput es) herr hclr hstat
  · obtain ⟨e, he⟩ := no_row_selects_iff.mp hnone
    exact frontEnd_of_illegal (s := s.withInput es) herr he
  · obtain ⟨i, hm, rfl⟩ := exists_encode_of_selects hr hsel
    exact ⟨i, hm, rfl, frontEnd_of_decode_eq_ok _ (decode_encode i)⟩

/-- Settles O11: under the invariant no command meets an unallocated node, and each answer tells ERR. -/
theorem responseCodeIsOkOrErr : Obligations.ResponseCodeIsOkOrErr := by
  refine ⟨fun s w es hinv hin => ?_, fun s t w es hin hstep => ?_⟩
  · rw [step_of_cmd hin]
    exact frontEnd_answers (inv_withInput hinv es) w
  · rw [step_of_cmd hin] at hstep
    obtain ⟨c, d, hrsp, herr⟩ := frontEnd_tellsErr hstep
    have hcode : rspCode (rspWord c d) = c := BitVec.extractLsb'_append_eq_left
    have hdata : rspData (rspWord c d) = d := BitVec.extractLsb'_append_eq_right
    refine ⟨rspWord c d, hrsp, ?_⟩
    rw [hcode, hdata]
    exact ⟨herr, rfl⟩

/-- Settles O5: the words are decoded bit for bit; on `DBIT 2` the tree is examined before the element (R131). -/
theorem workedEncodingsDecode : Obligations.WorkedEncodingsDecode := by
  refine ⟨by decide, by decide, fun s herr => ?_⟩
  cases htv : s.tv with
  | false => exact ⟨5#4, .inr rfl, execDbit_of_no_tree 2#8 herr htv⟩
  | true => exact ⟨4#4, .inl rfl, execDbit_of_invalid (v := 2#8) herr htv (by decide)⟩

end Sys2Proof.Proofs
end

section
/-! SUPPORT. The statements that rest on spec/40_priority_queue_engine.md: the five commands of the engine with their errors in
order (R101 to R110), BUILD as the completion of its passes (R112, R115), and the correct build of `k` leaves (R112). -/

namespace Sys2Proof.Proofs

open Sys2Proof.Machine Sys2Proof.Safety Sys2Proof.Laws

/-! ### Responses as numbers (R79) -/

theorem respondOk_eq_okRsp (s : State) (d : Data) : respondOk s d = .next (s.withRsp (okRsp d.toNat)) := by
  rw [respondOk_eq_next_iff, rspWord_ok_eq_okRsp]

theorem leafData_toNat (n : NodeIdx) : (leafData n).toNat = n.toNat := by
  have := n.isLt
  rw [leafData, BitVec.toNat_setWidth, Nat.mod_eq_of_lt (by omega)]

theorem sizeData_toNat {s : State} (h : s.pq.length ≤ 256) : (sizeData s).toNat = s.pq.length := by
  rw [sizeData, BitVec.toNat_ofNat, Nat.mod_eq_of_lt (by omega)]

/-- The layout of BUILD with a tree: the frequency in 63:32, `tv` in 16, the root in 8:0. -/
theorem buildData_toNat (k : Freq) (n : NodeIdx) : (buildData k n).toNat = k.toNat * 2 ^ 32 + 2 ^ 16 + n.toNat := by
  simp only [buildData, toNat_append_eq_add, BitVec.toNat_ofNat]
  omega

/-! ### LEAF, XMIN and SIZE (R104 to R106) -/

theorem execLeaf_of_room {s : State} (sym : Symbol) (freq : Freq) (herr : s.err = 0#4) (htv : s.tv = false)
    (hroom : s.storeFull = false) (hqueue : s.queueFull = false) :
    execLeaf sym freq s =
      .next (((s.allocNode (.leaf sym freq)).pqInsert s.nodeCount).withRsp (okRsp s.nodes.length)) := by
  rw [execLeaf, faultGate_of_err_zero _ herr, htv, hroom, hqueue, ← nodeCount_toNat hroom, ← leafData_toNat]
  exact respondOk_eq_okRsp _ _

theorem execLeaf_of_full {s : State} (sym : Symbol) (freq : Freq) (herr : s.err = 0#4) (htv : s.tv = false)
    (hfull : 511 ≤ s.nodes.length ∨ 256 ≤ s.pq.length) : execLeaf sym freq s = .next (raised s 9#4) := by
  have hfull : (s.storeFull || s.queueFull) = true := by
    rw [Bool.or_eq_true]
    exact hfull.imp (decide_eq_true ·) (decide_eq_true ·)
  rw [execLeaf, faultGate_of_err_zero _ herr, htv, hfull]
  exact raiseError_eq_raised .capacity herr

theorem execXmin_of_empty {s : State} (herr : s.err = 0#4) (htv : s.tv = false) (hq : s.pq = []) :
    execXmin s = .next (raised s 1#4) := by
  rw [execXmin, faultGate_of_err_zero _ herr, htv, hq]
  exact raiseError_eq_raised .emptyStructure herr

theorem execSize_of_err_zero {s : State} (herr : s.err = 0#4) (hq : s.pq.length ≤ 256) :
    execSize s = .next (s.withRsp (okRsp s.pq.length)) := by
  rw [execSize, faultGate_of_err_zero _ herr, respondOk_eq_okRsp, sizeData_toNat hq]

/-! ### MERGE (R103, R107) -/

/-- Past its two extractions a merge step is decided by the sum and by the room. -/
theorem mergeStep_of_extractMin {s : State} {a b : Extracted} (ha : extractMin s.nodes s.pq = some a)
    (hb : extractMin s.nodes a.rest = some b) : mergeStep s = mergeNodes s a b := by
  obtain ⟨-, hlenA, -, -⟩ := extractMin_rest ha
  obtain ⟨-, hlenB, -, -⟩ := extractMin_rest hb
  simp [mergeStep, ha, hb, show ¬ s.pq.length < 2 by omega]

theorem mergeNodes_of_fits {s : State} {a b : Extracted} (hsum : a.freq.toNat + b.freq.toNat ≤ 4294967295)
    (hroom : s.storeFull = false) :
    mergeNodes s a b = .merged s.nodeCount (a.freq + b.freq)
      ((s.withPq (b.rest ++ [s.nodeCount])).allocNode (.internal (a.freq + b.freq) a.node b.node)) := by
  have hfits : ¬ Config.freqMax < a.freq.toNat + b.freq.toNat := not_lt.mpr hsum
  simp [mergeNodes, hfits, hroom]

theorem mergeStep_of_short {s : State} (h : s.pq.length < 2) : mergeStep s = .failed .emptyStructure :=
  if_pos h

theorem execMerge_of_merged {s u : State} {n : NodeIdx} {f : Freq} (herr : s.err = 0#4) (htv : s.tv = false)
    (hm : mergeStep s = .merged n f u) :
    execMerge s = .next (u.withRsp (okRsp (f.toNat * 2 ^ 32 + n.toNat))) := by
  rw [execMerge, faultGate_of_err_zero _ herr, htv, hm, ← freqIdxData_toNat]
  exact respondOk_eq_okRsp _ _

theorem execMerge_of_failed {s : State} {e : ErrKind} (herr : s.err = 0#4) (htv : s.tv = false)
    (hm : mergeStep s = .failed e) : execMerge s = .next (raised s e.code) := by
  rw [execMerge, faultGate_of_err_zero _ herr, htv, hm]
  exact raiseError_eq_raised e herr

theorem raised_err_ne_zero {s t : State} {e : ErrKind} (h : Raised s t e) : t.err ≠ 0#4 := by
  obtain ⟨-, rfl⟩ := h
  exact errKind_code_ne_zero e

theorem raised_eq {s t : State} {e : ErrKind} (h : Raised s t e) : t = raised s e.code := by
  obtain ⟨-, rfl⟩ := h
  rw [rspWord_zero_eq_errRsp]
  rfl

/-- A MERGE that leaves no error has found none and has completed its merge step. -/
theorem execMerge_merged_of_ok {s t : State} (h : execMerge s = .next t) (hok : t.err = 0#4) :
    s.tv = false ∧ ∃ n f u, mergeStep s = .merged n f u ∧ Answered s t u (freqIdxData f n) := by
  rcases execMerge_eq_next h with ⟨hf, rfl⟩ | ⟨-, hr⟩ | ⟨-, e, -, hr⟩ | hm
  · exact absurd hok hf
  · exact absurd hok (raised_err_ne_zero hr)
  · exact absurd hok (raised_err_ne_zero hr)
  · exact hm

/-- No entry that an extraction leaves has a smaller key than the one taken (R114). -/
theorem extractMin_le {ns : NodeStore} {q : List NodeIdx} {x : Extracted} (h : extractMin ns q = some x) :
    ∀ y ∈ x.rest, ∃ ky, key ns y = some ky ∧ x.freq.toNat ≤ ky.toNat := by
  obtain ⟨before, after, ⟨-, -, hb, ha⟩, hrest⟩ := extractMin_eq_some h
  intro y hy
  rw [hrest] at hy
  rcases List.mem_append.mp hy with hy | hy
  · obtain ⟨ky, hk, hlt⟩ := hb y hy
    exact ⟨ky, hk, hlt.le⟩
  · exact ha y hy

/-- From a queue without repeats the entry taken does not remain. -/
theorem extractMin_node_notMem {ns : NodeStore} {q : List NodeIdx} {x : Extracted} (hq : q.Nodup)
    (h : extractMin ns q = some x) : x.node ∉ x.rest :=
  (List.nodup_cons.mp ((extractMin_perm h).nodup_iff.mp hq)).1

/-! ### BUILD goes on with its passes (R108, R112, R115) -/

/-- The loop continues from where its completed passes have led, with as many passes as entries are left. -/
theorem buildLoop_of_passes {k : Nat} {s u : State} (h : Passes k s u) :
    buildLoop s.pq.length s = buildLoop u.pq.length u := by
  induction h with
  | none s => rfl
  | @more k s t u n f first others ih =>
    have hlen := (mergeStep_counts first).1
    have hpos : 0 < t.pq.length := by
      obtain ⟨a, b, -, -, -, -, -, rfl⟩ := mergeStep_eq_merged first
      simp
    rw [← ih, ← hlen, buildLoop, if_neg (by omega), first]

/-- What BUILD answers when its loop has ended. -/
def buildAnswer : BuildResult → Result
  | .finished t => finishBuild t
  | .failed e t => raiseError t e
  | .stuck => .fault .unallocatedNode

theorem execBuild_of_no_tree {s : State} (herr : s.err = 0#4) (htv : s.tv = false) :
    execBuild s = buildAnswer (buildLoop s.pq.length s) := by
  rw [execBuild, faultGate_of_err_zero _ herr, htv]
  rfl

/-- BUILD after completed passes answers what BUILD before them answers. -/
theorem execBuild_of_passes {k : Nat} {s u : State} (herr : s.err = 0#4) (htv : s.tv = false) (h : Passes k s u) :
    execBuild u = execBuild s := by
  rw [execBuild_of_no_tree herr htv, execBuild_of_no_tree ((passes_err h).trans herr) ((passes_tv h).trans htv),
    buildLoop_of_passes h]

/-- BUILD when one entry is left: it becomes the tree. -/
theorem execBuild_of_one {s : State} {n : NodeIdx} {k : Freq} (herr : s.err = 0#4) (htv : s.tv = false) (hq : s.pq = [n])
    (hk : key s.nodes n = some k) :
    execBuild s = .next ((s.formTree n).withRsp (okRsp (k.toNat * 2 ^ 32 + 2 ^ 16 + n.toNat))) := by
  obtain ⟨rec, hrec, rfl⟩ := key_eq_some_iff.mp hk
  have hread : s.nodeRead n = some rec := hrec
  rw [execBuild_of_no_tree herr htv, ← buildData_toNat, ← respondOk_eq_okRsp]
  simp [buildLoop, hq, buildAnswer, finishBuild, hread]

theorem execBuild_of_empty {s : State} (herr : s.err = 0#4) (htv : s.tv = false) (hq : s.pq = []) :
    execBuild s = .next (s.withRsp (okRsp 0)) := by
  rw [execBuild_of_no_tree herr htv]
  simp [buildLoop, hq, buildAnswer, finishBuild, respondOk_eq_okRsp]

/-- BUILD when its first pass fails: that pass changes ERR and the response alone (R115). -/
theorem execBuild_of_failed {s : State} {e : ErrKind} (herr : s.err = 0#4) (htv : s.tv = false) (hlen : 1 < s.pq.length)
    (hm : mergeStep s = .failed e) : execBuild s = .next (raised s e.code) := by
  rw [execBuild_of_no_tree herr htv, buildLoop_of_passes_failed (.none s) (le_refl _) hlen hm]
  exact raiseError_eq_raised e herr

/-! ### BUILD does not read the response port -/

/-- The same answer of a merge step, with another response left over in its state. -/
def mergeResultWithRsp (r : Option RspWord) : MergeResult → MergeResult
  | .merged n f s => .merged n f (s.withRsp r)
  | .failed e => .failed e
  | .stuck => .stuck

/-- The same answer of the loop, with another response left over in its state. -/
def buildResultWithRsp (r : Option RspWord) : BuildResult → BuildResult
  | .finished s => .finished (s.withRsp r)
  | .failed e s => .failed e (s.withRsp r)
  | .stuck => .stuck

theorem mergeNodes_withRsp (s : State) (r : Option RspWord) (a b : Extracted) :
    mergeNodes (s.withRsp r) a b = mergeResultWithRsp r (mergeNodes s a b) := by
  have hfull : (s.withRsp r).storeFull = s.storeFull := rfl
  rw [mergeNodes, mergeNodes, hfull]
  split
  · rfl
  · cases s.storeFull <;> rfl

theorem mergeStep_withRsp (s : State) (r : Option RspWord) :
    mergeStep (s.withRsp r) = mergeResultWithRsp r (mergeStep s) := by
  simp only [mergeStep, withRsp_pq, withRsp_nodes, mergeNodes_withRsp]
  split
  · rfl
  split
  · rfl
  split <;> rfl

theorem buildLoop_withRsp (fuel : Nat) (s : State) (r : Option RspWord) :
    buildLoop fuel (s.withRsp r) = buildResultWithRsp r (buildLoop fuel s) := by
  induction fuel generalizing s with
  | zero => rfl
  | succ fuel ih =>
    simp only [buildLoop, withRsp_pq, mergeStep_withRsp]
    split
    · rfl
    cases mergeStep s with
    | merged n f t => exact ih t
    | failed e => rfl
    | stuck => rfl

theorem raiseError_withRsp (s : State) (r : Option RspWord) (e : ErrKind) :
    raiseError (s.withRsp r) e = raiseError s e := by
  by_cases hz : s.err = 0#4 <;> simp [raiseError, respond, hz, State.withRsp, State.withErr]

theorem buildAnswer_withRsp (b : BuildResult) (r : Option RspWord) : buildAnswer (buildResultWithRsp r b) = buildAnswer b := by
  cases b with
  | finished t =>
    simp only [buildResultWithRsp, buildAnswer, finishBuild, withRsp_pq]
    cases t.pq <;> rfl
  | failed e t => exact raiseError_withRsp t r e
  | stuck => rfl

theorem execBuild_withRsp {s : State} (herr : s.err = 0#4) (htv : s.tv = false) (r : Option RspWord) :
    execBuild (s.withRsp r) = execBuild s := by
  have hloop := buildLoop_withRsp s.pq.length s r
  rw [execBuild_of_no_tree herr htv, execBuild_of_no_tree (s := s.withRsp r) herr htv, withRsp_pq, hloop,
    buildAnswer_withRsp]

theorem execBuild_after_merged {s t u : State} {n : NodeIdx} {f : Freq} {d : Data} (htv : s.tv = false)
    (hm : mergeStep s = .merged n f u) (ha : Answered s t u d) : execBuild t = execBuild s := by
  obtain ⟨herr, rfl⟩ := ha
  have hp : Passes 1 s u := .more hm (.none u)
  rw [execBuild_withRsp ((passes_err hp).trans herr) ((passes_tv hp).trans htv), execBuild_of_passes herr htv hp]

theorem execBuild_of_execMerge_failed {s t : State} (herr : s.err = 0#4) (hlen : 2 ≤ s.pq.length) (h : execMerge s = .next t)
    (hfail : t.err ≠ 0#4) : execBuild s = .next t := by
  rcases execMerge_eq_next h with ⟨hf, -⟩ | ⟨htv, hr⟩ | ⟨htv, e, he, hr⟩ | ⟨-, n, f, u, hm, -, rfl⟩
  · exact absurd herr hf
  · rw [raised_eq hr]
    exact queueCommand_of_tree _ herr htv
  · rw [raised_eq hr]
    exact execBuild_of_failed herr htv hlen he
  · exact absurd ((passes_err (.more hm (.none u))).trans herr) hfail

/-! ### Runs, command by command (R221) -/

/-- A run of one word and more: the word is answered, and the others run from what it leaves. -/
theorem run_cons {w : CmdWord} {ws : List CmdWord} {s t u : State} {r : RspWord} {rs : List RspWord}
    (h : frontEnd w s = .next t) (hr : t.rsp = some r) (hrun : run ws t = some (rs, u)) :
    run (w :: ws) s = some (r :: rs, u) := by
  simp [run, h, hr, hrun]

theorem run_cons_eq_some {w : CmdWord} {ws : List CmdWord} {s u : State} {rs : List RspWord}
    (h : run (w :: ws) s = some (rs, u)) :
    ∃ t r rs', frontEnd w s = .next t ∧ t.rsp = some r ∧ run ws t = some (rs', u) ∧ rs = r :: rs' := by
  rw [run] at h
  split at h
  · next t hfe =>
    split at h
    · next r rs' u' hr hrun =>
      obtain ⟨rfl, rfl⟩ : r :: rs' = rs ∧ u' = u := by simpa using h
      exact ⟨t, r, rs', hfe, hr, hrun, rfl⟩
    · cases h
  · cases h

theorem run_append {ws ws' : List CmdWord} {s t u : State} {rs rs' : List RspWord} (h : run ws s = some (rs, t))
    (h' : run ws' t = some (rs', u)) : run (ws ++ ws') s = some (rs ++ rs', u) := by
  induction ws generalizing s rs with
  | nil =>
    obtain ⟨rfl, rfl⟩ : [] = rs ∧ s = t := by simpa [run] using h
    exact h'
  | cons w ws ih =>
    obtain ⟨t₁, r, rs₁, hfe, hr, hrun, rfl⟩ := run_cons_eq_some h
    exact run_cons hfe hr (ih hrun)

theorem runCommands_cons {i : Instr} {is : List Instr} {s t u : State} {r : RspWord} {rs : List RspWord}
    (h : exec i s = .next t) (hr : t.rsp = some r) (hrun : runCommands is t = some (rs, u)) :
    runCommands (i :: is) s = some (r :: rs, u) :=
  run_cons ((frontEnd_of_decode_eq_ok s (decode_encode i)).trans h) hr hrun

theorem runCommands_singleton {i : Instr} {s t : State} {r : RspWord} (h : exec i s = .next t) (hr : t.rsp = some r) :
    runCommands [i] s = some ([r], t) :=
  runCommands_cons h hr rfl

theorem runCommands_append {is js : List Instr} {s t u : State} {rs rs' : List RspWord}
    (h : runCommands is s = some (rs, t)) (h' : runCommands js t = some (rs', u)) :
    runCommands (is ++ js) s = some (rs ++ rs', u) := by
  rw [runCommands, List.map_append]
  exact run_append h h'

/-- Every command leaves a response (R77). -/
theorem exists_rsp_of_exec {s t : State} {i : Instr} (h : exec i s = .next t) : ∃ r, t.rsp = some r := by
  obtain ⟨c, d, hr, -⟩ := exec_tellsErr h
  exact ⟨_, hr⟩

/-- A command that leaves no error has answered OK. -/
theorem rspCode_of_exec_ok {s t : State} {i : Instr} {r : RspWord} (h : exec i s = .next t) (hr : t.rsp = some r)
    (hok : t.err = 0#4) : rspCode r = 0#4 := by
  obtain ⟨c, d, hrsp, hc⟩ := exec_tellsErr h
  obtain rfl : rspWord c d = r := Option.some.inj (hrsp.symm.trans hr)
  have hcode : rspCode (rspWord c d) = c := BitVec.extractLsb'_append_eq_left
  by_contra hne
  exact hne (hcode.trans ((hc (hcode ▸ hne)).1.trans hok))

theorem exists_okRsp_of_exec {s t : State} {i : Instr} (h : exec i s = .next t) (hok : t.err = 0#4) :
    ∃ r, t.rsp = some r ∧ rspCode r = 0#4 := by
  obtain ⟨r, hr⟩ := exists_rsp_of_exec h
  exact ⟨r, hr, rspCode_of_exec_ok h hr hok⟩

theorem exec_keeps_inv {s t : State} {i : Instr} (hinv : Inv s) (h : exec i s = .next t) : Inv t := by
  rcases exec_cases h with ⟨-, r, rfl⟩ | ⟨-, htree⟩ | ⟨u, heff, hrsp⟩
  · exact inv_withRsp (inv_clearBlock s) r
  · exact formsTree_keeps_inv hinv htree
  · exact inv_of_respondsFrom (effect_keeps_inv hinv heff) hrsp

/-! ### The leaves under the queue (R37, R112) -/

/-- An allocation changes nothing of the leaves under a node there already, and all fuel above its index gives them. -/
theorem leavesUnder_append {ns : NodeStore} {n : NodeIdx} {fuel fuel' : Nat} (h : StoreInv ns) (m : Node)
    (hn : n.toNat < ns.length) (hfuel : n.toNat < fuel) (hfuel' : n.toNat < fuel') :
    leavesUnder (ns ++ [m]) fuel n = leavesUnder ns fuel' n := by
  induction fuel generalizing fuel' n with
  | zero => omega
  | succ fuel ih =>
    obtain ⟨fuel', rfl⟩ : ∃ f, fuel' = f + 1 := ⟨fuel' - 1, by omega⟩
    obtain ⟨rec, hrec⟩ := exists_nodeAt hn
    cases rec with
    | leaf sym f => simp [leavesUnder, hrec, nodeAt_append_of_some m hrec]
    | internal f l r =>
      obtain ⟨hl, hr⟩ := children_lt_parent h hrec
      simp only [leavesUnder, hrec, nodeAt_append_of_some m hrec]
      rw [ih (by omega) (by omega) (fuel' := fuel') (by omega), ih (by omega) (by omega) (fuel' := fuel') (by omega)]

/-- The leaves under the entries of the queue, entry by entry. -/
def queueLeaves (s : State) : List (Symbol × Freq) := s.pq.flatMap (leavesOf s.nodes)

theorem freqSum_append (l l' : List (Symbol × Freq)) : freqSum (l ++ l') = freqSum l + freqSum l' := by
  simp [freqSum]

theorem freqSum_perm {l l' : List (Symbol × Freq)} (h : l.Perm l') : freqSum l = freqSum l' :=
  (h.map _).sum_eq

/-- The keys queued add up to the leaves under them (R37). -/
theorem queueSum_eq_freqSum {s : State} (h : Inv s) : queueSum s = freqSum (queueLeaves s) := by
  have hkey : ∀ n ∈ s.pq, ((key s.nodes n).map BitVec.toNat).getD 0 = freqSum (leavesOf s.nodes n) := by
    intro n hn
    obtain ⟨rec, hrec⟩ := exists_nodeAt (h.queueAllocated n hn)
    simpa [key, hrec, leavesOf] using freq_eq_freqSum_leavesUnder h.store hrec (Nat.lt_succ_self _)
  rw [queueSum, queueLeaves, List.map_congr_left hkey]
  induction s.pq with
  | nil => rfl
  | cons n q ih => simp [freqSum_append, ih]

/-- Allocating and queueing a node adds the leaves under it at the end. -/
theorem queueLeaves_allocAndQueue {s : State} {q : List NodeIdx} (m : Node) (h : StoreInv s.nodes)
    (hq : ∀ n ∈ q, n.toNat < s.nodes.length) :
    queueLeaves ((s.withPq (q ++ [s.nodeCount])).allocNode m) =
      q.flatMap (leavesOf s.nodes) ++ leavesOf (s.nodes ++ [m]) s.nodeCount := by
  have hold : q.flatMap (leavesOf (s.nodes ++ [m])) = q.flatMap (leavesOf s.nodes) :=
    List.flatMap_congr fun n hn => leavesUnder_append h m (hq n hn) (Nat.lt_succ_self _) (Nat.lt_succ_self _)
  simp [queueLeaves, hold]

/-- A merge step moves the leaves under its two nodes under their parent (R103). -/
theorem mergeStep_queueLeaves {s t : State} {n : NodeIdx} {f : Freq} (h : Inv s) (hm : mergeStep s = .merged n f t) :
    (queueLeaves t).Perm (queueLeaves s) := by
  obtain ⟨a, b, ha, hb, -, hroom, rfl, rfl⟩ := mergeStep_eq_merged hm
  obtain ⟨hsubA, -, hmemA, -⟩ := extractMin_rest ha
  obtain ⟨hsubB, -, hmemB, -⟩ := extractMin_rest hb
  have hallocA := h.queueAllocated _ hmemA
  have hallocB := h.queueAllocated _ (hsubA.subset hmemB)
  have hparent : leavesOf (s.nodes ++ [.internal f a.node b.node]) s.nodeCount =
      leavesOf s.nodes a.node ++ leavesOf s.nodes b.node := by
    have hnew : nodeAt (s.nodes ++ [.internal f a.node b.node]) s.nodeCount = some (.internal f a.node b.node) :=
      nodeRead_allocNode_new _ hroom
    rw [leavesOf, leavesUnder, hnew, nodeCount_toNat hroom]
    exact congrArg₂ _ (leavesUnder_append h.store _ hallocA hallocA (Nat.lt_succ_self _))
      (leavesUnder_append h.store _ hallocB hallocB (Nat.lt_succ_self _))
  have hperm : (b.rest ++ [a.node, b.node]).Perm s.pq :=
    List.perm_append_comm.trans (((extractMin_perm hb).symm.cons a.node).trans (extractMin_perm ha).symm)
  rw [queueLeaves_allocAndQueue _ h.store fun n hn => h.queueAllocated n (hsubA.subset (hsubB.subset hn)), hparent]
  simpa [queueLeaves] using hperm.flatMap_right (leavesOf s.nodes)

theorem passes_queueLeaves {k : Nat} {s t : State} (h : Inv s) (htv : s.tv = false) (hp : Passes k s t) :
    (queueLeaves t).Perm (queueLeaves s) := by
  induction hp with
  | none s => exact .refl _
  | more first _ ih =>
    have htv' := (passes_tv (.more first (.none _))).trans htv
    exact (ih (mergeStep_keeps_inv h htv first) htv').trans (mergeStep_queueLeaves h first)

theorem passes_queueSum {k : Nat} {s t : State} (h : Inv s) (htv : s.tv = false) (hp : Passes k s t) :
    queueSum t = queueSum s := by
  rw [queueSum_eq_freqSum h, queueSum_eq_freqSum (passes_keep_inv h htv hp), freqSum_perm (passes_queueLeaves h htv hp)]

theorem queueSum_of_one {s : State} {n : NodeIdx} {k : Freq} (hq : s.pq = [n]) (hk : key s.nodes n = some k) :
    queueSum s = k.toNat := by
  simp [queueSum, hq, hk]

/-- The two keys of a merge step are summands of the whole queue. -/
theorem queueSum_of_sumTooLarge {s : State} (h : SumTooLarge s) : 4294967295 < queueSum s := by
  obtain ⟨ka, kb, hkeys, hsum⟩ := h
  obtain ⟨a, b, ha, hb, rfl, rfl⟩ := nextMergeKeys_iff.mp hkeys
  have hperm := (extractMin_perm ha).trans ((extractMin_perm hb).cons a.node)
  obtain ⟨-, -, -, hkeyA⟩ := extractMin_rest ha
  obtain ⟨-, -, -, hkeyB⟩ := extractMin_rest hb
  have hqueue := (hperm.map fun n => ((key s.nodes n).map BitVec.toNat).getD 0).sum_eq
  simp only [List.map_cons, List.sum_cons, hkeyA, hkeyB, Option.map_some, Option.getD_some] at hqueue
  rw [queueSum, hqueue]
  omega

/-! ### What completed passes have done (R103, R115) -/

/-- Completed passes have added internal nodes only. -/
theorem passes_added {k : Nat} {s t : State} (h : Passes k s t) :
    ∃ added, t.nodes = s.nodes ++ added ∧ added.length = k ∧ ∀ n ∈ added, n.k = 1#1 := by
  induction h with
  | none s => exact ⟨[], by simp, rfl, by simp⟩
  | more first _ ih =>
    obtain ⟨a, b, -, -, -, -, -, rfl⟩ := mergeStep_eq_merged first
    obtain ⟨added, hnodes, hlen, hk⟩ := ih
    exact ⟨_ :: added, by simpa using hnodes, by simp [hlen], by simpa using ⟨rfl, hk⟩⟩

/-- The last entry of the queue is the node allocated last. -/
def NewestLast (s : State) : Prop := ∃ n, s.pq.getLast? = some n ∧ n.toNat + 1 = s.nodes.length

theorem newestLast_allocAndQueue {s : State} (q : List NodeIdx) (m : Node) (hroom : s.storeFull = false) :
    NewestLast ((s.withPq (q ++ [s.nodeCount])).allocNode m) :=
  ⟨s.nodeCount, by simp, by simp [nodeCount_toNat hroom]⟩

/-- If there were passes, the last of them has queued its node last. -/
theorem passes_newestLast {k : Nat} {s t : State} (h : Passes k s t) : t = s ∨ NewestLast t := by
  induction h with
  | none s => exact .inl rfl
  | more first _ ih =>
    obtain ⟨a, b, -, -, -, hroom, rfl, rfl⟩ := mergeStep_eq_merged first
    rcases ih with rfl | hlast
    · exact .inr (newestLast_allocAndQueue _ _ hroom)
    · exact .inr hlast

theorem newestLast_of_one {s : State} {n : NodeIdx} (h : NewestLast s) (hq : s.pq = [n]) : n.toNat + 1 = s.nodes.length := by
  obtain ⟨m, hm, hlen⟩ := h
  obtain rfl : n = m := by simpa [hq] using hm
  exact hlen

theorem passes_pq_ne_nil {k : Nat} {s t : State} (h : Passes k s t) (hne : s.pq ≠ []) : t.pq ≠ [] := by
  rcases passes_newestLast h with rfl | ⟨n, hn, -⟩
  · exact hne
  · rintro hnil
    simp [hnil] at hn

/-! ### BUILD with room for its merges (R112) -/

/-- With room for the merges the one thing that can stop the passes before the last entry is a sum that does not fit. -/
theorem exists_passes_of_room {s : State} (h : Inv s) (htv : s.tv = false) (hne : s.pq ≠ [])
    (hroom : s.nodes.length + s.pq.length ≤ 512) :
    ∃ k u, Passes k s u ∧ ((∃ n, u.pq = [n]) ∨ 1 < u.pq.length ∧ mergeStep u = .failed .freqOverflow) := by
  rcases buildLoop_cases (le_refl s.pq.length) with
    ⟨k, u, -, hp, hlen⟩ | ⟨k, e, u, -, hp, hlen, hm⟩ | ⟨k, u, -, hp, -, hm⟩
  · have hpos := List.length_pos_iff.mpr (passes_pq_ne_nil hp hne)
    exact ⟨k, u, hp, .inl (List.length_eq_one_iff.mp (by omega))⟩
  · refine ⟨k, u, hp, .inr ⟨hlen, ?_⟩⟩
    rcases mergeStep_eq_failed hm with ⟨hshort, -⟩ | ⟨a, b, -, -, ⟨-, rfl⟩ | ⟨-, hfull, -⟩⟩
    · omega
    · exact hm
    · have hcounts := passes_counts hp
      have hfull : 511 ≤ u.nodes.length := of_decide_eq_true hfull
      omega
  · exact absurd hm (mergeStep_ne_stuck (passes_keep_inv h htv hp).queueAllocated)

/-- The one entry that passes have left has the sum of the frequencies that were queued (R37). -/
theorem exists_key_of_passes_one {k : Nat} {s u : State} {n : NodeIdx} (h : Inv s) (htv : s.tv = false) (hp : Passes k s u)
    (hq : u.pq = [n]) : ∃ f, key u.nodes n = some f ∧ queueSum s = f.toNat := by
  obtain ⟨rec, hrec⟩ := exists_nodeAt ((passes_keep_inv h htv hp).queueAllocated n (by simp [hq]))
  have hkey : key u.nodes n = some rec.freq := key_eq_some_iff.mpr ⟨rec, hrec, rfl⟩
  exact ⟨rec.freq, hkey, (passes_queueSum h htv hp).symm.trans (queueSum_of_one hq hkey)⟩

/-- When the frequencies fit and there is room, the passes lead to one entry, and it becomes the tree. -/
theorem execBuild_of_fits {s : State} (h : Inv s) (herr : s.err = 0#4) (htv : s.tv = false) (hne : s.pq ≠ [])
    (hroom : s.nodes.length + s.pq.length ≤ 512) (hsum : queueSum s ≤ 4294967295) :
    ∃ k u n, Passes k s u ∧ u.pq = [n] ∧ (key u.nodes n).map BitVec.toNat = some (queueSum s) ∧
      execBuild s = .next ((u.formTree n).withRsp (okRsp (queueSum s * 2 ^ 32 + 2 ^ 16 + n.toNat))) := by
  obtain ⟨k, u, hp, ⟨n, hq⟩ | ⟨-, hm⟩⟩ := exists_passes_of_room h htv hne hroom
  · obtain ⟨f, hkey, htotal⟩ := exists_key_of_passes_one h htv hp hq
    refine ⟨k, u, n, hp, hq, by rw [hkey, htotal]; rfl, ?_⟩
    rw [htotal, ← execBuild_of_passes herr htv hp]
    exact execBuild_of_one ((passes_err hp).trans herr) ((passes_tv hp).trans htv) hq hkey
  · have hlarge := queueSum_of_sumTooLarge (mergeStep_freqOverflow_iff.mp hm)
    rw [passes_queueSum h htv hp] at hlarge
    omega

/-- When the frequencies do not fit some pass overflows, since one entry could not hold their sum. -/
theorem execBuild_of_overflow {s : State} (h : Inv s) (herr : s.err = 0#4) (htv : s.tv = false) (hne : s.pq ≠ [])
    (hroom : s.nodes.length + s.pq.length ≤ 512) (hsum : 4294967295 < queueSum s) :
    ∃ k u, Passes k s u ∧ execBuild s = .next (raised u 10#4) := by
  obtain ⟨k, u, hp, ⟨n, hq⟩ | ⟨hlen, hm⟩⟩ := exists_passes_of_room h htv hne hroom
  · obtain ⟨f, -, htotal⟩ := exists_key_of_passes_one h htv hp hq
    have := f.isLt
    omega
  · refine ⟨k, u, hp, ?_⟩
    rw [← execBuild_of_passes herr htv hp]
    exact execBuild_of_failed ((passes_err hp).trans herr) ((passes_tv hp).trans htv) hlen hm

/-! ### The LEAFs of a correct build (R112) -/

/-- The LEAF command that loads a leaf (R162). -/
def leafInstr (l : Symbol × Freq) : Instr := .leaf l.1 l.2

/-- The node that it allocates (R104). -/
def leafNode (l : Symbol × Freq) : Node := .leaf l.1 l.2

/-- What the LEAFs of some leaves leave of `S0`. -/
structure Loaded (leaves : List (Symbol × Freq)) (t : State) : Prop where
  inv : Inv t
  err : t.err = 0#4
  tv : t.tv = false
  nodes : t.nodes = leaves.map leafNode
  queued : t.pq.length = leaves.length
  queueLeaves : queueLeaves t = leaves
  newestLast : leaves ≠ [] → NewestLast t

theorem loaded_reset : Loaded [] State.reset where
  inv := inv_clearBlock .reset
  err := rfl
  tv := rfl
  nodes := rfl
  queued := rfl
  queueLeaves := rfl
  newestLast h := absurd rfl h

theorem loaded_execLeaf {leaves : List (Symbol × Freq)} {s : State} (h : Loaded leaves s) (l : Symbol × Freq)
    (hlen : leaves.length < 256) : ∃ t, exec (leafInstr l) s = .next t ∧ Loaded (leaves ++ [l]) t := by
  have hnodes : s.nodes.length = leaves.length := by rw [h.nodes, List.length_map]
  have hroom : s.storeFull = false := (storeFull_eq_false_iff s).mpr (by omega)
  have hqueue : s.queueFull = false := (queueFull_eq_false_iff s).mpr (by rw [h.queued]; exact hlen)
  have hexec := execLeaf_of_room l.1 l.2 h.err h.tv hroom hqueue
  have hnew : leavesOf (s.nodes ++ [leafNode l]) s.nodeCount = [l] := by
    have hread : nodeAt (s.nodes ++ [leafNode l]) s.nodeCount = some (leafNode l) := nodeRead_allocNode_new _ hroom
    rw [leavesOf, leavesUnder, hread]
    rfl
  refine ⟨_, hexec, ?_⟩
  exact {
    inv := exec_keeps_inv (i := leafInstr l) h.inv hexec
    err := h.err
    tv := h.tv
    nodes := by simp [h.nodes, leafNode]
    queued := by simp [h.queued]
    queueLeaves := by
      refine (queueLeaves_allocAndQueue (leafNode l) h.inv.store h.inv.queueAllocated).trans ?_
      rw [hnew]
      exact congrArg (· ++ [l]) h.queueLeaves
    newestLast := fun _ => newestLast_allocAndQueue s.pq (leafNode l) hroom }

theorem runCommands_leaves (leaves : List (Symbol × Freq)) (hlen : leaves.length ≤ 256) :
    ∃ rs s, runCommands (leaves.map leafInstr) State.reset = some (rs, s) ∧ (∀ x ∈ rs, rspCode x = 0#4) ∧
      Loaded leaves s := by
  induction leaves using List.reverseRecOn with
  | nil => exact ⟨[], _, rfl, by simp, loaded_reset⟩
  | append_singleton leaves l ih =>
    rw [List.length_append, List.length_singleton] at hlen
    obtain ⟨rs, s, hrun, hok, hs⟩ := ih (by omega)
    obtain ⟨t, hexec, ht⟩ := loaded_execLeaf hs l (by omega)
    obtain ⟨r, hr, hcode⟩ := exists_okRsp_of_exec hexec ht.err
    refine ⟨rs ++ [r], t, ?_, ?_, ht⟩
    · rw [List.map_append]
      exact runCommands_append hrun (runCommands_singleton hexec hr)
    · simpa using fun x hx => hx.elim (hok x) fun h => h ▸ hcode

theorem loaded_nodes_length {leaves : List (Symbol × Freq)} {s : State} (h : Loaded leaves s) :
    s.nodes.length = leaves.length := by
  rw [h.nodes, List.length_map]

theorem loaded_queueSum {leaves : List (Symbol × Freq)} {s : State} (h : Loaded leaves s) : queueSum s = freqSum leaves := by
  rw [queueSum_eq_freqSum h.inv, h.queueLeaves]

theorem loaded_pq_ne_nil {leaves : List (Symbol × Freq)} {s : State} (h : Loaded leaves s) (hne : leaves ≠ []) :
    s.pq ≠ [] :=
  List.length_pos_iff.mp (h.queued ▸ List.length_pos_iff.mpr hne)

/-- Up to 256 leaves leave room for all merges (R10). -/
theorem loaded_room {leaves : List (Symbol × Freq)} {s : State} (h : Loaded leaves s) (hlen : leaves.length ≤ 256) :
    s.nodes.length + s.pq.length ≤ 512 := by
  rw [loaded_nodes_length h, h.queued]
  omega

/-- The tree that passes over the loaded leaves have led to, `n` being its root: R112 (b) to (f) but for the frequency. -/
theorem tree_of_loaded {leaves : List (Symbol × Freq)} {k : Nat} {s u : State} {n : NodeIdx} (h : Loaded leaves s)
    (hne : leaves ≠ []) (hp : Passes k s u) (hq : u.pq = [n]) :
    n.toNat = 2 * leaves.length - 2 ∧ u.nodes.length = 2 * leaves.length - 1 ∧
      u.nodes.take leaves.length = leaves.map leafNode ∧ (∀ m ∈ u.nodes.drop leaves.length, m.k = 1#1) ∧
      (leavesOf u.nodes n).Perm leaves := by
  have hlen := loaded_nodes_length h
  obtain ⟨hcount, hnodes⟩ := passes_counts hp
  obtain ⟨added, hadded, -, hkind⟩ := passes_added hp
  have hlast : NewestLast u := (passes_newestLast hp).elim (fun heq => heq ▸ h.newestLast hne) id
  have hroot := newestLast_of_one hlast hq
  have hpos := List.length_pos_iff.mpr hne
  rw [h.queued, hq, List.length_singleton] at hcount
  refine ⟨by omega, by omega, ?_, ?_, ?_⟩
  · rw [hadded, ← hlen, List.take_left, h.nodes]
  · rw [hadded, ← hlen, List.drop_left]
    exact hkind
  · have hperm := passes_queueLeaves h.inv h.tv hp
    rwa [queueLeaves, hq, List.flatMap_singleton, h.queueLeaves] at hperm

/-- What a BUILD on the loaded leaves leaves: nothing new without leaves, a fault when their sum does not fit, else a tree. -/
theorem execBuild_loaded_cases {leaves : List (Symbol × Freq)} {s t : State} (h : Loaded leaves s) (hlen : leaves.length ≤ 256)
    (hbuild : execBuild s = .next t) :
    (leaves = [] ∧ t = s.withRsp (okRsp 0)) ∨
      (leaves ≠ [] ∧ 4294967295 < freqSum leaves ∧ ∃ k u, Passes k s u ∧ t = raised u 10#4) ∨
      (leaves ≠ [] ∧ freqSum leaves ≤ 4294967295 ∧ ∃ k u n r, Passes k s u ∧ u.pq = [n] ∧
        (key u.nodes n).map BitVec.toNat = some (freqSum leaves) ∧ t = (u.formTree n).withRsp r) := by
  have hnext : ∀ {t' : State}, execBuild s = .next t' → t = t' := fun h' => Host.Outcome.next.inj (hbuild.symm.trans h')
  have hroom := loaded_room h hlen
  have hsum := loaded_queueSum h
  rcases eq_or_ne leaves [] with rfl | hne
  · exact .inl ⟨rfl, hnext (execBuild_of_empty h.err h.tv (List.length_eq_zero_iff.mp h.queued))⟩
  have hpq := loaded_pq_ne_nil h hne
  rcases Nat.lt_or_ge 4294967295 (freqSum leaves) with hover | hfits
  · obtain ⟨k, u, hp, hb⟩ := execBuild_of_overflow h.inv h.err h.tv hpq hroom (hsum ▸ hover)
    exact .inr (.inl ⟨hne, hover, k, u, hp, hnext hb⟩)
  · obtain ⟨k, u, n, hp, hq, hkey, hb⟩ := execBuild_of_fits h.inv h.err h.tv hpq hroom (hsum ▸ hfits)
    exact .inr (.inr ⟨hne, hfits, k, u, n, _, hp, hq, hsum ▸ hkey, hnext hb⟩)

/-! ### MERGEs before the BUILD (R112) -/

theorem execBuild_of_faulted {s : State} (hf : s.err ≠ 0#4) : execBuild s = .next (s.withRsp (errRsp s.err)) :=
  exec_of_faulted (i := .build) hf (by decide) (by decide)

/-- A faulted block that has answered its code answers the same again (R192). -/
theorem execBuild_of_fault_answered {s : State} (hf : s.err ≠ 0#4) (hr : s.rsp = errRsp s.err) : execBuild s = .next s := by
  rw [execBuild_of_faulted hf, ← hr]
  rfl

/-- On two entries or more, or on a faulted block, a BUILD after a MERGE ends as a BUILD in its place would have ended: a MERGE
that answers OK is its first pass, and one that fails has already left what a failing BUILD leaves. -/
theorem execBuild_after_execMerge {s t : State} (hlen : s.err = 0#4 → 2 ≤ s.pq.length) (h : execMerge s = .next t) :
    execBuild t = execBuild s := by
  have hraised : ∀ {e : ErrKind}, Raised s t e → execBuild t = execBuild s := by
    intro e hr
    have hf := raised_err_ne_zero hr
    rw [execBuild_of_execMerge_failed hr.1 (hlen hr.1) h hf]
    refine execBuild_of_fault_answered hf ?_
    rw [raised_eq hr]
    rfl
  rcases execMerge_eq_next h with ⟨hf, ht⟩ | ⟨-, hr⟩ | ⟨-, e, -, hr⟩ | ⟨htv, n, f, u, hm, ha⟩
  · rw [rspWord_zero_eq_errRsp] at ht
    subst ht
    rw [execBuild_of_faulted hf]
    exact execBuild_of_fault_answered hf rfl
  · exact hraised hr
  · exact hraised hr
  · exact execBuild_after_merged htv hm ha

/-- As many MERGEs as leave one entry, then a BUILD: the BUILD alone ends in the same state. -/
theorem runCommands_merges_build {j : Nat} {s u : State} (hinv : Inv s) (hj : s.err = 0#4 → j ≤ s.pq.length - 1)
    (hbuild : exec .build s = .next u) : ∃ rs, runCommands (List.replicate j .merge ++ [.build]) s = some (rs, u) := by
  induction j generalizing s with
  | zero =>
    obtain ⟨r, hr⟩ := exists_rsp_of_exec hbuild
    exact ⟨[r], runCommands_singleton hbuild hr⟩
  | succ j ih =>
    obtain ⟨t, hmerge⟩ := exec_answers hinv .merge
    obtain ⟨r, hr⟩ := exists_rsp_of_exec hmerge
    have hlen : s.err = 0#4 → 2 ≤ s.pq.length := fun herr => by have := hj herr; omega
    have hsame : exec .build t = .next u := (execBuild_after_execMerge hlen hmerge).trans hbuild
    have hj' : t.err = 0#4 → j ≤ t.pq.length - 1 := by
      intro hok
      obtain ⟨-, n, f, v, hm, herr, rfl⟩ := execMerge_merged_of_ok hmerge hok
      have hcount : v.pq.length + 1 = s.pq.length := (mergeStep_counts hm).1
      have := hj herr
      rw [withRsp_pq]
      omega
    obtain ⟨rs, hrun⟩ := ih (exec_keeps_inv hinv hmerge) hj' hsame
    exact ⟨r :: rs, runCommands_cons hmerge hr hrun⟩

/-! ### The obligations -/

/-- Settles O12: with room for the leaf and for its entry, LEAF allocates and queues it. -/
theorem leafAllocatesAndInserts : Obligations.LeafAllocatesAndInserts := by
  intro s sym freq herr htv hnodes hpq
  exact execLeaf_of_room sym freq herr htv ((storeFull_eq_false_iff s).mpr hnodes) ((queueFull_eq_false_iff s).mpr hpq)

/-- Settles O13: the tree is examined before the room. -/
theorem leafErrorsInOrder : Obligations.LeafErrorsInOrder := by
  intro s sym freq herr
  exact ⟨queueCommand_of_tree _ herr, execLeaf_of_full sym freq herr⟩

/-- Settles O16: the tree is examined before the queue. -/
theorem xminErrorsInOrder : Obligations.XminErrorsInOrder := by
  intro s herr
  exact ⟨queueCommand_of_tree _ herr, execXmin_of_empty herr⟩

/-- Settles O17: the length fits its field, and SIZE reads no register but ERR. -/
theorem sizeAnswersQueueLength : Obligations.SizeAnswersQueueLength := by
  intro s herr hpq
  exact execSize_of_err_zero herr hpq

/-- Settles O18: the extractions take the entries of the two splits, and the sum is exact in its 32 bits. -/
theorem mergeMakesParentOfTwoMinima : Obligations.MergeMakesParentOfTwoMinima := by
  intro s before after before' after' a b ka kb herr htv hA hB hsum hnodes
  have hroom : s.storeFull = false := (storeFull_eq_false_iff s).mpr hnodes
  have hm := mergeStep_of_extractMin (extractMin_of_earliestMin hA) (extractMin_of_earliestMin hB)
  rw [mergeNodes_of_fits hsum hroom] at hm
  have hf : (ka + kb).toNat = ka.toNat + kb.toNat := by
    rw [BitVec.toNat_add, Nat.mod_eq_of_lt (by omega)]
  have hfreq : ka + kb = BitVec.ofNat 32 (ka.toNat + kb.toNat) := by rw [← hf, BitVec.ofNat_toNat, BitVec.setWidth_eq]
  have hmerge := execMerge_of_merged herr htv hm
  rw [hf, nodeCount_toNat hroom, hfreq] at hmerge
  exact hmerge

/-- Settles O19: the tree, the length of the queue, the sum and the room are examined in this order. -/
theorem mergeErrorsInOrder : Obligations.MergeErrorsInOrder := by
  intro s herr
  refine ⟨queueCommand_of_tree _ herr, fun htv hlen => execMerge_of_failed herr htv (mergeStep_of_short hlen), ?_⟩
  intro before after before' after' a b ka kb htv hA hB
  have hkeys : NextMergeKeys s ka kb := ⟨before, a, after, before', b, after', hA, hB⟩
  exact ⟨fun hsum => execMerge_of_failed herr htv (mergeStep_freqOverflow_iff.mpr ⟨ka, kb, hkeys, hsum⟩),
    fun hsum hfull => execMerge_of_failed herr htv (mergeStep_capacity_iff.mpr ⟨ka, kb, hkeys, hsum, hfull⟩)⟩

/-- Settles O20: the second extraction is made from what the first leaves, and each takes a minimum. -/
theorem mergeIsGreedy : Obligations.MergeIsGreedy := by
  intro s t _ hnodup h hok
  obtain ⟨-, n, f, u, hm, -, rfl⟩ := execMerge_merged_of_ok h hok
  refine ⟨(mergeStep_counts hm).1, ?_⟩
  obtain ⟨a, b, ha, hb, -, -, rfl, rfl⟩ := mergeStep_eq_merged hm
  obtain ⟨hsubA, -, hmemA, hkeyA⟩ := extractMin_rest ha
  obtain ⟨hsubB, -, hmemB, hkeyB⟩ := extractMin_rest hb
  obtain ⟨kb, hkb, hle⟩ := extractMin_le ha b.node hmemB
  obtain rfl : kb = b.freq := Option.some.inj (hkb.symm.trans hkeyB)
  have hne : a.node ≠ b.node := fun heq => extractMin_node_notMem hnodup ha (heq ▸ hmemB)
  have hsplit : ∀ x ∈ s.pq, x = a.node ∨ x = b.node ∨ x ∈ b.rest := by
    intro x hx
    have hx := ((extractMin_perm ha).trans ((extractMin_perm hb).cons a.node)).mem_iff.mp hx
    simpa using hx
  exact ⟨a.node, b.node, a.freq, b.freq, f, b.rest, rfl, rfl, hmemA, hsubA.subset hmemB, hne, hsubB.trans hsubA, hsplit,
    hkeyA, hkeyB, hle, extractMin_le hb⟩

/-- Settles O21: the loop is not entered. -/
theorem buildOnOneEntry : Obligations.BuildOnOneEntry := by
  refine ⟨fun s n k herr htv hq hk => execBuild_of_one herr htv hq hk, ?_⟩
  exact ⟨_, rfl, by decide⟩

/-- Settles O22: the loop is not entered and no tree is formed, so that the next LEAF leaves one entry for the next BUILD. -/
theorem buildOnEmptyQueue : Obligations.BuildOnEmptyQueue := by
  refine ⟨fun s herr htv hq => execBuild_of_empty herr htv hq, by decide, fun s sym freq herr htv hq hlen => ?_⟩
  have hroom : s.storeFull = false := (storeFull_eq_false_iff s).mpr hlen
  have hqueue : s.queueFull = false := (queueFull_eq_false_iff s).mpr (by simp [hq])
  have hempty : exec .build s = .next (s.withRsp (okRsp 0)) := execBuild_of_empty herr htv hq
  have hleaf : exec (.leaf sym freq) (s.withRsp (okRsp 0)) = .next _ :=
    execLeaf_of_room (s := s.withRsp (okRsp 0)) sym freq herr htv hroom hqueue
  have hbuild := execBuild_of_one (s := ((s.allocNode (.leaf sym freq)).pqInsert s.nodeCount).withRsp (okRsp s.nodes.length))
    herr htv (n := s.nodeCount) (by simp [hq]) (key_eq_some_iff.mpr ⟨_, nodeRead_allocNode_new (.leaf sym freq) hroom, rfl⟩)
  obtain ⟨r₁, hr₁, hc₁⟩ := exists_okRsp_of_exec hempty herr
  obtain ⟨r₂, hr₂, hc₂⟩ := exists_okRsp_of_exec hleaf herr
  obtain ⟨r₃, hr₃, hc₃⟩ := exists_okRsp_of_exec (i := .build) hbuild herr
  refine ⟨[r₁, r₂, r₃], _,
    runCommands_cons hempty hr₁ (runCommands_cons hleaf hr₂ (runCommands_singleton hbuild hr₃)), ?_, rfl⟩
  simp [hc₁, hc₂, hc₃]

/-- Settles O23: BUILD continues the loop, and does not read the response MERGE has left. -/
theorem buildContinuesMerge : Obligations.BuildContinuesMerge := by
  intro s t _ h hok
  obtain ⟨htv, n, f, u, hm, ha⟩ := execMerge_merged_of_ok h hok
  exact execBuild_after_merged htv hm ha

/-- Settles O24: the pass of MERGE is the first of BUILD. -/
theorem buildFailsWithItsFirstPass : Obligations.BuildFailsWithItsFirstPass := by
  intro s t herr hlen h hfail
  exact execBuild_of_execMerge_failed herr hlen h hfail

/-- Settles O25: the passes are those of the loop, each of which takes one entry off the queue. -/
theorem buildKeepsCompletedPasses : Obligations.BuildKeepsCompletedPasses := by
  refine ⟨⟨_, _, rfl, by decide⟩, fun s t herr htv h => ?_⟩
  rcases execBuild_eq_next h with ⟨hf, -⟩ | ⟨htree, -⟩ |
    ⟨-, -, k, u, hp, ⟨hnil, -, rfl⟩ | ⟨n, rec, hq, -, -, rfl⟩ | ⟨e, hlen, hm, hr⟩⟩
  · exact absurd herr hf
  · exact absurd (htree.symm.trans htv) (by decide)
  · have herr' := (passes_err hp).trans herr
    exact ⟨fun _ hne => absurd hnil (passes_pq_ne_nil hp hne), fun hfail => absurd herr' hfail⟩
  · have herr' := (passes_err hp).trans herr
    have hone : u.pq.length = 1 := by rw [hq, List.length_singleton]
    obtain rfl : k = s.pq.length - 1 := by have := (passes_counts hp).1; omega
    exact ⟨fun _ _ => ⟨u, hp, rfl, rfl, hone, rfl⟩, fun hfail => absurd herr' hfail⟩
  · have hcount := (passes_counts hp).1
    obtain rfl := raised_eq hr
    exact ⟨fun hok => absurd hok (raised_err_ne_zero hr),
      fun _ => ⟨(passes_tv hp).trans htv, k, u, e, by omega, hp, hm, rfl⟩⟩

/-- Settles O26: the passes keep the sum of the queue, so none overflows, and they end with one entry. -/
theorem buildFormsTheTree : Obligations.BuildFormsTheTree := by
  intro s hinv herr htv hne hsum hroom
  obtain ⟨k, u, n, hp, hq, hkey, hbuild⟩ := execBuild_of_fits hinv herr htv hne hroom hsum
  obtain ⟨added, hadded, hlen, hkind⟩ := passes_added hp
  have hcount := (passes_counts hp).1
  rw [hq, List.length_singleton] at hcount
  refine ⟨added, n, by omega, hkind, ?_, hadded ▸ hkey, ?_⟩
  · rcases passes_newestLast hp with rfl | hlast
    · exact .inl hq
    · exact .inr (by rw [newestLast_of_one hlast hq, hadded, List.length_append])
  · rw [passes_others hp, hadded, hq] at hbuild
    exact hbuild

/-- Settles O27: the LEAFs load the leaves, and their sum decides whether the passes over them overflow. -/
theorem correctBuild : Obligations.CorrectBuild := by
  intro leaves hlen
  obtain ⟨rs, s, hrun, hok, hs⟩ := runCommands_leaves leaves hlen
  obtain ⟨t, hbuild⟩ := exec_answers hs.inv .build
  obtain ⟨r, hr⟩ := exists_rsp_of_exec hbuild
  have hcode := rspCode_of_exec_ok hbuild hr
  refine ⟨rs, r, t, runCommands_append hrun (runCommands_singleton hbuild hr), hok, ?_⟩
  rcases execBuild_loaded_cases hs hlen hbuild with
    ⟨rfl, rfl⟩ | ⟨hne, hover, k, u, hp, rfl⟩ | ⟨hne, hfits, k, u, n, r', hp, hq, hkey, rfl⟩
  · have hpq : s.pq = [] := List.length_eq_zero_iff.mp hs.queued
    exact ⟨fun hover => absurd hover (by decide), fun _ => ⟨hcode hs.err, hs.err⟩, fun _ => ⟨hs.tv, hs.nodes, hpq⟩,
      fun hne => absurd rfl hne⟩
  · obtain rfl := Option.some.inj hr
    exact ⟨fun _ => ⟨by decide, rfl, (passes_tv hp).trans hs.tv⟩, fun hfits => absurd hfits hover.not_ge,
      fun hnil => absurd hnil hne, fun _ hfits => absurd hfits hover.not_ge⟩
  · have herr : u.err = 0#4 := (passes_err hp).trans hs.err
    obtain ⟨hroot, hcount, htake, hdrop, hleaves⟩ := tree_of_loaded hs hne hp hq
    exact ⟨fun hover => absurd hfits hover.not_ge, fun _ => ⟨hcode herr, herr⟩, fun hnil => absurd hnil hne,
      fun _ _ => ⟨rfl, hroot, hcount, hq, htake, hdrop, hkey, hleaves⟩⟩

/-- Settles O28: each MERGE is a pass that the BUILD no longer has to make. -/
theorem mergesBeforeBuildChangeNothing : Obligations.MergesBeforeBuildChangeNothing := by
  intro leaves j hlen hj
  obtain ⟨rs, s, hrun, -, hs⟩ := runCommands_leaves leaves hlen
  obtain ⟨t, hbuild⟩ := exec_answers hs.inv .build
  obtain ⟨r, hr⟩ := exists_rsp_of_exec hbuild
  obtain ⟨rs', hrun'⟩ := runCommands_merges_build hs.inv (j := j) (fun _ => hs.queued.symm ▸ hj) hbuild
  refine ⟨rs ++ [r], rs ++ rs', t, runCommands_append hrun (runCommands_singleton hbuild hr), ?_⟩
  rw [List.append_assoc]
  exact runCommands_append hrun hrun'

end Sys2Proof.Proofs
end

section
/-! SUPPORT. The statements that rest on spec/41_decoder_fsm.md: the two commands of the decoder case by case (R130 to R135), a
decode element by element and path by path (R138), and the bound on a walk (R139). -/

namespace Sys2Proof.Proofs

open Sys2Proof.Machine Sys2Proof.Safety Sys2Proof.Laws

/-! ### DBIT and DEND, case by case (R130 to R133) -/

/-- The layout of DBIT when a symbol is emitted: the symbol in 15:8, `E` in 0. -/
theorem emitData_toNat (sym : Symbol) : (emitData sym).toNat = sym.toNat * 2 ^ 8 + 1 := by
  simp only [emitData, toNat_append_eq_add, BitVec.toNat_ofNat]
  omega

theorem streamBit_bitElem (b : Bool) : streamBit (bitElem b) = some b := by
  cases b <;> decide

theorem exists_bitElem_of_lt_two {v : StreamElem} (h : v.toNat < 2) : ∃ b, v = bitElem b := by
  obtain hv | hv : v.toNat = (bitElem false).toNat ∨ v.toNat = (bitElem true).toNat := by
    simp only [bitElem, Bool.false_eq_true, if_false, if_true, BitVec.toNat_ofNat]
    omega
  · exact ⟨false, BitVec.eq_of_toNat_eq hv⟩
  · exact ⟨true, BitVec.eq_of_toNat_eq hv⟩

section
variable {s : State} {b : Bool} {f g : Freq} {l r l' r' : NodeIdx} {sym : Symbol}

theorem execDbit_bitElem {root : Node} (herr : s.err = 0#4) (htv : s.tv = true) (hroot : nodeAt s.nodes s.root = some root) :
    execDbit (bitElem b) s = walkBit s root b := by
  have hread : s.nodeRead s.root = some root := hroot
  rw [execDbit, faultGate_of_err_zero _ herr, htv, streamBit_bitElem, hread]
  rfl

theorem execDbit_of_leaf_root (herr : s.err = 0#4) (htv : s.tv = true) (hroot : nodeAt s.nodes s.root = some (.leaf sym f)) :
    execDbit (bitElem b) s = respondOk s (emitData sym) :=
  execDbit_bitElem herr htv hroot

/-- On a tree that is not degenerate, DBIT arrives at a child of the node the decoder stands at. -/
theorem execDbit_of_internal_root (herr : s.err = 0#4) (htv : s.tv = true)
    (hroot : nodeAt s.nodes s.root = some (.internal f l r)) (hcur : nodeAt s.nodes s.cur = some (.internal g l' r')) :
    execDbit (bitElem b) s = arriveAt s ((Node.internal g l' r').child b) := by
  have hread : s.nodeRead s.cur = some (.internal g l' r') := hcur
  rw [execDbit_bitElem herr htv hroot, walkBit, hread]

theorem arriveAt_leaf {c : NodeIdx} (hc : nodeAt s.nodes c = some (.leaf sym f)) :
    arriveAt s c = respondOk (s.withCur s.root) (emitData sym) := by
  have hread : s.nodeRead c = some (.leaf sym f) := hc
  rw [arriveAt, hread]

theorem arriveAt_internal {c : NodeIdx} (hc : nodeAt s.nodes c = some (.internal f l r)) :
    arriveAt s c = respondOk (s.withCur c) 0#64 := by
  have hread : s.nodeRead c = some (.internal f l r) := hc
  rw [arriveAt, hread]

end

theorem execDend_of_idle {s : State} (herr : s.err = 0#4) (h : s.tv = false ∨ s.cur = s.root) :
    execDend s = respondOk s 0#64 := by
  have hidle : (s.tv && !s.atRoot) = false := by
    rcases h with htv | hcur
    · simp [htv]
    · simp [State.atRoot, hcur]
  rw [execDend, faultGate_of_err_zero _ herr, hidle]
  rfl

theorem execDend_of_truncated {s : State} (herr : s.err = 0#4) (htv : s.tv = true) (hcur : s.cur ≠ s.root) :
    execDend s = .next (raised s 3#4) := by
  have hbusy : (s.tv && !s.atRoot) = true := by simp [State.atRoot, htv, hcur]
  rw [execDend, faultGate_of_err_zero _ herr, hbusy]
  exact raiseError_eq_raised .truncatedStream herr

/-- A DBIT that changes ERR raised an error, and an error moves nothing. -/
theorem execDbit_cur_of_err_ne {s t : State} {v : StreamElem} (h : execDbit v s = .next t) (hne : t.err ≠ s.err) :
    t.cur = s.cur := by
  rcases execDbit_eq_next h with ⟨-, rfl⟩ | ⟨-, -, rfl⟩ | ⟨-, -, -, rfl⟩ |
    ⟨-, b, -, ⟨sym, f, -, -, rfl⟩ | ⟨f, l, r, n, -, -, ⟨sym, g, -, -, rfl⟩ | ⟨g, l', r', -, -, rfl⟩⟩⟩
  · rfl
  · rfl
  · rfl
  · rfl
  · exact absurd rfl hne
  · exact absurd rfl hne

/-! ### DBIT and DEND do not read the response port -/

theorem faultGate_withRsp (s : State) (r : Option RspWord) {q q' : Result} (h : q = q') :
    faultGate (s.withRsp r) q = faultGate s q' := by
  rw [h]
  rfl

theorem walkBit_withRsp (s : State) (r : Option RspWord) (root : Node) (b : Bool) :
    walkBit (s.withRsp r) root b = walkBit s root b := rfl

theorem execDbit_withRsp (v : StreamElem) (s : State) (r : Option RspWord) : execDbit v (s.withRsp r) = execDbit v s := by
  refine faultGate_withRsp s r ?_
  simp only [raiseError_withRsp, walkBit_withRsp]
  rfl

theorem execDend_withRsp (s : State) (r : Option RspWord) : execDend (s.withRsp r) = execDend s := by
  refine faultGate_withRsp s r ?_
  rw [raiseError_withRsp]
  rfl

/-! ### A decode, element by element (R138, R221) -/

theorem rspCode_rspWord (c : Code) (d : Data) : rspCode (rspWord c d) = c := BitVec.extractLsb'_append_eq_left

theorem rspData_rspWord (c : Code) (d : Data) : rspData (rspWord c d) = d := BitVec.extractLsb'_append_eq_right

theorem emittedSymbol_emitData (c : Code) (sym : Symbol) : emittedSymbol (rspWord c (emitData sym)) = some sym := by
  have hsym : (emitData sym).extractLsb' 8 8 = sym := by
    refine BitVec.eq_of_toNat_eq ?_
    have := sym.isLt
    rw [BitVec.extractLsb'_toNat, emitData_toNat, Nat.shiftRight_eq_div_pow]
    omega
  have hbit : (emitData sym).getLsbD 0 = true := by
    rw [emitData, BitVec.getLsbD_append]
    rfl
  rw [emittedSymbol, rspData_rspWord, hbit, hsym]
  rfl

/-- A decode that first emits these symbols and then has this result. -/
def emitting (out : List Symbol) : DecodeResult → DecodeResult
  | .ok out' => .ok (out ++ out')
  | .fail c => .fail c

@[simp] theorem emitting_nil : emitting [] = id := by
  funext d
  cases d <;> rfl

theorem emitting_comp (out out' : List Symbol) : emitting out ∘ emitting out' = emitting (out ++ out') := by
  funext d
  cases d with
  | ok out'' => simp [emitting]
  | fail c => rfl

/-- The result of a decode whose first response is `r`, from the result of the others. -/
def afterResponse (r : RspWord) (d : DecodeResult) : DecodeResult :=
  if rspCode r = 0#4 then emitting (emittedSymbol r).toList d else .fail (rspCode r)

theorem result_cons (r : RspWord) (rs : List RspWord) (dend : RspWord) :
    DecodeSegment.result ⟨r :: rs, dend⟩ = afterResponse r (DecodeSegment.result ⟨rs, dend⟩) := by
  by_cases hok : rspCode r = 0#4
  · have hfirst : firstError (r :: (rs ++ [dend])) = firstError (rs ++ [dend]) := by simp [firstError, hok]
    simp only [DecodeSegment.result, List.cons_append, hfirst, afterResponse, if_pos hok]
    cases firstError (rs ++ [dend]) with
    | some c => rfl
    | none => cases hr : emittedSymbol r <;> simp [emitting, hr]
  · have hfirst : firstError (r :: (rs ++ [dend])) = some (rspCode r) := by simp [firstError, hok]
    simp only [DecodeSegment.result, List.cons_append, hfirst, afterResponse, if_neg hok]

theorem runCommands_cons_eq_map {i : Instr} {s t : State} {r : RspWord} (is : List Instr) (h : exec i s = .next t)
    (hr : t.rsp = some r) : runCommands (i :: is) s = (runCommands is t).map fun x => (r :: x.1, x.2) := by
  cases hrun : runCommands is t with
  | some x => exact runCommands_cons h hr hrun
  | none =>
    have hfront : frontEnd (encode i) s = .next t := (frontEnd_of_decode_eq_ok s (decode_encode i)).trans h
    have hrest : run (is.map encode) t = none := hrun
    simp [runCommands, run, hfront, hr, hrest]

/-- What the host sends for a stream (R167). -/
def decodeCommands (bs : List StreamElem) : List Instr := bs.map .dbit ++ [.dend]

/-- A decode ends with the response to its DEND. -/
theorem runCommands_decode_ne_nil {bs : List StreamElem} {s u : State} {rs : List RspWord}
    (h : runCommands (decodeCommands bs) s = some (rs, u)) : rs ≠ [] := by
  obtain ⟨i, is, hi⟩ := List.exists_cons_of_ne_nil (show decodeCommands bs ≠ [] by simp [decodeCommands])
  rw [hi] at h
  obtain ⟨t, r, rs', -, -, -, rfl⟩ := run_cons_eq_some h
  exact List.cons_ne_nil r rs'

theorem decodeStream_eq_bind (s : State) (bs : List StreamElem) :
    decodeStream s bs = (runCommands (decodeCommands bs) s).bind fun x =>
      x.1.getLast?.map fun dend => DecodeSegment.result { dbits := x.1.dropLast, dend := dend } := by
  rw [decodeStream, decodeCommands]
  cases runCommands (bs.map .dbit ++ [.dend]) s <;> rfl

theorem decodeStream_withRsp (s : State) (r : Option RspWord) (bs : List StreamElem) :
    decodeStream (s.withRsp r) bs = decodeStream s bs := by
  have hfirst : ∀ i is, exec i (s.withRsp r) = exec i s → runCommands (i :: is) (s.withRsp r) = runCommands (i :: is) s := by
    intro i is h
    simp only [runCommands, List.map_cons, run, frontEnd_of_decode_eq_ok _ (decode_encode i), h]
  rw [decodeStream_eq_bind, decodeStream_eq_bind]
  congr 1
  cases bs with
  | nil => exact hfirst .dend [] (execDend_withRsp s r)
  | cons v bs => exact hfirst (.dbit v) _ (execDbit_withRsp v s r)

theorem decodeStream_nil {s t : State} {c : Code} {d : Data} (h : execDend s = respond t c d) :
    decodeStream s [] = some (if c = 0#4 then .ok [] else .fail c) := by
  have hrun : runCommands (decodeCommands []) s = some ([rspWord c d], t.withRsp (some (rspWord c d))) :=
    runCommands_singleton (i := .dend) h rfl
  rw [decodeStream_eq_bind, hrun]
  by_cases hc : c = 0#4 <;> simp [DecodeSegment.result, firstError, rspCode_rspWord, hc]

theorem decodeStream_cons {s t : State} {v : StreamElem} {c : Code} {d : Data} (bs : List StreamElem)
    (h : execDbit v s = respond t c d) :
    decodeStream s (v :: bs) = (decodeStream t bs).map (afterResponse (rspWord c d)) := by
  have hrun : runCommands (decodeCommands (v :: bs)) s = _ := runCommands_cons_eq_map (i := .dbit v) (decodeCommands bs) h rfl
  rw [← decodeStream_withRsp t (some (rspWord c d)), decodeStream_eq_bind, decodeStream_eq_bind, hrun]
  cases hrest : runCommands (decodeCommands bs) (t.withRsp (some (rspWord c d))) with
  | none => rfl
  | some x =>
    obtain ⟨rs, dend, hrs⟩ : ∃ rs dend, x.1 = rs ++ [dend] :=
      (List.eq_nil_or_concat' x.1).resolve_left (runCommands_decode_ne_nil hrest)
    have hcons : rspWord c d :: (rs ++ [dend]) = (rspWord c d :: rs) ++ [dend] := rfl
    simp only [Option.map_some, Option.bind_some, hrs, hcons, List.getLast?_concat, List.dropLast_concat,
      result_cons]

theorem decodeStream_cons_silent {s t : State} {v : StreamElem} (bs : List StreamElem) (h : execDbit v s = respondOk t 0#64) :
    decodeStream s (v :: bs) = decodeStream t bs := by
  have hsilent : afterResponse (rspWord 0#4 0#64) = id := emitting_nil
  rw [decodeStream_cons bs h, hsilent, Option.map_id_fun, id]

theorem decodeStream_cons_emit {s t : State} {v : StreamElem} {sym : Symbol} (bs : List StreamElem)
    (h : execDbit v s = respondOk t (emitData sym)) :
    decodeStream s (v :: bs) = (decodeStream t bs).map (emitting [sym]) := by
  have hemit : afterResponse (rspWord 0#4 (emitData sym)) = emitting [sym] := by
    funext d
    rw [afterResponse, rspCode_rspWord, if_pos rfl, emittedSymbol_emitData]
    rfl
  rw [decodeStream_cons bs h, hemit]

/-! ### A decode that fails (R138, R190, R192) -/

theorem next_raised_eq_respond (s : State) (c : Code) : .next (raised s c) = respond (s.withErr c) c 0#64 := by
  rw [respond, rspWord_zero_eq_errRsp]
  rfl

/-- A block that is faulted already answers the whole stream with its code. -/
theorem decodeStream_of_faulted {s : State} (hf : s.err ≠ 0#4) (bs : List StreamElem) :
    decodeStream s bs = some (.fail s.err) := by
  induction bs with
  | nil => rw [decodeStream_nil (faultGate_of_faulted _ hf), if_neg hf]
  | cons v bs ih =>
    rw [decodeStream_cons bs (faultGate_of_faulted _ hf), ih, Option.map_some, afterResponse, rspCode_rspWord, if_neg hf]

theorem decodeStream_cons_raised {s : State} {v : StreamElem} {c : Code} (bs : List StreamElem) (hc : c ≠ 0#4)
    (h : execDbit v s = .next (raised s c)) : decodeStream s (v :: bs) = some (.fail c) := by
  rw [next_raised_eq_respond] at h
  rw [decodeStream_cons bs h, decodeStream_of_faulted (s := s.withErr c) hc, Option.map_some, afterResponse, rspCode_rspWord,
    if_neg hc]

theorem decodeStream_nil_of_idle {s : State} (herr : s.err = 0#4) (h : s.tv = false ∨ s.cur = s.root) :
    decodeStream s [] = some (.ok []) :=
  decodeStream_nil (execDend_of_idle herr h)

theorem decodeStream_nil_of_truncated {s : State} (herr : s.err = 0#4) (htv : s.tv = true) (hcur : s.cur ≠ s.root) :
    decodeStream s [] = some (.fail 3#4) :=
  decodeStream_nil ((execDend_of_truncated herr htv hcur).trans (next_raised_eq_respond s 3#4))

/-! ### Paths of a tree (R34, R138) -/

theorem walkPath_cons {ns : NodeStore} {n l r : NodeIdx} {f : Freq} (b : Bool) (p : List Bool)
    (hn : nodeAt ns n = some (.internal f l r)) :
    walkPath ns n (b :: p) = walkPath ns ((Node.internal f l r).child b) p := by
  rw [walkPath, hn]
  rfl

theorem walkPath_append (ns : NodeStore) (n : NodeIdx) (p q : List Bool) :
    walkPath ns n (p ++ q) = (walkPath ns n p).bind fun c => walkPath ns c q := by
  induction p generalizing n with
  | nil => rfl
  | cons b p ih =>
    simp only [List.cons_append, walkPath]
    split
    · exact ih _
    · rfl

/-- Only an internal node is walked on from. -/
theorem exists_internal_of_walkPath_cons {ns : NodeStore} {n c : NodeIdx} {b : Bool} {p : List Bool}
    (h : walkPath ns n (b :: p) = some c) : ∃ f l r, nodeAt ns n = some (.internal f l r) := by
  rw [walkPath] at h
  split at h
  · next f l r hn => exact ⟨f, l, r, hn⟩
  · cases h

theorem child_lt {ns : NodeStore} {n l r : NodeIdx} {f : Freq} (h : StoreInv ns) (b : Bool)
    (hn : nodeAt ns n = some (.internal f l r)) : ((Node.internal f l r).child b).toNat < n.toNat := by
  obtain ⟨hl, hr⟩ := children_lt_parent h hn
  cases b <;> assumption

theorem walkPath_le {ns : NodeStore} {n c : NodeIdx} {p : List Bool} (h : StoreInv ns) (hp : walkPath ns n p = some c) :
    c.toNat ≤ n.toNat := by
  induction p generalizing n with
  | nil =>
    obtain rfl : n = c := Option.some.inj hp
    exact le_rfl
  | cons b p ih =>
    obtain ⟨f, l, r, hn⟩ := exists_internal_of_walkPath_cons hp
    exact (ih (walkPath_cons b p hn ▸ hp)).trans (child_lt h b hn).le

/-- A walk of one bit or more does not come back. -/
theorem walkPath_ne_start {ns : NodeStore} {n c : NodeIdx} {p : List Bool} (h : StoreInv ns) (hne : p ≠ [])
    (hp : walkPath ns n p = some c) : c ≠ n := by
  obtain ⟨b, p, rfl⟩ := List.exists_cons_of_ne_nil hne
  obtain ⟨f, l, r, hn⟩ := exists_internal_of_walkPath_cons hp
  have hle := walkPath_le h (walkPath_cons b p hn ▸ hp)
  have hlt := child_lt h b hn
  rintro rfl
  omega

theorem exists_nodeAt_child {ns : NodeStore} {n l r : NodeIdx} {f : Freq} (h : StoreInv ns) (b : Bool)
    (hn : nodeAt ns n = some (.internal f l r)) : ∃ m, nodeAt ns ((Node.internal f l r).child b) = some m :=
  exists_nodeAt ((child_lt h b hn).trans (nodeAt_eq_some_lt hn))

theorem root_lt {s : State} (h : Inv s) (htv : s.tv = true) : s.root.toNat < s.nodes.length :=
  h.queueAllocated _ (by simp [(h.frozen htv).1])

/-- With a tree, its root is allocated. -/
theorem exists_root {s : State} (h : Inv s) (htv : s.tv = true) : ∃ n, nodeAt s.nodes s.root = some n :=
  exists_nodeAt (root_lt h htv)

theorem exists_forall₂_of_forall_exists {α β : Type} {R : α → β → Prop} {xs : List α} (h : ∀ x ∈ xs, ∃ y, R x y) :
    ∃ ys, List.Forall₂ R xs ys := by
  induction xs with
  | nil => exact ⟨[], .nil⟩
  | cons x xs ih =>
    obtain ⟨⟨y, hy⟩, hrest⟩ := List.forall_mem_cons.mp h
    obtain ⟨ys, hys⟩ := ih hrest
    exact ⟨y :: ys, .cons hy hys⟩

/-- Any bits are root-to-leaf paths followed by a path to an internal node, which the bits used up have left the decoder at. -/
theorem exists_paths {ns : NodeStore} {root l r : NodeIdx} {f : Freq} (h : StoreInv ns)
    (hroot : nodeAt ns root = some (.internal f l r)) (bits : List Bool) :
    ∃ paths out p n g l' r', bits = paths.flatten ++ p ∧ List.Forall₂ (LeadsToLeaf ns root) paths out ∧
      walkPath ns root p = some n ∧ nodeAt ns n = some (.internal g l' r') := by
  induction bits using List.reverseRecOn with
  | nil => exact ⟨[], [], [], root, f, l, r, rfl, .nil, rfl, hroot⟩
  | append_singleton bits b ih =>
    obtain ⟨paths, out, p, n, g, l', r', rfl, hpaths, hp, hn⟩ := ih
    have hstep := walkPath_append_child b hp hn
    obtain ⟨m, hm⟩ := exists_nodeAt_child h b hn
    cases m with
    | leaf sym k =>
      have hleaf : LeadsToLeaf ns root (p ++ [b]) sym := ⟨_, k, hstep, hm⟩
      exact ⟨paths ++ [p ++ [b]], out ++ [sym], [], root, f, l, r, by simp,
        List.rel_append hpaths (.cons hleaf .nil), rfl, hroot⟩
    | internal k l'' r'' =>
      exact ⟨paths, out, p ++ [b], _, k, l'', r'', by rw [List.append_assoc], hpaths, hstep, hm⟩

/-! ### A decode, path by path (R130, R138) -/

section
variable {s : State} {f : Freq} {l r : NodeIdx}

/-- A path to an internal node takes the decoder there, and nothing is emitted. -/
theorem decodeStream_path_internal {p : List Bool} {n l' r' : NodeIdx} {g : Freq} (herr : s.err = 0#4) (htv : s.tv = true)
    (hroot : nodeAt s.nodes s.root = some (.internal f l r)) (hp : walkPath s.nodes s.cur p = some n)
    (hn : nodeAt s.nodes n = some (.internal g l' r')) (bs : List StreamElem) :
    decodeStream s (p.map bitElem ++ bs) = decodeStream (s.withCur n) bs := by
  induction p generalizing s with
  | nil =>
    obtain rfl : s.cur = n := Option.some.inj hp
    rfl
  | cons b p ih =>
    obtain ⟨k, lc, rc, hcur⟩ := exists_internal_of_walkPath_cons hp
    rw [walkPath_cons b p hcur] at hp
    obtain ⟨k', lc', rc', hchild⟩ : ∃ k' lc' rc', nodeAt s.nodes ((Node.internal k lc rc).child b) =
        some (.internal k' lc' rc') := by
      cases p with
      | nil =>
        obtain rfl := Option.some.inj hp
        exact ⟨g, l', r', hn⟩
      | cons => exact exists_internal_of_walkPath_cons hp
    have hstep := (execDbit_of_internal_root (b := b) herr htv hroot hcur).trans (arriveAt_internal hchild)
    rw [List.map_cons, List.cons_append, decodeStream_cons_silent _ hstep]
    exact ih (s := s.withCur _) herr htv hroot hp hn

/-- A path to a leaf emits its symbol and takes the decoder back to the root. -/
theorem decodeStream_path_leaf {p : List Bool} {sym : Symbol} (herr : s.err = 0#4) (htv : s.tv = true)
    (hroot : nodeAt s.nodes s.root = some (.internal f l r)) (hne : p ≠ []) (hp : LeadsToLeaf s.nodes s.cur p sym)
    (bs : List StreamElem) :
    decodeStream s (p.map bitElem ++ bs) = (decodeStream (s.withCur s.root) bs).map (emitting [sym]) := by
  obtain ⟨c, k, hwalk, hleaf⟩ := hp
  obtain ⟨p, b, rfl⟩ := (List.eq_nil_or_concat' p).resolve_left hne
  obtain ⟨n, hn, hlast⟩ := Option.bind_eq_some_iff.mp ((walkPath_append _ _ p [b]).symm.trans hwalk)
  obtain ⟨g, l', r', hparent⟩ := exists_internal_of_walkPath_cons hlast
  obtain rfl : (Node.internal g l' r').child b = c := Option.some.inj ((walkPath_cons b [] hparent).symm.trans hlast)
  have hstep := (execDbit_of_internal_root (s := s.withCur n) (b := b) herr htv hroot hparent).trans (arriveAt_leaf hleaf)
  rw [List.map_append, List.append_assoc, decodeStream_path_internal herr htv hroot hn hparent]
  exact decodeStream_cons_emit bs hstep

theorem ne_nil_of_leadsToLeaf {p : List Bool} {sym : Symbol} (hroot : nodeAt s.nodes s.root = some (.internal f l r))
    (hp : LeadsToLeaf s.nodes s.root p sym) : p ≠ [] := by
  rintro rfl
  obtain ⟨c, k, hwalk, hleaf⟩ := hp
  obtain rfl := Option.some.inj hwalk
  rw [hroot] at hleaf
  cases hleaf

theorem withCur_of_eq {n : NodeIdx} (h : s.cur = n) : s.withCur n = s := by
  subst h
  rfl

/-- Root-to-leaf paths emit their symbols, and the decoder is at the root again. -/
theorem decodeStream_paths {paths : List (List Bool)} {out : List Symbol} (herr : s.err = 0#4) (htv : s.tv = true)
    (hcur : s.cur = s.root) (hroot : nodeAt s.nodes s.root = some (.internal f l r))
    (hpaths : List.Forall₂ (LeadsToLeaf s.nodes s.root) paths out) (bs : List StreamElem) :
    decodeStream s (paths.flatten.map bitElem ++ bs) = (decodeStream s bs).map (emitting out) := by
  induction hpaths with
  | nil => simp
  | @cons p sym paths out hp _ ih =>
    have hhead := decodeStream_path_leaf herr htv hroot (ne_nil_of_leadsToLeaf hroot hp) (hcur ▸ hp)
      (paths.flatten.map bitElem ++ bs)
    rw [List.flatten_cons, List.map_append, List.append_assoc, hhead, withCur_of_eq hcur, ih, Option.map_map, emitting_comp]
    rfl

/-- The same, followed by a path to an internal node. -/
theorem decodeStream_paths_path {paths : List (List Bool)} {out : List Symbol} {p : List Bool} {n l' r' : NodeIdx} {g : Freq}
    (herr : s.err = 0#4) (htv : s.tv = true) (hcur : s.cur = s.root)
    (hroot : nodeAt s.nodes s.root = some (.internal f l r)) (hpaths : List.Forall₂ (LeadsToLeaf s.nodes s.root) paths out)
    (hp : walkPath s.nodes s.root p = some n) (hn : nodeAt s.nodes n = some (.internal g l' r')) (bs : List StreamElem) :
    decodeStream s ((paths.flatten ++ p).map bitElem ++ bs) = (decodeStream (s.withCur n) bs).map (emitting out) := by
  rw [List.map_append, List.append_assoc, decodeStream_paths herr htv hcur hroot hpaths,
    decodeStream_path_internal herr htv hroot (hcur ▸ hp) hn]

/-- A stream of root-to-leaf paths decodes to their symbols. -/
theorem decodeStream_of_paths {paths : List (List Bool)} {out : List Symbol} (herr : s.err = 0#4) (htv : s.tv = true)
    (hcur : s.cur = s.root) (hroot : nodeAt s.nodes s.root = some (.internal f l r))
    (hpaths : List.Forall₂ (LeadsToLeaf s.nodes s.root) paths out) :
    decodeStream s (paths.flatten.map bitElem) = some (.ok out) := by
  have hdec := decodeStream_paths herr htv hcur hroot hpaths []
  rwa [List.append_nil, decodeStream_nil_of_idle herr (.inr hcur), Option.map_some, emitting, List.append_nil] at hdec

/-- A stream that ends below the root at an internal node is truncated. -/
theorem decodeStream_of_truncated {paths : List (List Bool)} {out : List Symbol} {p : List Bool} {n l' r' : NodeIdx} {g : Freq}
    (hstore : StoreInv s.nodes) (herr : s.err = 0#4) (htv : s.tv = true) (hcur : s.cur = s.root)
    (hpaths : List.Forall₂ (LeadsToLeaf s.nodes s.root) paths out) (hne : p ≠ [])
    (hp : walkPath s.nodes s.root p = some n) (hn : nodeAt s.nodes n = some (.internal g l' r')) :
    decodeStream s ((paths.flatten ++ p).map bitElem) = some (.fail 3#4) := by
  obtain ⟨b, q, rfl⟩ := List.exists_cons_of_ne_nil hne
  obtain ⟨f, l, r, hroot⟩ := exists_internal_of_walkPath_cons hp
  have hdec := decodeStream_paths_path herr htv hcur hroot hpaths hp hn []
  have hend := decodeStream_nil_of_truncated (s := s.withCur n) herr htv (walkPath_ne_start hstore hne hp)
  rwa [List.append_nil, hend] at hdec

end

/-- On a degenerate tree every bit emits the root's symbol (R132). -/
theorem decodeStream_of_leaf_root {s : State} {sym : Symbol} {f : Freq} (herr : s.err = 0#4) (htv : s.tv = true)
    (hroot : nodeAt s.nodes s.root = some (.leaf sym f)) (bits : List Bool) (bs : List StreamElem) :
    decodeStream s (bits.map bitElem ++ bs) = (decodeStream s bs).map (emitting (List.replicate bits.length sym)) := by
  induction bits with
  | nil => simp
  | cons b bits ih =>
    rw [List.map_cons, List.cons_append, decodeStream_cons_emit _ (execDbit_of_leaf_root herr htv hroot), ih, Option.map_map,
      emitting_comp]
    rfl

/-- Whatever the tree, bits emit some symbols and leave the decoder somewhere, from where the rest of the stream is decoded. -/
theorem exists_decodeStream_bits {s : State} (h : Inv s) (herr : s.err = 0#4) (htv : s.tv = true) (hcur : s.cur = s.root)
    (bits : List Bool) : ∃ out n, ∀ bs,
      decodeStream s (bits.map bitElem ++ bs) = (decodeStream (s.withCur n) bs).map (emitting out) := by
  obtain ⟨root, hroot⟩ := exists_root h htv
  cases root with
  | leaf sym f =>
    refine ⟨List.replicate bits.length sym, s.root, fun bs => ?_⟩
    rw [withCur_of_eq hcur]
    exact decodeStream_of_leaf_root herr htv hroot bits bs
  | internal f l r =>
    obtain ⟨paths, out, p, n, g, l', r', rfl, hpaths, hp, hn⟩ := exists_paths h.store hroot bits
    exact ⟨out, n, decodeStream_paths_path herr htv hcur hroot hpaths hp hn⟩

/-- DEND after bits: the symbols, or the stream is truncated. -/
theorem decodeStream_bits_cases {s : State} (h : Inv s) (herr : s.err = 0#4) (htv : s.tv = true) (hcur : s.cur = s.root)
    (bits : List Bool) : (∃ out, decodeStream s (bits.map bitElem) = some (.ok out)) ∨
      decodeStream s (bits.map bitElem) = some (.fail 3#4) := by
  obtain ⟨out, n, hdec⟩ := exists_decodeStream_bits h herr htv hcur bits
  have hend := hdec []
  rw [List.append_nil] at hend
  by_cases hn : n = s.root
  · rw [decodeStream_nil_of_idle (s := s.withCur n) herr (.inr hn)] at hend
    exact .inl ⟨_, hend⟩
  · rw [decodeStream_nil_of_truncated (s := s.withCur n) herr htv hn] at hend
    exact .inr hend

theorem decodeStream_bits_invalid {s : State} {v : StreamElem} (h : Inv s) (herr : s.err = 0#4) (htv : s.tv = true)
    (hcur : s.cur = s.root) (hv : 2 ≤ v.toNat) (bits : List Bool) (others : List StreamElem) :
    decodeStream s (bits.map bitElem ++ v :: others) = some (.fail 4#4) := by
  obtain ⟨out, n, hdec⟩ := exists_decodeStream_bits h herr htv hcur bits
  have hstep := execDbit_of_invalid (s := s.withCur n) herr htv ((streamBit_eq_none_iff v).mpr hv)
  rw [hdec, decodeStream_cons_raised others (by decide) hstep]
  rfl

/-! ### The length of a path (R34, R35, R139) -/

theorem leavesUnder_ne_nil {ns : NodeStore} {fuel : Nat} {n : NodeIdx} (h : StoreInv ns) (hn : n.toNat < ns.length)
    (hfuel : n.toNat < fuel) : leavesUnder ns fuel n ≠ [] := by
  induction fuel generalizing n with
  | zero => omega
  | succ fuel ih =>
    obtain ⟨m, hm⟩ := exists_nodeAt hn
    rw [leavesUnder, hm]
    cases m with
    | leaf sym f => simp
    | internal f l r =>
      obtain ⟨hl, -⟩ := children_lt_parent h hm
      exact List.append_ne_nil_of_left_ne_nil (ih (by omega) (by omega)) _

/-- Each node of a walk has leaves beside those the walk goes on to. -/
theorem walkPath_length_lt_leavesUnder {ns : NodeStore} {fuel : Nat} {n c : NodeIdx} {p : List Bool} (h : StoreInv ns)
    (hn : n.toNat < ns.length) (hfuel : n.toNat < fuel) (hp : walkPath ns n p = some c) :
    p.length < (leavesUnder ns fuel n).length := by
  induction p generalizing n fuel with
  | nil => exact List.length_pos_iff.mpr (leavesUnder_ne_nil h hn hfuel)
  | cons b p ih =>
    obtain ⟨fuel, rfl⟩ : ∃ k, fuel = k + 1 := ⟨fuel - 1, by omega⟩
    obtain ⟨f, l, r, hint⟩ := exists_internal_of_walkPath_cons hp
    obtain ⟨hl, hr⟩ := children_lt_parent h hint
    have hleft := List.length_pos_iff.mpr (leavesUnder_ne_nil h (n := l) (fuel := fuel) (by omega) (by omega))
    have hright := List.length_pos_iff.mpr (leavesUnder_ne_nil h (n := r) (fuel := fuel) (by omega) (by omega))
    rw [walkPath_cons b p hint] at hp
    have hsplit : leavesUnder ns (fuel + 1) n = leavesUnder ns fuel l ++ leavesUnder ns fuel r := by rw [leavesUnder, hint]
    rw [hsplit, List.length_append, List.length_cons]
    cases b with
    | false =>
      have := ih (n := l) (fuel := fuel) (by omega) (by omega) hp
      omega
    | true =>
      have := ih (n := r) (fuel := fuel) (by omega) (by omega) hp
      omega

/-- A walk goes to smaller and smaller indices, and each of its nodes has two child links. -/
theorem walkPath_length_le_childLinks {ns : NodeStore} {n c : NodeIdx} {p : List Bool} (h : StoreInv ns)
    (hp : walkPath ns n p = some c) : 2 * p.length ≤ (childLinks (ns.take (n.toNat + 1))).length := by
  induction p generalizing n with
  | nil => exact Nat.zero_le _
  | cons b p ih =>
    obtain ⟨f, l, r, hint⟩ := exists_internal_of_walkPath_cons hp
    have hchild := ih (walkPath_cons b p hint ▸ hp)
    have hbelow := ((List.take_prefix_take_left (l := ns) (child_lt h b hint)).sublist.flatMap children).length_le
    have hn : ns[n.toNat]? = some (.internal f l r) := hint
    rw [List.take_add_one, hn, Option.toList_some, childLinks_append, List.length_append, children, List.length_cons]
    exact Nat.add_le_add_right (hchild.trans hbelow) 2

/-- No two child links name one node, and none names the root (R35, R36). -/
theorem childLinks_length_lt {s : State} (h : Inv s) (htv : s.tv = true) : (childLinks s.nodes).length < s.nodes.length := by
  have hnodup : (s.root :: childLinks s.nodes).Nodup := by simpa [(h.frozen htv).1] using h.ownedOnce
  have hlt : ∀ c ∈ s.root :: childLinks s.nodes, c.toNat < s.nodes.length :=
    List.forall_mem_cons.mpr ⟨root_lt h htv, childLinks_lt h.store⟩
  have hsub : (s.root :: childLinks s.nodes).map BitVec.toNat ⊆ List.range s.nodes.length := by
    intro i hi
    obtain ⟨c, hc, rfl⟩ := List.mem_map.mp hi
    exact List.mem_range.mpr (hlt c hc)
  have hle := (List.subperm_of_subset (hnodup.map fun _ _ => BitVec.eq_of_toNat_eq) hsub).length_le
  rwa [List.length_map, List.length_range] at hle

theorem walkPath_length_le_255 {s : State} {n c : NodeIdx} {p : List Bool} (h : Inv s) (htv : s.tv = true)
    (hp : walkPath s.nodes n p = some c) : p.length ≤ 255 := by
  have hpath := walkPath_length_le_childLinks h.store hp
  have hlinks := ((List.take_sublist (n.toNat + 1) s.nodes).flatMap children).length_le
  have hfree := childLinks_length_lt h htv
  have hbound := (memory_wf_iff s.nodes).mp h.store.bound
  simp only [childLinks] at hpath hfree
  omega

/-! ### The obligations -/

/-- Settles O29: with an internal root DBIT arrives at the child of `CUR` that the bit selects. -/
theorem dbitWalksTheTree : Obligations.DbitWalksTheTree := by
  intro s b f g l r l' r' herr htv hroot hcur
  have hstep := execDbit_of_internal_root (b := b) herr htv hroot hcur
  refine ⟨fun h l'' r'' hchild => ?_, fun sym h hchild => ?_⟩
  · exact (hstep.trans (arriveAt_internal hchild)).trans (respondOk_eq_okRsp _ _)
  · refine (hstep.trans (arriveAt_leaf hchild)).trans ?_
    rw [respondOk_eq_okRsp, emitData_toNat]
    rfl

/-- Settles O30: with a leaf as root the walk has nowhere to go, and DEND finds the decoder at the root. -/
theorem degenerateTreeEmitsOnEveryBit : Obligations.DegenerateTreeEmitsOnEveryBit := by
  refine ⟨by decide, fun s sym f herr htv hcur hroot => ⟨fun v hv => ?_, fun v hv => ?_, ?_⟩⟩
  · obtain ⟨b, rfl⟩ := exists_bitElem_of_lt_two hv
    refine (execDbit_of_leaf_root herr htv hroot).trans ?_
    rw [respondOk_eq_okRsp, emitData_toNat]
    rfl
  · exact execDbit_of_invalid herr htv ((streamBit_eq_none_iff v).mpr hv)
  · exact (execDend_of_idle herr (.inr hcur)).trans (respondOk_eq_okRsp _ _)

/-- Settles O31: the tree is examined before the element, and an error moves nothing. -/
theorem dbitErrorConditions : Obligations.DbitErrorConditions := by
  refine ⟨fun s v herr => ⟨execDbit_of_no_tree v herr, fun htv hv => ?_⟩, fun s t v h hne => execDbit_cur_of_err_ne h hne,
    by decide, by decide⟩
  exact execDbit_of_invalid herr htv ((streamBit_eq_none_iff v).mpr hv)

/-- Settles O32: DEND goes by whether the decoder is below the root of a tree. -/
theorem dendChecksTheRoot : Obligations.DendChecksTheRoot := by
  intro s herr
  exact ⟨fun h => (execDend_of_idle herr h).trans (respondOk_eq_okRsp _ _), execDend_of_truncated herr⟩

/-- Settles O33: the decode follows the bits to where they end or to the first element that is no bit. -/
theorem decodeFailsAsR138Says : Obligations.DecodeFailsAsR138Says := by
  constructor
  · intro s h herr htv hcur
    refine ⟨decodeStream_nil_of_idle herr (.inr hcur), fun good v others hv => ?_,
      fun paths p n f l r hpaths hne hp hn => ?_, decodeStream_bits_cases h herr htv hcur⟩
    · exact decodeStream_bits_invalid h herr htv hcur hv good others
    · obtain ⟨out, hout⟩ := exists_forall₂_of_forall_exists hpaths
      exact decodeStream_of_truncated h.store herr htv hcur hout hne hp hn
  · intro s herr htv
    refine ⟨decodeStream_nil_of_idle herr (.inl htv), fun v others => ?_⟩
    exact decodeStream_cons_raised others (by decide) (execDbit_of_no_tree v herr htv)

/-- Settles O34: bits are paths and a rest; with a rest the decode is truncated, without one it gives the symbols. -/
theorem decodeReadsRootToLeafPaths : Obligations.DecodeReadsRootToLeafPaths := by
  intro s h herr htv hcur
  refine ⟨fun f l r hroot bits out => ⟨fun hdec => ?_, ?_⟩, fun sym f hroot bits out => ?_⟩
  · obtain ⟨paths, out', p, n, g, l', r', rfl, hpaths, hp, hn⟩ := exists_paths h.store hroot bits
    rcases eq_or_ne p [] with rfl | hne
    · rw [List.append_nil, decodeStream_of_paths herr htv hcur hroot hpaths] at hdec
      obtain rfl : out' = out := by simpa using hdec
      exact ⟨paths, (List.append_nil _).symm, hpaths⟩
    · rw [decodeStream_of_truncated h.store herr htv hcur hpaths hne hp hn] at hdec
      cases hdec
  · rintro ⟨paths, rfl, hpaths⟩
    exact decodeStream_of_paths herr htv hcur hroot hpaths
  · have hdec := decodeStream_of_leaf_root herr htv hroot bits []
    rw [List.append_nil, decodeStream_nil_of_idle herr (.inr hcur), Option.map_some, emitting, List.append_nil] at hdec
    simp [hdec, eq_comm]

/-- Settles O35: the leaves beside the path bound it by their number, and the child links by the store. -/
theorem walkIsBounded : Obligations.WalkIsBounded := by
  intro s h htv p sym hleaf
  have ⟨c, freq, hp, _⟩ := hleaf
  refine ⟨walkPath_length_lt_leavesUnder h.store (root_lt h htv) (Nat.lt_succ_self _) hp, walkPath_length_le_255 h htv hp, ?_⟩
  intro f l r hroot
  exact List.length_pos_iff.mpr (ne_nil_of_leadsToLeaf hroot hleaf)

end Sys2Proof.Proofs
end

section
/-! SUPPORT. The statements that rest on spec/42_system_commands.md: CLR (R150), NODE (R152), and the code table read back with
NODE commands (R160, R163, R164). -/

namespace Sys2Proof.Proofs

open Sys2Proof.Machine Sys2Proof.Safety Sys2Proof.Laws

/-! ### The response of NODE (R79, R152) -/

/-- The layout of NODE: `freq` in 63:32, `right` in 29:21, `left` in 20:12, `sym` in 11:4, `K` in 1, `A` in 0. -/
theorem nodeData_toNat (n : Node) : (nodeData n).toNat =
    n.freq.toNat * 2 ^ 32 + n.right.toNat * 2 ^ 21 + n.left.toNat * 2 ^ 12 + n.sym.toNat * 2 ^ 4 + n.k.toNat * 2 + 1 := by
  simp only [nodeData, toNat_append_eq_add, BitVec.toNat_ofNat]
  omega

theorem nodeData_leaf_toNat (sym : Symbol) (f : Freq) :
    (nodeData (.leaf sym f)).toNat = f.toNat * 2 ^ 32 + sym.toNat * 2 ^ 4 + 1 := by
  simp [nodeData_toNat, Node.k, Node.sym, Node.freq, Node.left, Node.right]

theorem nodeData_internal_toNat (f : Freq) (l r : NodeIdx) :
    (nodeData (.internal f l r)).toNat = f.toNat * 2 ^ 32 + r.toNat * 2 ^ 21 + l.toNat * 2 ^ 12 + 3 := by
  simp [nodeData_toNat, Node.k, Node.sym, Node.freq, Node.left, Node.right]

/-! Each field is reached by dropping the fields below it. -/
section
variable (n : Node)

theorem nodeData_bit_allocated : (nodeData n).getLsbD 0 = true := by
  rw [nodeData, BitVec.getLsbD_append]
  rfl

theorem nodeData_bit_kind : (nodeData n).getLsbD 1 = n.k.getLsbD 0 := by
  rw [nodeData, BitVec.getLsbD_append, BitVec.getLsbD_append]
  rfl

theorem nodeData_field_sym : (nodeData n).extractLsb' 4 8 = n.sym := by
  rw [nodeData]
  iterate 3 rw [BitVec.extractLsb'_append_eq_of_le (by decide)]
  exact BitVec.extractLsb'_append_eq_right

theorem nodeData_field_left : (nodeData n).extractLsb' 12 9 = n.left := by
  rw [nodeData]
  iterate 4 rw [BitVec.extractLsb'_append_eq_of_le (by decide)]
  exact BitVec.extractLsb'_append_eq_right

theorem nodeData_field_right : (nodeData n).extractLsb' 21 9 = n.right := by
  rw [nodeData]
  iterate 5 rw [BitVec.extractLsb'_append_eq_of_le (by decide)]
  exact BitVec.extractLsb'_append_eq_right

theorem nodeData_field_freq : (nodeData n).extractLsb' 32 32 = n.freq := by
  rw [nodeData]
  iterate 6 rw [BitVec.extractLsb'_append_eq_of_le (by decide)]
  exact BitVec.extractLsb'_append_eq_left

/-- The host's reading of a response that shows a node gives the node. -/
theorem parseNode_nodeData : parseNode (nodeData n) = some n := by
  rw [parseNode, if_pos (nodeData_bit_allocated n), nodeData_bit_kind, nodeData_field_freq, nodeData_field_left,
    nodeData_field_right, nodeData_field_sym]
  cases n with
  | leaf sym f => exact if_neg (show ¬ (0#1).getLsbD 0 = true by decide)
  | internal f l r => exact if_pos (show (1#1).getLsbD 0 = true by decide)

end

theorem parseNode_zero : parseNode 0#64 = none := rfl

section
variable {s : State} {idx : NodeIdx}

theorem execNode_of_nodeAt {n : Node} (herr : s.err = 0#4) (hn : nodeAt s.nodes idx = some n) :
    execNode idx s = respondOk s (nodeData n) := by
  have hread : s.nodeRead idx = some n := hn
  rw [execNode, faultGate_of_err_zero _ herr, hread]

theorem execNode_of_unallocated (herr : s.err = 0#4) (hn : nodeAt s.nodes idx = none) :
    execNode idx s = respondOk s 0#64 := by
  have hread : s.nodeRead idx = none := hn
  rw [execNode, faultGate_of_err_zero _ herr, hread]

theorem readNode_of_nodeAt {n : Node} (herr : s.err = 0#4) (hn : nodeAt s.nodes idx = some n) :
    readNode idx s = some (n, s.withRsp (some (rspWord 0#4 (nodeData n)))) := by
  have hrun := runCommands_singleton (i := .node idx) (execNode_of_nodeAt herr hn) rfl
  simp [readNode, hrun, rspCode_rspWord, rspData_rspWord, parseNode_nodeData]

/-- What the host reads of any response to NODE is what the store holds there. -/
theorem parseNode_of_execNode {t : State} {r : RspWord} (herr : s.err = 0#4) (h : execNode idx s = .next t)
    (hr : t.rsp = some r) : parseNode (rspData r) = nodeAt s.nodes idx := by
  rcases execNode_eq_next h with ⟨hf, -⟩ | ⟨n, hn, -, rfl⟩ | ⟨hn, -, rfl⟩
  · exact absurd herr hf
  · obtain rfl := Option.some.inj hr
    rw [rspData_rspWord, parseNode_nodeData, hn]
  · obtain rfl := Option.some.inj hr
    rw [rspData_rspWord, parseNode_zero, hn]

end

/-! ### The code table of the store (R163, R164) -/

/-- The codes under a node go on from the path to it. -/
theorem prefix_of_mem_codesFrom {ns : NodeStore} {fuel : Nat} {n : NodeIdx} {p : List Bool} {x : Symbol × List Bool}
    (hx : x ∈ codesFrom ns fuel n p) : p <+: x.2 := by
  induction fuel generalizing n p with
  | zero => simp [codesFrom] at hx
  | succ fuel ih =>
    rw [codesFrom] at hx
    split at hx
    · simp at hx
    · obtain rfl := List.mem_singleton.mp hx
      exact List.prefix_refl p
    · rcases List.mem_append.mp hx with hx | hx
      · exact (List.prefix_append p _).trans (ih hx)
      · exact (List.prefix_append p _).trans (ih hx)

theorem singleSymbolCode_of_ne_nil {table : List (Symbol × List Bool)} (h : ∀ x ∈ table, x.2 ≠ []) :
    singleSymbolCode table = table := by
  unfold singleSymbolCode
  split
  · exact absurd rfl (h _ List.mem_cons_self)
  · rfl

theorem codeTable_of_no_tree {s : State} (htv : s.tv = false) : codeTable s = [] := by
  rw [codeTable, htv]
  rfl

/-- With a tree the table is that of the walk from the root: below an internal root no code is empty. -/
theorem codeTable_of_tree {s : State} {n : Node} (htv : s.tv = true) (hroot : nodeAt s.nodes s.root = some n) :
    codeTable s = singleSymbolCode (codesFrom s.nodes (s.root.toNat + 1) s.root []) := by
  have hread : s.nodeRead s.root = some n := hroot
  rw [codeTable, htv, hread]
  cases n with
  | leaf sym f =>
    rw [codesFrom, hroot]
    rfl
  | internal f l r =>
    refine (singleSymbolCode_of_ne_nil fun x hx => ?_).symm
    rw [codesFrom, hroot] at hx
    rcases List.mem_append.mp hx with hx | hx
    · exact (prefix_of_mem_codesFrom hx).ne_nil (List.cons_ne_nil _ _)
    · exact (prefix_of_mem_codesFrom hx).ne_nil (List.cons_ne_nil _ _)

/-! ### The code table read back (R160, R163) -/

/-- With fuel for every level (R34), the walk by NODE commands finds the codes of the walk over the store, and changes
nothing but the response. -/
theorem readCodes_eq_codesFrom {s : State} (hstore : StoreInv s.nodes) (herr : s.err = 0#4) {fuel : Nat} {n : NodeIdx}
    (p : List Bool) (r₀ : Option RspWord) (hn : n.toNat < s.nodes.length) (hfuel : n.toNat < fuel) :
    ∃ r, readCodes fuel n p (s.withRsp r₀) = some (codesFrom s.nodes fuel n p, s.withRsp r) := by
  induction fuel generalizing n p r₀ with
  | zero => omega
  | succ fuel ih =>
    obtain ⟨m, hm⟩ := exists_nodeAt hn
    have hread : readNode n (s.withRsp r₀) = some (m, s.withRsp (some (rspWord 0#4 (nodeData m)))) :=
      readNode_of_nodeAt (s := s.withRsp r₀) herr hm
    cases m with
    | leaf sym f =>
      refine ⟨some (rspWord 0#4 (nodeData (.leaf sym f))), ?_⟩
      simp only [readCodes, hread, codesFrom, hm]
    | internal f l r =>
      obtain ⟨hl, hr⟩ := children_lt_parent hstore hm
      obtain ⟨r₁, hleft⟩ :=
        ih (p ++ [false]) (some (rspWord 0#4 (nodeData (.internal f l r)))) (hl.trans hn) (by omega)
      obtain ⟨r₂, hright⟩ := ih (p ++ [true]) r₁ (hr.trans hn) (by omega)
      refine ⟨r₂, ?_⟩
      simp only [readCodes, hread, hleft, hright, codesFrom, hm, Option.map_some]

theorem builtRoot_buildData (c : Code) (f : Freq) (n : NodeIdx) : builtRoot (rspWord c (buildData f n)) = some n := by
  have hroot : (buildData f n).extractLsb' 0 9 = n := BitVec.extractLsb'_append_eq_right
  have htv : (buildData f n).getLsbD 16 = true := by
    rw [buildData]
    iterate 3 rw [BitVec.getLsbD_append]
    rfl
  rw [builtRoot, rspData_rspWord, htv, hroot]
  rfl

theorem builtRoot_zero (c : Code) : builtRoot (rspWord c 0#64) = none := by
  rw [builtRoot, rspData_rspWord]
  rfl

/-- A BUILD that answers OK tells the host whether there is a tree, and its root (R108, R110). -/
theorem execBuild_tells_root {s t : State} (h : execBuild s = .next t) (hok : t.err = 0#4) :
    ∃ r, t.rsp = some r ∧ rspCode r = 0#4 ∧ builtRoot r = if t.tv then some t.root else none := by
  rcases execBuild_eq_next h with ⟨hf, rfl⟩ | ⟨-, hr⟩ |
    ⟨htv, -, k, u, hp, ⟨-, -, rfl⟩ | ⟨n, rec, -, -, -, rfl⟩ | ⟨e, -, -, hr⟩⟩
  · exact absurd hok hf
  · exact absurd hok (raised_err_ne_zero hr)
  · refine ⟨_, rfl, rspCode_rspWord _ _, ?_⟩
    rw [builtRoot_zero, withRsp_tv, passes_tv hp, htv]
    rfl
  · exact ⟨_, rfl, rspCode_rspWord _ _, builtRoot_buildData _ _ _⟩
  · exact absurd hok (raised_err_ne_zero hr)

/-- The host's code generator has the code table of the block when it is told where the tree is. -/
theorem readCodeTable_eq_codeTable {s : State} {build : RspWord} (h : Inv s) (herr : s.err = 0#4)
    (hcode : rspCode build = 0#4) (hroot : builtRoot build = if s.tv then some s.root else none) :
    ∃ r, readCodeTable build s = some (codeTable s, s.withRsp r) := by
  cases htv : s.tv with
  | false =>
    refine ⟨s.rsp, ?_⟩
    rw [readCodeTable, if_pos hcode, hroot, htv, codeTable_of_no_tree htv]
    rfl
  | true =>
    obtain ⟨n, hn⟩ := exists_root h htv
    obtain ⟨r, hread⟩ : ∃ r, readCodes (s.root.toNat + 1) s.root [] s = some (_, s.withRsp r) :=
      readCodes_eq_codesFrom h.store herr [] s.rsp (root_lt h htv) (Nat.lt_succ_self _)
    refine ⟨r, ?_⟩
    rw [readCodeTable, if_pos hcode, hroot, htv, if_pos rfl, codeTable_of_tree htv hn]
    simp only [hread, Option.map_some]

/-! ### The obligations -/

/-- Settles O38: the two kinds of record fill the layout of NODE, and an index without a record is answered with 0. -/
theorem nodeShowsTheRecord : Obligations.NodeShowsTheRecord := by
  intro s idx herr
  refine ⟨fun sym f hn => ?_, fun f l r hn => ?_, fun hlen => ?_⟩
  · refine (execNode_of_nodeAt herr hn).trans ?_
    rw [respondOk_eq_okRsp, nodeData_leaf_toNat]
    rfl
  · refine (execNode_of_nodeAt herr hn).trans ?_
    rw [respondOk_eq_okRsp, nodeData_internal_toNat]
    rfl
  · exact (execNode_of_unallocated herr (List.getElem?_eq_none hlen)).trans (respondOk_eq_okRsp s 0#64)

/-- Settles O39: each NODE gives the host the node, so its walk from the root BUILD answers is the walk over the store. -/
theorem nodeResponseShowsTheNode : Obligations.NodeResponseShowsTheNode := by
  refine ⟨fun s t idx r herr h hr => parseNode_of_execNode herr h hr, fun s t hinv h hok => ?_⟩
  obtain ⟨r, hr, hcode, hroot⟩ := execBuild_tells_root h hok
  obtain ⟨r', hread⟩ := readCodeTable_eq_codeTable (exec_keeps_inv hinv h) hok hcode hroot
  exact ⟨r, t.withRsp r', hr, hread, rfl⟩

/-- Settles O36: CLR answers from the cleared block, whose state elements are those of reset. -/
theorem clrDiscardsEverything : Obligations.ClrDiscardsEverything := fun s =>
  respondOk_eq_okRsp s.clearBlock 0#64

end Sys2Proof.Proofs
end

section
/-! SUPPORT. The statements that rest on spec/43_host_collaborators.md: the frequency table (R161, R177), the code table as the
leaves with their paths (R163, R164, R170), the encoder (R165) and the round trip (R169). -/

namespace Sys2Proof.Proofs

open Sys2Proof.Machine Sys2Proof.Safety Sys2Proof.Laws

/-! ### Tables of symbols -/

theorem mem_of_lookup_eq_some {α : Type} {t : List (Symbol × α)} {sym : Symbol} {v : α} (h : t.lookup sym = some v) :
    (sym, v) ∈ t := by
  obtain ⟨before, after, rfl, -⟩ := List.lookup_eq_some_iff.mp h
  simp

theorem exists_lookup_of_mem {α : Type} {t : List (Symbol × α)} {sym : Symbol} (h : sym ∈ t.map Prod.fst) :
    ∃ v, t.lookup sym = some v := by
  obtain ⟨x, hx, rfl⟩ := List.mem_map.mp h
  exact Option.isSome_iff_exists.mp (List.lookup_isSome_iff.mpr ⟨x, hx, beq_self_eq_true _⟩)

/-- A table with one pair for each symbol in it has at most as many pairs as there are symbols. -/
theorem length_le_of_nodup_symbols {α : Type} {t : List (Symbol × α)} (h : (t.map Prod.fst).Nodup) : t.length ≤ 256 := by
  have hle := (h.map BitVec.toFin_injective).length_le_card
  simpa using hle

/-! ### The frequency counter (R161) -/

theorem tableCount_nil (x : Symbol) : tableCount [] x = 0 := rfl

theorem tableCount_cons (p : Symbol × Nat) (t : List (Symbol × Nat)) (x : Symbol) :
    tableCount (p :: t) x = if x = p.1 then p.2 else tableCount t x := by
  obtain ⟨sym, n⟩ := p
  by_cases hx : x = sym
  · simp [tableCount, hx]
  · simp [tableCount, List.lookup_cons, beq_false_of_ne hx, hx]

theorem tableCount_eq_zero {t : List (Symbol × Nat)} {x : Symbol} (h : x ∉ t.map Prod.fst) : tableCount t x = 0 := by
  induction t with
  | nil => rfl
  | cons p t ih =>
    rw [List.map_cons, List.mem_cons, not_or] at h
    rw [tableCount_cons, if_neg h.1, ih h.2]

theorem tableCount_addCount (t : List (Symbol × Nat)) (sym : Symbol) (n : Nat) (x : Symbol) :
    tableCount (addCount t sym n) x = tableCount t x + if x = sym then n else 0 := by
  induction t with
  | nil => simp [addCount, tableCount_cons, tableCount_nil]
  | cons p t ih =>
    rw [addCount]
    split
    · next hp =>
      subst hp
      simp only [tableCount_cons]
      split <;> rfl
    · next hp =>
      simp only [tableCount_cons, ih]
      split
      · next hx => simp [hx, hp]
      · rfl

theorem sum_addCount (t : List (Symbol × Nat)) (sym : Symbol) (n : Nat) :
    ((addCount t sym n).map Prod.snd).sum = (t.map Prod.snd).sum + n := by
  induction t with
  | nil => simp [addCount]
  | cons p t ih =>
    rw [addCount]
    split
    · simp only [List.map_cons, List.sum_cons]
      omega
    · simp only [List.map_cons, List.sum_cons, ih]
      omega

theorem mem_symbols_addCount (t : List (Symbol × Nat)) (sym : Symbol) (n : Nat) (x : Symbol) :
    x ∈ (addCount t sym n).map Prod.fst ↔ x ∈ t.map Prod.fst ∨ x = sym := by
  induction t with
  | nil => simp [addCount]
  | cons p t ih =>
    rw [addCount]
    split
    · next hp => simp only [List.map_cons, List.mem_cons, ← hp]; tauto
    · simp only [List.map_cons, List.mem_cons, ih, or_assoc]

theorem nodup_symbols_addCount {t : List (Symbol × Nat)} (h : (t.map Prod.fst).Nodup) (sym : Symbol) (n : Nat) :
    ((addCount t sym n).map Prod.fst).Nodup := by
  induction t with
  | nil => simp [addCount]
  | cons p t ih =>
    obtain ⟨hnotMem, hrest⟩ := List.nodup_cons.mp h
    rw [addCount]
    split
    · exact h
    · next hp =>
      refine List.nodup_cons.mpr ⟨fun hmem => ?_, ih hrest⟩
      exact ((mem_symbols_addCount t sym n p.1).mp hmem).elim hnotMem hp

theorem pos_of_mem_addCount {t : List (Symbol × Nat)} (h : ∀ x ∈ t, 0 < x.2) (sym : Symbol) {n : Nat} (hn : 0 < n) :
    ∀ x ∈ addCount t sym n, 0 < x.2 := by
  induction t with
  | nil => simpa [addCount] using hn
  | cons p t ih =>
    obtain ⟨hp, hrest⟩ := List.forall_mem_cons.mp h
    rw [addCount]
    split
    · exact List.forall_mem_cons.mpr ⟨Nat.add_pos_left hp n, hrest⟩
    · exact List.forall_mem_cons.mpr ⟨hp, ih hrest⟩

/-- The table counts the symbols of the message (R161). -/
structure Counts (msg : List Symbol) (t : List (Symbol × Nat)) : Prop where
  count : ∀ sym, tableCount t sym = msg.count sym
  total : (t.map Prod.snd).sum = msg.length
  pos : ∀ x ∈ t, 0 < x.2
  nodup : (t.map Prod.fst).Nodup
  symbols : ∀ sym, sym ∈ t.map Prod.fst ↔ sym ∈ msg

/-- One position more of the message is counted by one more for its symbol. -/
theorem counts_addCount {msg : List Symbol} {t : List (Symbol × Nat)} (h : Counts msg t) (sym : Symbol) :
    Counts (msg ++ [sym]) (addCount t sym 1) where
  count x := by
    rw [tableCount_addCount, h.count, List.count_append, List.count_singleton']
    simp only [eq_comm]
  total := by rw [sum_addCount, h.total, List.length_append, List.length_singleton]
  pos := pos_of_mem_addCount h.pos sym Nat.one_pos
  nodup := nodup_symbols_addCount h.nodup sym 1
  symbols x := by rw [mem_symbols_addCount, h.symbols, List.mem_append, List.mem_singleton]

theorem counts_freqTable (msg : List Symbol) : Counts msg (freqTable msg) := by
  induction msg using List.reverseRecOn with
  | nil => exact ⟨fun _ => rfl, rfl, by simp [freqTable], by simp [freqTable], by simp [freqTable]⟩
  | append_singleton msg sym ih =>
    rw [freqTable, List.foldl_append]
    exact counts_addCount ih sym

theorem tableCount_perm {t t' : List (Symbol × Nat)} (hperm : t'.Perm t) (h : (t'.map Prod.fst).Nodup) (x : Symbol) :
    tableCount t' x = tableCount t x := by
  induction hperm with
  | nil => rfl
  | cons p _ ih => rw [tableCount_cons, tableCount_cons, ih (List.nodup_cons.mp h).2]
  | swap p q t =>
    have hpq : q.1 ≠ p.1 := fun heq => (List.nodup_cons.mp h).1 (heq ▸ List.mem_cons_self)
    simp only [tableCount_cons]
    rcases eq_or_ne x p.1 with rfl | hx
    · rw [if_neg hpq.symm, if_pos rfl, if_pos rfl]
    · rw [if_neg hx, if_neg hx]
  | trans hperm _ ih ih' => exact (ih h).trans (ih' ((hperm.map Prod.fst).nodup_iff.mp h))

/-- The order of the pairs does not matter (R161). -/
theorem counts_perm {msg : List Symbol} {t t' : List (Symbol × Nat)} (hperm : t'.Perm t) (h : Counts msg t) :
    Counts msg t' where
  count sym := by
    rw [tableCount_perm hperm ((hperm.map Prod.fst).nodup_iff.mpr h.nodup), h.count]
  total := (hperm.map Prod.snd).sum_eq.trans h.total
  pos x hx := h.pos x (hperm.mem_iff.mp hx)
  nodup := (hperm.map Prod.fst).nodup_iff.mpr h.nodup
  symbols sym := (hperm.map Prod.fst).mem_iff.trans (h.symbols sym)

/-- A message of one distinct symbol has one pair in its table. -/
theorem length_le_one_of_counts {msg : List Symbol} {t : List (Symbol × Nat)} (h : Counts msg t)
    (hone : ∀ x ∈ msg, ∀ y ∈ msg, x = y) : t.length ≤ 1 := by
  cases t with
  | nil => exact Nat.zero_le _
  | cons p t =>
    have hsub : (p :: t).map Prod.fst ⊆ [p.1] := fun x hx =>
      List.mem_singleton.mpr (hone x ((h.symbols x).mp hx) p.1 ((h.symbols p.1).mp List.mem_cons_self))
    simpa using (List.subperm_of_subset h.nodup hsub).length_le

/-- Merging sums the counts of each symbol (R177). -/
theorem tableCount_mergeTables {b : List (Symbol × Nat)} (hb : (b.map Prod.fst).Nodup) (a : List (Symbol × Nat))
    (x : Symbol) : tableCount (mergeTables a b) x = tableCount a x + tableCount b x := by
  induction b generalizing a with
  | nil => rfl
  | cons p b ih =>
    obtain ⟨hnotMem, hrest⟩ := List.nodup_cons.mp hb
    have habsent : x = p.1 → tableCount b x = 0 := fun hx => tableCount_eq_zero (hx ▸ hnotMem)
    have hmerge : tableCount (mergeTables a (p :: b)) x = tableCount (addCount a p.1 p.2) x + tableCount b x := ih hrest _
    rw [hmerge, tableCount_addCount, tableCount_cons]
    by_cases hx : x = p.1
    · rw [if_pos hx, if_pos hx, habsent hx, Nat.add_zero]
    · rw [if_neg hx, if_neg hx, Nat.add_zero]

/-! ### The code table (R163, R164, R170) -/

theorem leadsToLeaf_of_leaf_iff {ns : NodeStore} {n : NodeIdx} {sym sym' : Symbol} {f : Freq} {p : List Bool}
    (hn : nodeAt ns n = some (.leaf sym f)) : LeadsToLeaf ns n p sym' ↔ p = [] ∧ sym' = sym := by
  cases p with
  | nil => simp [LeadsToLeaf, walkPath, hn, eq_comm]
  | cons b p => simp [LeadsToLeaf, walkPath, hn]

theorem not_leadsToLeaf_of_unallocated {ns : NodeStore} {n : NodeIdx} {sym : Symbol} {p : List Bool}
    (hn : nodeAt ns n = none) : ¬ LeadsToLeaf ns n p sym := by
  cases p <;> simp [LeadsToLeaf, walkPath, hn]

theorem leadsToLeaf_of_internal_iff {ns : NodeStore} {n l r : NodeIdx} {f : Freq} {p : List Bool} {sym : Symbol}
    (hn : nodeAt ns n = some (.internal f l r)) : LeadsToLeaf ns n p sym ↔
      (∃ q, p = false :: q ∧ LeadsToLeaf ns l q sym) ∨ ∃ q, p = true :: q ∧ LeadsToLeaf ns r q sym := by
  cases p with
  | nil => simp [LeadsToLeaf, walkPath, hn]
  | cons b p =>
    rw [leadsToLeaf_cons_iff hn]
    cases b <;> simp [Node.child, Node.left, Node.right]

/-- With fuel for every level (R34), the codes under a node are its leaves with the paths to them. -/
theorem mem_codesFrom_iff {ns : NodeStore} (h : StoreInv ns) {fuel : Nat} {n : NodeIdx} {p : List Bool}
    {sym : Symbol} {code : List Bool} (hfuel : n.toNat < fuel) :
    (sym, code) ∈ codesFrom ns fuel n p ↔ ∃ q, code = p ++ q ∧ LeadsToLeaf ns n q sym := by
  induction fuel generalizing n p with
  | zero => omega
  | succ fuel ih =>
    rw [codesFrom]
    split
    · next hn => simp [not_leadsToLeaf_of_unallocated hn]
    · next sym' f hn => simp [leadsToLeaf_of_leaf_iff hn, and_comm]
    · next f l r hn =>
      obtain ⟨hl, hr⟩ := children_lt_parent h hn
      rw [List.mem_append, ih (n := l) (by omega), ih (n := r) (by omega)]
      simp only [leadsToLeaf_of_internal_iff hn, List.append_assoc, List.singleton_append]
      constructor
      · rintro (⟨q, rfl, hq⟩ | ⟨q, rfl, hq⟩)
        · exact ⟨_, rfl, .inl ⟨q, rfl, hq⟩⟩
        · exact ⟨_, rfl, .inr ⟨q, rfl, hq⟩⟩
      · rintro ⟨-, rfl, ⟨q, rfl, hq⟩ | ⟨q, rfl, hq⟩⟩
        · exact .inl ⟨q, rfl, hq⟩
        · exact .inr ⟨q, rfl, hq⟩

/-- Neither code begins the other (R170). -/
def PrefixFree (c d : List Bool) : Prop := ¬ c <+: d ∧ ¬ d <+: c

/-- What goes on from a path by 0 and what goes on from it by 1 part there. -/
theorem prefixFree_of_branches {p c d : List Bool} (hc : p ++ [false] <+: c) (hd : p ++ [true] <+: d) :
    PrefixFree c d := by
  have hpart : ∀ e, p ++ [false] <+: e → ¬ p ++ [true] <+: e := by
    intro e hf ht
    have := List.prefix_of_prefix_length_le hf ht (by simp)
    simp [List.prefix_append_right_inj] at this
  exact ⟨fun h => hpart d (hc.trans h) hd, fun h => hpart c hc (hd.trans h)⟩

theorem codesFrom_prefixFree (ns : NodeStore) (fuel : Nat) (n : NodeIdx) (p : List Bool) :
    (codesFrom ns fuel n p).Pairwise fun x y => PrefixFree x.2 y.2 := by
  induction fuel generalizing n p with
  | zero => exact .nil
  | succ fuel ih =>
    rw [codesFrom]
    split
    · exact .nil
    · exact List.pairwise_singleton _ _
    · refine List.pairwise_append.mpr ⟨ih _ _, ih _ _, fun x hx y hy => ?_⟩
      exact prefixFree_of_branches (prefix_of_mem_codesFrom hx) (prefix_of_mem_codesFrom hy)

theorem codeTable_of_leaf_root {s : State} {sym : Symbol} {f : Freq} (htv : s.tv = true)
    (hroot : nodeAt s.nodes s.root = some (.leaf sym f)) : codeTable s = [(sym, [false])] := by
  rw [codeTable_of_tree htv hroot, codesFrom, hroot]
  rfl

theorem codeTable_of_internal_root {s : State} {f : Freq} {l r : NodeIdx} (htv : s.tv = true)
    (hroot : nodeAt s.nodes s.root = some (.internal f l r)) :
    codeTable s = codesFrom s.nodes (s.root.toNat + 1) s.root [] := by
  have hread : s.nodeRead s.root = some (.internal f l r) := hroot
  rw [codeTable, htv, hread]
  rfl

theorem mem_codeTable_iff {s : State} (h : Inv s) (htv : s.tv = true) {f : Freq} {l r : NodeIdx}
    (hroot : nodeAt s.nodes s.root = some (.internal f l r)) (sym : Symbol) (p : List Bool) :
    (sym, p) ∈ codeTable s ↔ LeadsToLeaf s.nodes s.root p sym := by
  rw [codeTable_of_internal_root htv hroot, mem_codesFrom_iff h.store (Nat.lt_succ_self _)]
  simp

theorem codeTable_prefixFree {s : State} (h : Inv s) (htv : s.tv = true) :
    (codeTable s).Pairwise fun x y => PrefixFree x.2 y.2 := by
  obtain ⟨root, hroot⟩ := exists_root h htv
  cases root with
  | leaf sym f =>
    rw [codeTable_of_leaf_root htv hroot]
    exact List.pairwise_singleton _ _
  | internal f l r =>
    rw [codeTable_of_internal_root htv hroot]
    exact codesFrom_prefixFree _ _ _ _

/-- The codes under a node are for the symbols of the leaves under it, in the same order. -/
theorem codesFrom_symbols (ns : NodeStore) (fuel : Nat) (n : NodeIdx) (p : List Bool) :
    (codesFrom ns fuel n p).map Prod.fst = (leavesUnder ns fuel n).map Prod.fst := by
  induction fuel generalizing n p with
  | zero => rfl
  | succ fuel ih =>
    rw [codesFrom, leavesUnder]
    cases nodeAt ns n with
    | none => rfl
    | some m =>
      cases m with
      | leaf sym f => rfl
      | internal f l r => simp only [List.map_append, ih]

/-- With a tree, the code table is for the symbols of its leaves. -/
theorem codeTable_symbols {s : State} (h : Inv s) (htv : s.tv = true) :
    (codeTable s).map Prod.fst = (leavesOf s.nodes s.root).map Prod.fst := by
  obtain ⟨root, hroot⟩ := exists_root h htv
  cases root with
  | leaf sym f =>
    rw [codeTable_of_leaf_root htv hroot, leavesOf, leavesUnder, hroot]
    rfl
  | internal f l r =>
    rw [codeTable_of_internal_root htv hroot]
    exact codesFrom_symbols _ _ _ _

/-- A tree with one leaf has it as its root, since each child of an internal root has a leaf under it. -/
theorem exists_leaf_root_of_one_leaf {s : State} (h : Inv s) (htv : s.tv = true)
    (hone : (leavesOf s.nodes s.root).length ≤ 1) : ∃ sym f, nodeAt s.nodes s.root = some (.leaf sym f) := by
  obtain ⟨root, hroot⟩ := exists_root h htv
  cases root with
  | leaf sym f => exact ⟨sym, f, hroot⟩
  | internal f l r =>
    have hlt := root_lt h htv
    obtain ⟨hl, hr⟩ := children_lt_parent h.store hroot
    have hleft := List.length_pos_iff.mpr (leavesUnder_ne_nil h.store (hl.trans hlt) hl)
    have hright := List.length_pos_iff.mpr (leavesUnder_ne_nil h.store (hr.trans hlt) hr)
    rw [leavesOf, leavesUnder, hroot, List.length_append] at hone
    omega

/-! ### The encoder (R165, R166) -/

/-- The encoder gives the codes found for the symbols, one after the other. -/
theorem encodeMsg_eq_ok_iff {table : List (Symbol × List Bool)} {msg : List Symbol} {bits : List Bool} :
    encodeMsg table msg = .ok bits ↔
      ∃ codes : List (List Bool), codes.flatten = bits ∧ List.Forall₂ (fun c sym => table.lookup sym = some c) codes msg := by
  induction msg generalizing bits with
  | nil => simp [encodeMsg]
  | cons sym msg ih =>
    rw [encodeMsg]
    constructor
    · intro h
      split at h
      · next code rest hcode hrest =>
        obtain ⟨codes, rfl, hcodes⟩ := ih.mp hrest
        exact ⟨code :: codes, Except.ok.inj h, .cons hcode hcodes⟩
      · cases h
      · cases h
    · rintro ⟨_, rfl, hcodes⟩
      cases hcodes with
      | cons hcode hcodes => rw [hcode, ih.mpr ⟨_, rfl, hcodes⟩]; rfl

/-- The encoder fails on no message whose symbols all have a code. -/
theorem exists_encodeMsg {table : List (Symbol × List Bool)} {msg : List Symbol}
    (h : ∀ sym ∈ msg, sym ∈ table.map Prod.fst) : ∃ bits, encodeMsg table msg = .ok bits := by
  obtain ⟨codes, hcodes⟩ := exists_forall₂_of_forall_exists fun sym hsym => exists_lookup_of_mem (h sym hsym)
  exact ⟨codes.flatten, encodeMsg_eq_ok_iff.mpr ⟨codes, rfl, hcodes.flip⟩⟩

/-- With the table of a one-leaf tree (R164) only copies of its symbol encode, each as one bit "0". -/
theorem eq_replicate_of_encodeMsg_single {only : Symbol} {msg : List Symbol} {bits : List Bool}
    (h : encodeMsg [(only, [false])] msg = .ok bits) :
    msg = List.replicate bits.length only ∧ bits = List.replicate msg.length false := by
  obtain ⟨codes, rfl, hcodes⟩ := encodeMsg_eq_ok_iff.mp h
  clear h
  induction hcodes with
  | nil => exact ⟨rfl, rfl⟩
  | @cons code sym codes msg hcode _ ih =>
    obtain ⟨rfl, rfl⟩ : sym = only ∧ code = [false] := by simpa using mem_of_lookup_eq_some hcode
    obtain ⟨hmsg, hbits⟩ := ih
    exact ⟨congrArg (sym :: ·) hmsg, congrArg (false :: ·) hbits⟩

/-- What the encoder makes with the table of the block decodes to the message (R169). -/
theorem decodeStream_of_encodeMsg {s : State} (h : Inv s) (herr : s.err = 0#4) (htv : s.tv = true) (hcur : s.cur = s.root)
    {msg : List Symbol} {bits : List Bool} (henc : encodeMsg (codeTable s) msg = .ok bits) :
    decodeStream s (bits.map bitElem) = some (.ok msg) := by
  obtain ⟨hinternal, hleaf⟩ := decodeReadsRootToLeafPaths s h herr htv hcur
  obtain ⟨root, hroot⟩ := exists_root h htv
  cases root with
  | leaf sym f =>
    rw [codeTable_of_leaf_root htv hroot] at henc
    exact (hleaf sym f hroot bits msg).mpr (eq_replicate_of_encodeMsg_single henc).1
  | internal f l r =>
    obtain ⟨codes, hbits, hcodes⟩ := encodeMsg_eq_ok_iff.mp henc
    refine (hinternal f l r hroot bits msg).mpr ⟨codes, hbits, hcodes.imp fun code sym hcode => ?_⟩
    exact (mem_codeTable_iff h htv hroot sym code).mp (mem_of_lookup_eq_some hcode)

/-! ### From a message to its tree (R162, R169) -/

/-- The leaf that the host loads for a pair of its table (R162). -/
def hostLeaf (x : Symbol × Nat) : Symbol × Freq := (x.1, leafFreq x.2)

theorem leafCommands_eq_map (table : List (Symbol × Nat)) :
    leafCommands table = (table.map hostLeaf).map leafInstr := by
  rw [List.map_map]
  rfl

theorem leafFreq_toNat {n : Nat} (h : n ≤ 4294967295) : (leafFreq n).toNat = n := by
  have hfits : n ≤ Config.freqMax := h
  rw [leafFreq, if_pos hfits, BitVec.toNat_ofNat, Nat.mod_eq_of_lt (by omega)]

/-- Counts that fit together are loaded exactly. -/
theorem freqSum_hostLeaf {table : List (Symbol × Nat)} (h : (table.map Prod.snd).sum ≤ 4294967295) :
    freqSum (table.map hostLeaf) = (table.map Prod.snd).sum := by
  rw [freqSum, List.map_map]
  refine congrArg List.sum (List.map_congr_left fun x hx => ?_)
  exact leafFreq_toNat ((List.le_sum_of_mem (List.mem_map_of_mem hx)).trans h)

/-- A frozen block at the root of a tree of these leaves. -/
structure Built (leaves : List (Symbol × Freq)) (s : State) : Prop where
  inv : Inv s
  err : s.err = 0#4
  tv : s.tv = true
  atRoot : s.cur = s.root
  leaves : (leavesOf s.nodes s.root).Perm leaves

/-- The LEAFs and the BUILD answer OK and leave the tree when the frequencies fit (R112). -/
theorem runCommands_leaves_build {leaves : List (Symbol × Freq)} (hne : leaves ≠ []) (hlen : leaves.length ≤ 256)
    (hsum : freqSum leaves ≤ 4294967295) :
    ∃ rs s, runCommands (leaves.map leafInstr ++ [.build]) State.reset = some (rs, s) ∧ (∀ r ∈ rs, rspCode r = 0#4) ∧
      Built leaves s := by
  obtain ⟨rs, s, hrun, hok, hs⟩ := runCommands_leaves leaves hlen
  obtain ⟨t, hbuild⟩ := exec_answers hs.inv .build
  rcases execBuild_loaded_cases hs hlen hbuild with
    ⟨hnil, -⟩ | ⟨-, hover, -⟩ | ⟨-, -, k, u, n, r', hp, hq, -, rfl⟩
  · exact absurd hnil hne
  · exact absurd hsum hover.not_ge
  · have herr : u.err = 0#4 := (passes_err hp).trans hs.err
    obtain ⟨-, -, -, -, hleaves⟩ := tree_of_loaded hs hne hp hq
    obtain ⟨r, hr, hcode⟩ := exists_okRsp_of_exec hbuild herr
    exact ⟨rs ++ [r], _, runCommands_append hrun (runCommands_singleton hbuild hr),
      List.forall_mem_append.mpr ⟨hok, List.forall_mem_singleton.mpr hcode⟩,
      ⟨exec_keeps_inv hs.inv hbuild, herr, rfl, rfl, hleaves⟩⟩

/-- The symbols of the code table are those of the table the host loaded. -/
theorem mem_codeTable_symbols_iff {table : List (Symbol × Nat)} {s : State} (h : Built (table.map hostLeaf) s)
    (sym : Symbol) : sym ∈ (codeTable s).map Prod.fst ↔ sym ∈ table.map Prod.fst := by
  have hloaded : (table.map hostLeaf).map Prod.fst = table.map Prod.fst := List.map_map
  rw [codeTable_symbols h.inv h.tv, (h.leaves.map Prod.fst).mem_iff, hloaded]

/-! ### The obligations -/

/-- Settles O56: a code is the path to its leaf, and two leaves' paths part at the node where the walk turns. -/
theorem codeTableIsPrefixFree : Obligations.CodeTableIsPrefixFree := by
  exact ⟨fun s h htv => ⟨codeTable_prefixFree h htv, fun f l r hroot => mem_codeTable_iff h htv hroot,
    fun sym f hroot => codeTable_of_leaf_root htv hroot⟩, fun s htv => codeTable_of_no_tree htv⟩

/-- Settles O57: each position adds one to its symbol, and the merged table adds pair by pair. -/
theorem frequencyTableCounts : Obligations.FrequencyTableCounts := by
  intro msg msg'
  have h := counts_freqTable msg
  have h' := counts_freqTable msg'
  refine ⟨h.count, h.total, h.pos, h.nodup, fun sym => ?_⟩
  rw [tableCount_mergeTables h'.nodup, h.count, h'.count, List.count_append]

/-- Settles O58: the codes of the symbols are paths to leaves with these symbols, which the decoder walks. -/
theorem decodeInvertsEncoder : Obligations.DecodeInvertsEncoder := by
  intro s h herr htv hcur msg bits henc
  exact decodeStream_of_encodeMsg h herr htv hcur henc

/-- Settles O59: the leaves of the tree are the pairs of the table, whatever their order, so every symbol of the message has a
code, and the decoder inverts the encoder. -/
theorem roundTrip : Obligations.RoundTrip := by
  intro msg table hne hlen hperm
  have hc : Counts msg table := counts_perm hperm (counts_freqTable msg)
  have hsum : freqSum (table.map hostLeaf) ≤ 4294967295 := by rwa [freqSum_hostLeaf (hc.total ▸ hlen), hc.total]
  have hcount : (table.map hostLeaf).length ≤ 256 := List.length_map hostLeaf ▸ length_le_of_nodup_symbols hc.nodup
  have hleaves : table.map hostLeaf ≠ [] := by
    rintro hnil
    obtain rfl := List.map_eq_nil_iff.mp hnil
    exact hne (List.length_eq_zero_iff.mp hc.total.symm)
  obtain ⟨rs, s, hrun, hok, hs⟩ := runCommands_leaves_build hleaves hcount hsum
  obtain ⟨bits, henc⟩ := exists_encodeMsg (table := codeTable s) fun sym hsym =>
    (mem_codeTable_symbols_iff hs sym).mpr ((hc.symbols sym).mpr hsym)
  refine ⟨rs, s, bits, leafCommands_eq_map table ▸ hrun, hok, henc, fun hone => ?_,
    decodeStream_of_encodeMsg hs.inv hs.err hs.tv hs.atRoot henc⟩
  have hle : (leavesOf s.nodes s.root).length ≤ 1 := by
    rw [hs.leaves.length_eq, List.length_map]
    exact length_le_one_of_counts hc hone
  obtain ⟨sym, f, hroot⟩ := exists_leaf_root_of_one_leaf hs.inv hs.tv hle
  rw [codeTable_of_leaf_root hs.tv hroot] at henc
  exact (eq_replicate_of_encodeMsg_single henc).2

end Sys2Proof.Proofs
end

section
/-! SUPPORT. The statements that rest on spec/60_exceptions.md: which command raises which error and when (R182 to R189), that an
error changes ERR and the response alone (R190, R191), what a faulted block serves (R192, R193), and the idle block (R199). -/

namespace Sys2Proof.Proofs

open Sys2Proof.Machine Sys2Proof.Safety Sys2Proof.Laws

/-! ### When a command raises an error (R182 to R189) -/

/-- The condition under which a command raises an error of some kind on a block that is not faulted. UnknownSymbolError is the
host's (R197), IllegalCommandError the front end's (R186). -/
def RaisesWhen (s : State) (i : Instr) : ErrKind → Prop
  | .emptyStructure => (i = .xmin ∧ s.tv = false ∧ s.pq = []) ∨ (i = .merge ∧ s.tv = false ∧ s.pq.length < 2)
  | .unknownSymbol => False
  | .truncatedStream => i = .dend ∧ s.tv = true ∧ s.cur ≠ s.root
  | .invalidBit => ∃ v, i = .dbit v ∧ s.tv = true ∧ 2 ≤ v.toNat
  | .nullTree => ∃ v, i = .dbit v ∧ s.tv = false
  | .illegalCommand => False
  | .capacity =>
    (∃ sym freq, i = .leaf sym freq ∧ s.tv = false ∧ (511 ≤ s.nodes.length ∨ 256 ≤ s.pq.length)) ∨
      (i = .merge ∧ s.tv = false ∧ NoRoomToMerge s) ∨ (i = .build ∧ s.tv = false ∧ AtSomePass NoRoomToMerge s)
  | .freqOverflow =>
    (i = .merge ∧ s.tv = false ∧ SumTooLarge s) ∨ (i = .build ∧ s.tv = false ∧ AtSomePass SumTooLarge s)
  | .sequence => s.tv = true ∧ ((∃ sym freq, i = .leaf sym freq) ∨ i = .xmin ∨ i = .merge ∨ i = .build)

/-- Why a merge step fails, in the words of R182, R187 and R188. -/
theorem mergeStep_failed_cases {s : State} {e : ErrKind} (h : mergeStep s = .failed e) :
    (e = .emptyStructure ∧ s.pq.length < 2) ∨ (e = .capacity ∧ NoRoomToMerge s) ∨ (e = .freqOverflow ∧ SumTooLarge s) := by
  rcases mergeStep_eq_failed h with ⟨hlen, rfl⟩ | ⟨a, b, -, -, ⟨-, rfl⟩ | ⟨-, -, rfl⟩⟩
  · exact .inl ⟨rfl, hlen⟩
  · exact .inr (.inr ⟨rfl, mergeStep_freqOverflow_iff.mp h⟩)
  · exact .inr (.inl ⟨rfl, mergeStep_capacity_iff.mp h⟩)

theorem raisesWhen_of_merge_failed {s : State} {e : ErrKind} (htv : s.tv = false) (h : mergeStep s = .failed e) :
    RaisesWhen s .merge e := by
  rcases mergeStep_failed_cases h with ⟨rfl, hlen⟩ | ⟨rfl, hroom⟩ | ⟨rfl, hsum⟩
  · exact .inr ⟨rfl, htv, hlen⟩
  · exact .inr (.inl ⟨rfl, htv, hroom⟩)
  · exact .inl ⟨rfl, htv, hsum⟩

theorem raisesWhen_of_build_failed {k : Nat} {s u : State} {e : ErrKind} (htv : s.tv = false) (hp : Passes k s u)
    (hlen : 1 < u.pq.length) (h : mergeStep u = .failed e) : RaisesWhen s .build e := by
  rcases mergeStep_failed_cases h with ⟨-, hshort⟩ | ⟨rfl, hroom⟩ | ⟨rfl, hsum⟩
  · omega
  · exact .inr (.inr ⟨rfl, htv, k, u, hp, hroom⟩)
  · exact .inr ⟨rfl, htv, k, u, hp, hsum⟩

/-! ### A command keeps ERR or raises an error under its condition -/

/-- The command raised an error for its reason, from the state it found; a BUILD, from where its completed passes led (R115). -/
def RaisedBy (i : Instr) (s t : State) : Prop :=
  ∃ e, RaisesWhen s i e ∧ ∃ k u, Passes k s u ∧ (i ≠ .build → u = s) ∧ Raised u t e

/-- Every way a command but CLR can leave ERR (R190, R193). -/
def KeepsErrOrRaises (i : Instr) (s t : State) : Prop := t.err = s.err ∨ RaisedBy i s t

theorem gated_keepsErrOrRaises {i : Instr} {s t : State} (h : Gated s t) : KeepsErrOrRaises i s t := by
  obtain ⟨-, rfl⟩ := h
  exact .inl rfl

theorem answered_keepsErrOrRaises {i : Instr} {s t u v : State} {d : Data} (h : Answered v t u d) (hu : u.err = s.err) :
    KeepsErrOrRaises i s t := by
  obtain ⟨-, rfl⟩ := h
  exact .inl hu

theorem raised_keepsErrOrRaises {i : Instr} {s t : State} {e : ErrKind} (h : Raised s t e) (hw : RaisesWhen s i e) :
    KeepsErrOrRaises i s t :=
  .inr ⟨e, hw, 0, s, .none s, fun _ => rfl, h⟩

theorem execLeaf_keepsErrOrRaises {s t : State} {sym : Symbol} {freq : Freq} (h : execLeaf sym freq s = .next t) :
    KeepsErrOrRaises (.leaf sym freq) s t := by
  rcases execLeaf_eq_next h with hg | ⟨htv, hr⟩ | ⟨htv, hfull, hr⟩ | ⟨-, -, -, ha⟩
  · exact gated_keepsErrOrRaises hg
  · exact raised_keepsErrOrRaises hr ⟨htv, .inl ⟨sym, freq, rfl⟩⟩
  · have hfull : 511 ≤ s.nodes.length ∨ 256 ≤ s.pq.length := hfull.imp of_decide_eq_true of_decide_eq_true
    exact raised_keepsErrOrRaises hr (.inl ⟨sym, freq, rfl, htv, hfull⟩)
  · exact answered_keepsErrOrRaises ha rfl

theorem execXmin_keepsErrOrRaises {s t : State} (h : execXmin s = .next t) : KeepsErrOrRaises .xmin s t := by
  rcases execXmin_eq_next h with hg | ⟨htv, hr⟩ | ⟨htv, hq, hr⟩ | ⟨-, x, -, ha⟩
  · exact gated_keepsErrOrRaises hg
  · exact raised_keepsErrOrRaises hr ⟨htv, .inr (.inl rfl)⟩
  · exact raised_keepsErrOrRaises hr (.inl ⟨rfl, htv, hq⟩)
  · exact answered_keepsErrOrRaises ha rfl

theorem execMerge_keepsErrOrRaises {s t : State} (h : execMerge s = .next t) : KeepsErrOrRaises .merge s t := by
  rcases execMerge_eq_next h with hg | ⟨htv, hr⟩ | ⟨htv, e, he, hr⟩ | ⟨-, n, f, u, hm, ha⟩
  · exact gated_keepsErrOrRaises hg
  · exact raised_keepsErrOrRaises hr ⟨htv, .inr (.inr (.inl rfl))⟩
  · exact raised_keepsErrOrRaises hr (raisesWhen_of_merge_failed htv he)
  · exact answered_keepsErrOrRaises ha (passes_err (.more hm (.none u)))

theorem execBuild_keepsErrOrRaises {s t : State} (h : execBuild s = .next t) : KeepsErrOrRaises .build s t := by
  rcases execBuild_eq_next h with
    hg | ⟨htv, hr⟩ | ⟨htv, -, k, u, hp, ⟨-, ha⟩ | ⟨n, rec, -, -, ha⟩ | ⟨e, hlen, he, hr⟩⟩
  · exact gated_keepsErrOrRaises hg
  · exact raised_keepsErrOrRaises hr ⟨htv, .inr (.inr (.inr rfl))⟩
  · exact answered_keepsErrOrRaises ha (passes_err hp)
  · exact answered_keepsErrOrRaises ha ((formTree_err u n).trans (passes_err hp))
  · exact .inr ⟨e, raisesWhen_of_build_failed htv hp hlen he, k, u, hp, absurd rfl, hr⟩

theorem execDbit_keepsErrOrRaises {s t : State} {v : StreamElem} (h : execDbit v s = .next t) :
    KeepsErrOrRaises (.dbit v) s t := by
  rcases execDbit_eq_next h with hg | ⟨htv, hr⟩ | ⟨htv, hv, hr⟩ |
    ⟨-, b, -, ⟨sym, f, -, ha⟩ | ⟨f, l, r, n, -, -, ⟨sym, g, -, ha⟩ | ⟨g, l', r', -, ha⟩⟩⟩
  · exact gated_keepsErrOrRaises hg
  · exact raised_keepsErrOrRaises hr ⟨v, rfl, htv⟩
  · exact raised_keepsErrOrRaises hr ⟨v, rfl, htv, (streamBit_eq_none_iff v).mp hv⟩
  · exact answered_keepsErrOrRaises ha rfl
  · exact answered_keepsErrOrRaises ha rfl
  · exact answered_keepsErrOrRaises ha rfl

theorem execDend_keepsErrOrRaises {s t : State} (h : execDend s = .next t) : KeepsErrOrRaises .dend s t := by
  rcases execDend_eq_next h with hg | ⟨htv, hcur, hr⟩ | ⟨-, ha⟩
  · exact gated_keepsErrOrRaises hg
  · exact raised_keepsErrOrRaises hr ⟨rfl, htv, hcur⟩
  · exact answered_keepsErrOrRaises ha rfl

/-- SIZE, STAT and NODE change the response alone. -/
theorem keepsErrOrRaises_of_frame {i : Instr} {s t : State} (h : t = s.withRsp t.rsp) : KeepsErrOrRaises i s t := by
  rw [h]
  exact .inl rfl

/-- ERR is changed by no command but CLR, except by an error the command has reason to raise. -/
theorem exec_keepsErrOrRaises {s t : State} {i : Instr} (hi : i ≠ .clr) (h : exec i s = .next t) :
    KeepsErrOrRaises i s t := by
  cases i with
  | clr => exact absurd rfl hi
  | leaf sym freq => exact execLeaf_keepsErrOrRaises h
  | xmin => exact execXmin_keepsErrOrRaises h
  | size => exact keepsErrOrRaises_of_frame (execSize_frame h)
  | merge => exact execMerge_keepsErrOrRaises h
  | build => exact execBuild_keepsErrOrRaises h
  | dbit v => exact execDbit_keepsErrOrRaises h
  | dend => exact execDend_keepsErrOrRaises h
  | stat => exact keepsErrOrRaises_of_frame (execStat_frame h)
  | node idx => exact keepsErrOrRaises_of_frame (execNode_frame h)

/-! ### Under its condition the error is raised -/

/-- A BUILD fails with the pass that fails, those before it being completed (R115). With fewer than two entries it makes no pass
that could fail. -/
theorem execBuild_of_failed_pass {k : Nat} {s u : State} {e : ErrKind} (herr : s.err = 0#4) (htv : s.tv = false)
    (hp : Passes k s u) (hm : mergeStep u = .failed e) (he : e ≠ .emptyStructure) :
    execBuild s = .next (raised u e.code) := by
  have hlen : 1 < u.pq.length := by
    by_contra hshort
    rw [mergeStep_of_short (by omega)] at hm
    exact he (MergeResult.failed.inj hm).symm
  rw [← execBuild_of_passes herr htv hp]
  exact execBuild_of_failed ((passes_err hp).trans herr) ((passes_tv hp).trans htv) hlen hm

theorem exec_raises_of_raisesWhen {s : State} {i : Instr} {e : ErrKind} (herr : s.err = 0#4) (h : RaisesWhen s i e) :
    ∃ u, exec i s = .next (raised u e.code) := by
  cases e with
  | emptyStructure =>
    rcases h with ⟨rfl, htv, hq⟩ | ⟨rfl, htv, hlen⟩
    · exact ⟨s, execXmin_of_empty herr htv hq⟩
    · exact ⟨s, execMerge_of_failed herr htv (mergeStep_of_short hlen)⟩
  | unknownSymbol => exact h.elim
  | truncatedStream =>
    obtain ⟨rfl, htv, hcur⟩ := h
    exact ⟨s, execDend_of_truncated herr htv hcur⟩
  | invalidBit =>
    obtain ⟨v, rfl, htv, hv⟩ := h
    exact ⟨s, execDbit_of_invalid herr htv ((streamBit_eq_none_iff v).mpr hv)⟩
  | nullTree =>
    obtain ⟨v, rfl, htv⟩ := h
    exact ⟨s, execDbit_of_no_tree v herr htv⟩
  | illegalCommand => exact h.elim
  | capacity =>
    rcases h with ⟨sym, freq, rfl, htv, hfull⟩ | ⟨rfl, htv, hroom⟩ | ⟨rfl, htv, k, u, hp, hroom⟩
    · exact ⟨s, execLeaf_of_full sym freq herr htv hfull⟩
    · exact ⟨s, execMerge_of_failed herr htv (mergeStep_capacity_iff.mpr hroom)⟩
    · exact ⟨u, execBuild_of_failed_pass herr htv hp (mergeStep_capacity_iff.mpr hroom) (by decide)⟩
  | freqOverflow =>
    rcases h with ⟨rfl, htv, hsum⟩ | ⟨rfl, htv, k, u, hp, hsum⟩
    · exact ⟨s, execMerge_of_failed herr htv (mergeStep_freqOverflow_iff.mpr hsum)⟩
    · exact ⟨u, execBuild_of_failed_pass herr htv hp (mergeStep_freqOverflow_iff.mpr hsum) (by decide)⟩
  | sequence =>
    obtain ⟨htv, hi⟩ := h
    obtain ⟨-, -, hrefused⟩ := treeValidOnlyByBuild
    exact ⟨s, hrefused s i herr htv hi⟩

/-- On a block that is not faulted, ERR takes a code exactly under the condition of its kind. -/
theorem exec_err_eq_code_iff {s t : State} {i : Instr} (herr : s.err = 0#4) (h : exec i s = .next t) (e : ErrKind) :
    t.err = e.code ↔ RaisesWhen s i e := by
  constructor
  · intro hcode
    have hnz : t.err ≠ 0#4 := hcode ▸ errKind_code_ne_zero e
    have hi : i ≠ .clr := by
      rintro rfl
      obtain rfl := respondOk_eq_next_iff.mp h
      exact hnz rfl
    rcases exec_keepsErrOrRaises hi h with hkept | ⟨e', hw, k, u, -, -, -, rfl⟩
    · exact absurd (hkept.trans herr) hnz
    · exact errKind_code_injective e' e hcode ▸ hw
  · intro hw
    obtain ⟨u, hu⟩ := exec_raises_of_raisesWhen herr hw
    obtain rfl := Host.Outcome.next.inj (h.symm.trans hu)
    rfl

/-! ### The obligations -/

/-- Settles O43: the kinds have different codes, and each is raised exactly under its condition. -/
theorem errorsAreRaisedExactlyWhen : Obligations.ErrorsAreRaisedExactlyWhen := by
  intro s t i herr h
  have hiff := exec_err_eq_code_iff herr h
  exact ⟨hiff .emptyStructure, (hiff .unknownSymbol).mp, hiff .truncatedStream, hiff .invalidBit, hiff .nullTree,
    (hiff .illegalCommand).mp, hiff .capacity, hiff .freqOverflow, hiff .sequence⟩

/-- Settles O42: an error is raised from the state the command found, or from what the passes of a BUILD have left. -/
theorem errorsArePrecise : Obligations.ErrorsArePrecise := by
  intro s t i h hi hne
  obtain ⟨e, -, k, u, hp, hu, hr⟩ := (exec_keepsErrOrRaises hi h).resolve_left hne
  have herr : s.err = 0#4 := (passes_err hp).symm.trans hr.1
  obtain rfl := raised_eq hr
  refine ⟨herr, rfl, fun hbuild => by rw [hu hbuild]; rfl, ?_⟩
  rw [passes_others hp]
  rfl

/-- Settles O40: the front end serves CLR and STAT whatever ERR holds, and the fault gate answers every other command. -/
theorem faultedBlockServesOnlyClrAndStat : Obligations.FaultedBlockServesOnlyClrAndStat := by
  refine ⟨fun s i => exec_of_faulted, fun s w es hin hf => ?_⟩
  obtain ⟨hclr, hstat, hother⟩ := frontEndOrder s w es hin
  exact ⟨beq_false_of_ne hf, fun hw hw' => (hother hw hw').1 hf, hstat,
    fun hw => ⟨_, hclr hw, isS0_of_clearBlock _ _⟩⟩

/-- Settles O8: a block with nothing presented takes no event. -/
theorem idleBlockHoldsItsState : Obligations.IdleBlockHoldsItsState := by
  intro s hin
  rw [step, nextEvent, hin]

/-- Settles O41, event by event: a faulted block answers a word from its code or its status, unless the word is CLR. -/
theorem firstErrorIsKept : Obligations.FirstErrorIsKept := by
  intro s t hf h
  match hin : s.input with
  | [] =>
    obtain rfl := Host.Outcome.next.inj ((idleBlockHoldsItsState s hin).symm.trans h)
    exact .inl ⟨rfl, rfl, rfl, rfl, rfl, rfl⟩
  | .rst :: es =>
    obtain ⟨-, hreset, -⟩ := resetAndClrLeaveS0
    obtain ⟨u, hu, hs0, -⟩ := hreset s es hin
    obtain rfl := Host.Outcome.next.inj (hu.symm.trans h)
    exact .inr ⟨hs0, es, .inl rfl⟩
  | .cmd w :: es =>
    obtain ⟨-, hword⟩ := faultedBlockServesOnlyClrAndStat
    obtain ⟨-, hother, hstat, hclr⟩ := hword s w es hin hf
    by_cases hw : w = 0x100000000000#48
    · obtain ⟨u, hu, hs0⟩ := hclr hw
      obtain rfl := Host.Outcome.next.inj (hu.symm.trans h)
      exact .inr ⟨hs0, es, .inr (hw ▸ rfl)⟩
    · obtain ⟨r, hr⟩ : ∃ r, step s = .next { s with input := es, rsp := r } := by
        by_cases hw' : w = 0x900000000000#48
        · exact ⟨_, hstat hw'⟩
        · exact ⟨_, hother hw hw'⟩
      obtain rfl := Host.Outcome.next.inj (hr.symm.trans h)
      exact .inl ⟨rfl, rfl, rfl, rfl, rfl, rfl⟩

end Sys2Proof.Proofs
end

section
/-! SUPPORT. The statements that rest on spec/70_reset_and_hazards.md: CLR and reset (R210, R212), the answer to every word
(R222), and a decode as a segment of a run (R221). -/

namespace Sys2Proof.Proofs

open Sys2Proof.Machine Sys2Proof.Safety Sys2Proof.Laws

/-! ### A reset event (R210) -/

theorem step_of_rst {s : State} {es : List HostEvent} (h : s.input = .rst :: es) :
    step s = .next (resetBlock (s.withInput es)) := by
  rw [step, nextEvent, h]

/-! ### A word takes nothing else of the input, and adds at most 255 nodes (R33, R222) -/

theorem passes_input {k : Nat} {s t : State} (h : Passes k s t) : t.input = s.input := by
  rw [passes_others h]

theorem effect_input {s u : State} (h : Effect s u) : u.input = s.input := by
  cases h with
  | merges _ hp => exact passes_input hp
  | _ => rfl

theorem respondsFrom_input {u t : State} (h : RespondsFrom u t) : t.input = u.input := by
  obtain ⟨r, rfl | ⟨e, -, rfl⟩⟩ := h <;> rfl

theorem respondsFrom_nodes {u t : State} (h : RespondsFrom u t) : t.nodes = u.nodes := by
  obtain ⟨r, rfl | ⟨e, -, rfl⟩⟩ := h <;> rfl

theorem frontEnd_input {s t : State} {w : CmdWord} (h : frontEnd w s = .next t) : t.input = s.input := by
  rcases frontEnd_cases h with ⟨-, r, rfl⟩ | ⟨-, htree⟩ | ⟨u, heff, hrsp⟩
  · rfl
  · exact (registers_of_formsTree htree).1
  · exact (respondsFrom_input hrsp).trans (effect_input heff)

/-- Passes leave an entry of a queue that is not empty, so there is one pass less than there are entries at most (R115). -/
theorem passes_nodes_length_le {k : Nat} {s t : State} (h : Passes k s t) (hpq : s.pq.length ≤ 256) :
    t.nodes.length ≤ s.nodes.length + 255 := by
  obtain ⟨hqueue, hstore⟩ := passes_counts h
  by_cases hne : s.pq = []
  · simp only [hne, List.length_nil] at hqueue
    omega
  · have := List.length_pos_iff.mpr (passes_pq_ne_nil h hne)
    omega

theorem effect_nodes_length_le {s u : State} (h : Effect s u) (hpq : s.pq.length ≤ 256) :
    u.nodes.length ≤ s.nodes.length + 255 := by
  cases h with
  | allocLeaf => simp
  | merges _ hp => exact passes_nodes_length_le hp hpq
  | _ => exact Nat.le_add_right _ _

theorem frontEnd_nodes_length_le {s t : State} {w : CmdWord} (h : frontEnd w s = .next t) (hpq : s.pq.length ≤ 256) :
    t.nodes.length ≤ s.nodes.length + 255 := by
  rcases frontEnd_cases h with ⟨-, r, rfl⟩ | ⟨-, -, -, k, u, n, r, hp, -, rfl⟩ | ⟨u, heff, hrsp⟩
  · exact Nat.zero_le _
  · rw [withRsp_nodes, formTree_nodes]
    exact passes_nodes_length_le hp hpq
  · rw [respondsFrom_nodes hrsp]
    exact effect_nodes_length_le heff hpq

/-- Every word is answered by one response and taken from the input (R222). -/
theorem exists_step_of_cmd {s : State} {w : CmdWord} {es : List HostEvent} (h : Inv s) (hin : s.input = .cmd w :: es) :
    ∃ t r, step s = .next t ∧ t.rsp = some r ∧ t.input = es ∧ t.nodes.length ≤ s.nodes.length + 255 := by
  obtain ⟨t, ht⟩ := frontEnd_answers (inv_withInput h es) w
  obtain ⟨c, d, hrsp, -⟩ := frontEnd_tellsErr ht
  exact ⟨t, rspWord c d, (step_of_cmd hin).trans ht, hrsp, frontEnd_input ht,
    frontEnd_nodes_length_le (s := s.withInput es) ht h.queueBound⟩

/-! ### The commands in a decode (R221) -/

/-- The commands that may stand in a decode and do not count in it. -/
def IsRead (i : Instr) : Prop := i = .size ∨ i = .stat ∨ ∃ idx, i = .node idx

theorem exec_read_frame {s t : State} {i : Instr} (hi : IsRead i) (h : exec i s = .next t) : t = s.withRsp t.rsp := by
  obtain ⟨hframe, -⟩ := readCommandsFrame s t i hi h
  exact hframe

theorem streamElem_of_isRead {i : Instr} (hi : IsRead i) : streamElem i = none := by
  rcases hi with rfl | rfl | ⟨idx, rfl⟩ <;> rfl

theorem segmentsFrom_read {i : Instr} (hi : IsRead i) (seg : Option (List RspWord)) (r : RspWord)
    (xs : List (CmdWord × RspWord)) : segmentsFrom seg ((encode i, r) :: xs) = segmentsFrom seg xs := by
  rcases hi with rfl | rfl | ⟨idx, rfl⟩ <;> rw [segmentsFrom, decode_encode]

theorem segmentsFrom_dbit (v : StreamElem) (seg : Option (List RspWord)) (r : RspWord) (xs : List (CmdWord × RspWord)) :
    segmentsFrom seg ((encode (.dbit v), r) :: xs) = segmentsFrom (seg.map (· ++ [r])) xs := by
  rw [segmentsFrom, decode_encode]

theorem segmentsFrom_dend (rs : List RspWord) (r : RspWord) : segmentsFrom (some rs) [(encode .dend, r)] = [⟨rs, r⟩] := by
  rw [segmentsFrom, decode_encode]
  rfl

/-- An answer is a response given from the state it leaves. -/
theorem exec_eq_respond {s t : State} {i : Instr} {c : Code} {d : Data} (h : exec i s = .next t)
    (hr : t.rsp = some (rspWord c d)) : exec i s = respond t c d := by
  rw [h, respond, ← hr]
  rfl

/-! ### What a decode that succeeds tells -/

theorem err_zero_of_decodeStream_ok {s : State} {bs : List StreamElem} {out : List Symbol}
    (h : decodeStream s bs = some (.ok out)) : s.err = 0#4 := by
  by_contra hf
  simp [decodeStream_of_faulted hf bs] at h

theorem cur_eq_root_of_decodeStream_nil_ok {s : State} {out : List Symbol} (hinv : Inv s)
    (h : decodeStream s [] = some (.ok out)) : s.cur = s.root := by
  by_contra hcur
  cases htv : s.tv with
  | false =>
    obtain ⟨hroot, hzero⟩ := hinv.noTree htv
    exact hcur (hzero.trans hroot.symm)
  | true => simp [decodeStream_nil_of_truncated (err_zero_of_decodeStream_ok h) htv hcur] at h

theorem exists_ok_of_afterResponse_ok {r : RspWord} {d : DecodeResult} {out : List Symbol}
    (h : afterResponse r d = .ok out) : ∃ out', d = .ok out' := by
  unfold afterResponse at h
  split at h
  · cases d with
    | ok out' => exact ⟨out', rfl⟩
    | fail c => cases h
  · cases h

/-! ### A decode, command by command (R138, R221) -/

/-- Some commands and a DEND, run from `s` to `t`, are the decode `d`. After DBITs with the responses `begun` they are the rest
of one. -/
structure Decodes (s : State) (is : List Instr) (rs : List RspWord) (t : State) (d : DecodeSegment) : Prop where
  runs : runCommands (is ++ [.dend]) s = some (rs, t)
  segment : ∀ begun, segmentsFrom (some begun) (((is ++ [Instr.dend]).map encode).zip rs) = [⟨begun ++ d.dbits, d.dend⟩]
  result : decodeStream s (is.filterMap streamElem) = some d.result
  final : ∀ out, d.result = .ok out → t = { s with cur := s.root, rsp := okRsp 0 }

theorem exists_decodes_nil {s : State} (h : Inv s) : ∃ rs t d, Decodes s [] rs t d := by
  obtain ⟨t, ht⟩ := exec_answers h .dend
  obtain ⟨r, hr⟩ := exists_rsp_of_exec ht
  have hrun := runCommands_singleton ht hr
  have hresult : decodeStream s [] = some (DecodeSegment.result ⟨[], r⟩) := by
    rw [decodeStream_eq_bind, decodeCommands, List.map_nil, List.nil_append, hrun]
    rfl
  refine ⟨[r], t, ⟨[], r⟩, hrun, fun begun => ?_, hresult, fun out hout => ?_⟩
  · rw [List.append_nil]
    exact segmentsFrom_dend begun r
  · rw [hout] at hresult
    have hcur : s.cur = s.root := cur_eq_root_of_decodeStream_nil_ok h hresult
    have hidle := execDend_of_idle (err_zero_of_decodeStream_ok hresult) (.inr hcur)
    rw [respondOk_eq_okRsp] at hidle
    obtain rfl := Host.Outcome.next.inj (hidle.symm.trans ht)
    calc s.withRsp (okRsp 0) = { s with cur := s.cur, rsp := okRsp 0 } := rfl
      _ = _ := by rw [hcur]

/-- A read command is run and leaves the decode as it is. -/
theorem decodes_cons_read {s t u : State} {i : Instr} {is : List Instr} {r : RspWord} {rs : List RspWord} {d : DecodeSegment}
    (hi : IsRead i) (hexec : exec i s = .next u) (hr : u.rsp = some r) (h : Decodes u is rs t d) :
    Decodes s (i :: is) (r :: rs) t d := by
  have hu : u = s.withRsp u.rsp := exec_read_frame hi hexec
  obtain ⟨hrun, hseg, hres, hfinal⟩ := h
  refine ⟨runCommands_cons hexec hr hrun, fun begun => ?_, ?_, fun out hout => ?_⟩
  · exact (segmentsFrom_read hi _ r _).trans (hseg begun)
  · rw [List.filterMap_cons_none (streamElem_of_isRead hi), ← decodeStream_withRsp s u.rsp, ← hu, hres]
  · rw [hfinal out hout, hu]
    rfl

/-- A DBIT is run and its response comes first in the decode. -/
theorem decodes_cons_dbit {s t u : State} {v : StreamElem} {is : List Instr} {c : Code} {data : Data} {rs : List RspWord}
    {d : DecodeSegment} (hexec : exec (.dbit v) s = .next u) (hr : u.rsp = some (rspWord c data)) (h : Decodes u is rs t d) :
    Decodes s (.dbit v :: is) (rspWord c data :: rs) t ⟨rspWord c data :: d.dbits, d.dend⟩ := by
  obtain ⟨hrun, hseg, hres, hfinal⟩ := h
  have hresult : decodeStream s (v :: is.filterMap streamElem) =
      some (DecodeSegment.result ⟨rspWord c data :: d.dbits, d.dend⟩) := by
    rw [decodeStream_cons _ (exec_eq_respond hexec hr), hres, result_cons]
    rfl
  refine ⟨runCommands_cons hexec hr hrun, fun begun => ?_, hresult, fun out hout => ?_⟩
  · refine (segmentsFrom_dbit v _ _ _).trans ((hseg _).trans ?_)
    simp
  · obtain ⟨out', hout'⟩ := exists_ok_of_afterResponse_ok ((result_cons _ _ _).symm.trans hout)
    have hserr : s.err = 0#4 := err_zero_of_decodeStream_ok (hresult.trans (congrArg some hout))
    have huerr : u.err = 0#4 := err_zero_of_decodeStream_ok (hres.trans (congrArg some hout'))
    obtain ⟨hdbit, -⟩ := decoderCommandsFrame
    obtain ⟨hframe, -⟩ := hdbit s u v hexec
    rw [hfinal out' hout', hframe, huerr, ← hserr]

theorem exists_decodes {s : State} {is : List Instr} (h : Inv s) (his : ∀ i ∈ is, IsRead i ∨ ∃ v, i = .dbit v) :
    ∃ rs t d, Decodes s is rs t d := by
  induction is generalizing s with
  | nil => exact exists_decodes_nil h
  | cons i is ih =>
    obtain ⟨u, hu⟩ := exec_answers h i
    obtain ⟨c, data, hr, -⟩ := exec_tellsErr hu
    obtain ⟨rs, t, d, hd⟩ := ih (exec_keeps_inv h hu) fun j hj => his j (List.mem_cons_of_mem i hj)
    rcases his i List.mem_cons_self with hread | ⟨v, rfl⟩
    · exact ⟨_, t, d, decodes_cons_read hread hu hr hd⟩
    · exact ⟨_, t, _, decodes_cons_dbit hu hr hd⟩

/-! ### The obligations -/

/-- Settles O53: every event is taken, and a word is answered with one response. -/
theorem everyWordIsAnswered : Obligations.EveryWordIsAnswered := by
  intro s h
  refine ⟨fun w es hin => exists_step_of_cmd h hin, ?_⟩
  match hin : s.input with
  | [] => exact ⟨s, idleBlockHoldsItsState s hin⟩
  | .rst :: es => exact ⟨_, step_of_rst hin⟩
  | .cmd w :: es =>
    obtain ⟨t, r, ht, -⟩ := exists_step_of_cmd h hin
    exact ⟨t, ht⟩

/-- Settles O60: command by command, a DBIT adds its response to the decode and a read command adds nothing. -/
theorem decodeIsASegmentOfARun : Obligations.DecodeIsASegmentOfARun := by
  intro s is h his
  have hcommands : ∀ i ∈ is, IsRead i ∨ ∃ v, i = .dbit v := fun i hi => by
    simpa only [IsRead, or_assoc] using his i hi
  obtain ⟨rs, t, d, hrun, hseg, hres, hfinal⟩ := exists_decodes h hcommands
  exact ⟨rs, t, d, hrun, hseg [], hres, hfinal⟩

/-- Settles O10: both clear the block, and CLR then answers. -/
theorem clrAndResetAgree : Obligations.ClrAndResetAgree := fun s es hin =>
  ⟨resetBlock (s.withInput es), step_of_rst hin, isS0_of_clearBlock _ none, rfl,
    respondOk_eq_okRsp (s.withInput es).clearBlock 0#64⟩

end Sys2Proof.Proofs
end
